-- ==== Sys2Proof/Word.lean ====
section
/-! DEFINITION. The two word types of the core: 32-bit registers and GAPS entries (R9), 8-bit cells (R32). -/

namespace Sys2Proof

/-- A register or a `GAPS` entry (R9). -/
abbrev Word := BitVec 32

/-- A cell of `BYTES` or of `PACKED` (R32). -/
abbrev Byte := BitVec 8

end Sys2Proof
end

