-- ==== Sys2Proof/Syntax.lean ====
section
/-! DEFINITION. The nine commands of opcode_table.json (R82, R83). -/

namespace Sys2Proof

/-- A command (R2, R82). The only immediate operand is the byte of RLT_LOOKUP; every other operand
is a register or a memory named in the command's rule (R81). -/
inductive Instr where
  /-- RLT_LOOKUP, OP 0x1, with `arg = CMD[15:8]` (R101). -/
  | rltLookup (arg : Byte)
  /-- RLE_ENC, OP 0x2 (R130). -/
  | rleEnc
  /-- RLE_DEC, OP 0x3 (R140). -/
  | rleDec
  /-- DENSITY, OP 0x4 (R150). -/
  | density
  /-- GR_ENC, OP 0x5 (R160). -/
  | grEnc
  /-- GR_DEC, OP 0x6 (R170). -/
  | grDec
  /-- GOLOMB_ENC, OP 0x7 (R180). -/
  | golombEnc
  /-- GOLOMB_DEC, OP 0x8 (R181). -/
  | golombDec
  /-- ILLEGAL: a command word that matches no row above (R83, R182). -/
  | illegal (w : Word)
deriving DecidableEq, Repr

end Sys2Proof
end

