-- ==== Sys2Proof/WellFormed.lean ====
section
/-! DEFINITION. Which terms of `Instr` stand for a command: an `illegal w` only for a word that R83 calls illegal. -/

namespace Sys2Proof

/-- R83's three cases, read off the word: OP is 0x0 or 0x9 to 0xF; `CMD[7:4]` or `CMD[31:16]` is
not 0; or OP is not 0x1 and `CMD[15:8]` is not 0. -/
def wordIsIllegal (w : Word) : Bool :=
  (w.extractLsb' 0 4 == 0x0 || 0x9 ≤ w.extractLsb' 0 4) ||
  (w.extractLsb' 4 4 != 0 || w.extractLsb' 16 16 != 0) ||
  (w.extractLsb' 0 4 != 0x1 && w.extractLsb' 8 8 != 0)

/-- A term stands for a command when it is one of the eight, or `illegal w` with `w` an illegal word. -/
def Instr.wellFormed : Instr → Bool
  | .rltLookup _ => true
  | .rleEnc => true
  | .rleDec => true
  | .density => true
  | .grEnc => true
  | .grDec => true
  | .golombEnc => true
  | .golombDec => true
  | .illegal w => wordIsIllegal w

end Sys2Proof
end

