-- ==== Sys2Proof/Decode.lean ====
section
/-! DEFINITION. The decoder of a command word (R80, R82, R83), total on every word, and the encoder (R82, R86). -/

namespace Sys2Proof

/-- Field OP, `CMD[3:0]` (R80). -/
def fieldOp (w : Word) : BitVec 4 := w.extractLsb' 0 4

/-- Field RSV0, `CMD[7:4]` (R80). -/
def fieldRsv0 (w : Word) : BitVec 4 := w.extractLsb' 4 4

/-- Field ARG, `CMD[15:8]` (R80). -/
def fieldArg (w : Word) : Byte := w.extractLsb' 8 8

/-- Field RSV1, `CMD[31:16]` (R80). -/
def fieldRsv1 (w : Word) : BitVec 16 := w.extractLsb' 16 16

/-- The command that an OP of 0x2 to 0x8 selects when every other field is 0 (R82); a word with any
other OP is illegal. -/
def decodePlain (w : Word) : Instr :=
  match (fieldOp w).toNat with
  | 2 => .rleEnc
  | 3 => .rleDec
  | 4 => .density
  | 5 => .grEnc
  | 6 => .grDec
  | 7 => .golombEnc
  | 8 => .golombDec
  | _ => .illegal w

/-- R82's two steps. Every word decodes: one that matches no row is the command ILLEGAL (R83). -/
def decode (w : Word) : Instr :=
  if fieldRsv1 w = 0 ∧ fieldRsv0 w = 0 ∧ fieldOp w = 1 then .rltLookup (fieldArg w)
  else if fieldRsv1 w = 0 ∧ fieldArg w = 0 ∧ fieldRsv0 w = 0 then decodePlain w
  else .illegal w

/-- The word of a command (R82, R86): `zext_32(OP)` for a plain command, `(imm8 << 8) | 0x1` for
RLT_LOOKUP, the word itself for an illegal one. -/
def encode : Instr → Word
  | .rltLookup arg => (arg.setWidth 32 <<< 8) ||| 0x1
  | .rleEnc => 0x2
  | .rleDec => 0x3
  | .density => 0x4
  | .grEnc => 0x5
  | .grDec => 0x6
  | .golombEnc => 0x7
  | .golombDec => 0x8
  | .illegal w => w

/-- The match and mask of the command's row in opcode_table.json, as R82 gives them; none for
ILLEGAL, whose row is every word that no other row matches. -/
def Instr.matchMask : Instr → Option (Word × Word)
  | .rltLookup _ => some (0x00000001, 0xFFFF00FF)
  | .rleEnc => some (0x00000002, 0xFFFFFFFF)
  | .rleDec => some (0x00000003, 0xFFFFFFFF)
  | .density => some (0x00000004, 0xFFFFFFFF)
  | .grEnc => some (0x00000005, 0xFFFFFFFF)
  | .grDec => some (0x00000006, 0xFFFFFFFF)
  | .golombEnc => some (0x00000007, 0xFFFFFFFF)
  | .golombDec => some (0x00000008, 0xFFFFFFFF)
  | .illegal _ => none

/-- The low `nbits` bits of `w` as a command word, the bits above them 0. A command word is moved as
one whole 32-bit value and has no byte order (R60, R80), so its bits are the table's bits as they
stand (log entry 15). -/
def tableWord (nbits w : Nat) : Word := BitVec.ofNat 32 (w % 2 ^ nbits)

/-- The command the decoder reads from a table word of at most 32 bits (every command word is 32
bits, R84); a longer one is no command word. -/
def decodeTableWord (nbits w : Nat) : Option Instr :=
  if nbits ≤ 32 then some (decode (tableWord nbits w)) else none

end Sys2Proof
end

