-- ==== Sys2Proof/Config.lean ====
section
/-! DEFINITION. The implementation's parameters (R6 to R8) and the model's free values. -/

namespace Sys2Proof

/-- The two parameters of the core: `MAX_LEN` (R6) and `PACK_CAP` (R8). -/
structure Config where
  /-- `MAX_LEN`, the largest byte buffer the core accepts (R6). -/
  maxLen : Nat
  /-- `PACK_CAP`, the number of bytes of `PACKED` (R8). -/
  packCap : Nat
deriving DecidableEq, Repr

/-- `GAP_CAP = 8*MAX_LEN + 8` (R7). -/
def Config.gapCap (c : Config) : Nat := 8 * c.maxLen + 8

/-- The constraints of R6 and R8. -/
abbrev Config.Wf (c : Config) : Prop :=
  (1 ≤ c.maxLen ∧ c.maxLen ≤ 2 ^ 25 - 1) ∧ (16 ≤ c.packCap ∧ c.packCap ≤ 2 ^ 28)

/-- The defaults of R6 and R8: `MAX_LEN = 131072`, `PACK_CAP = 2*MAX_LEN + 32`. -/
def Config.default : Config := { maxLen := 131072, packCap := 2 * 131072 + 32 }

/-- FREE VALUE (log entry 2): what the engine gets from an unwritten cell of `BYTES` or `PACKED`.
The arguments are the number of the reading command (`State.freeSeed`) and the cell's index. -/
opaque Config.unknownByte : Nat → Nat → Byte

/-- FREE VALUE (log entry 2): what the engine gets from an unwritten cell of `GAPS`; the arguments
are those of `Config.unknownByte`. -/
opaque Config.unknownWord : Nat → Nat → Word

end Sys2Proof
end

