-- ==== Sys2Proof/Machine/State.lean ====
section
/-! DEFINITION. The state of the core and its host, as plain data, and its value at power-on. -/

namespace Sys2Proof.Machine

/-! ### Data memories (R32) -/

/-- One data memory (R32): the written cells as (index, value) pairs, indices strictly rising. A cell
that is not listed is UNWRITTEN and holds no value. `Mem 8` is a list of `Host.Cell`. -/
abbrev Mem (n : Nat) := List (Nat × BitVec n)

/-! ### Registers -/

/-- The registers of R20, in the order of their offsets. -/
inductive Reg where
  | cmd | status | byteLen | gapCount | packLen | bParam | zeroCount | packBits
  | capMaxLen | capGap | capPack
deriving DecidableEq, Repr

/-- The fields of `STATUS` (R22). The reserved bits are no data: they always read 0. -/
structure Status where
  busy : Bool
  done : Bool
  err : Bool
  errCode : BitVec 4
deriving DecidableEq, Repr

/-- The error codes of R201. Code 0 is success; 7 to 15 are never produced. -/
inductive ErrorCode where
  | allocationFailure | inputTooLarge | degenerateDensity | malformedStream
  | badParameter | illegalCommand
deriving DecidableEq, Repr

/-! ### Model faults (R210) -/

/-- The model faults of R210. A step never stops with one: R39 has it ADDED TO THE FAULT RECORD, and
the run goes on in a next state; so `Host.Outcome.fault` is answered by no meaning. -/
inductive Fault where
  /-- Recorded when the engine or the host reads an unwritten cell (R15, R63). Safe: no claim whose
  premise is an empty record speaks of such a run. -/
  | uninitRead
  /-- Recorded when a host access is not legal by R62. Safe, as above. -/
  | hostBusError
  /-- Recorded when the host makes any access but a `STATUS` read while `BUSY = 1` (R240). Safe, as
  above. -/
  | hostAccessWhileBusy
deriving DecidableEq, Repr

/-- The fault record (R39): a set of model faults, one flag for each. -/
structure FaultRecord where
  uninitRead : Bool
  hostBusError : Bool
  hostAccessWhileBusy : Bool
deriving DecidableEq, Repr

/-- Why a command has no meaning in the model. -/
inductive Refusal where
  /-- Answered by an arm of `exec` for a command without a meaning; every command has one, so nothing
  answers it. Safe. -/
  | notModelled (mnemonic : String)
deriving DecidableEq, Repr

/-! ### The host's moves -/

/-- The four host accesses of R62. -/
inductive HostOp where
  | read8 (a : Word)
  | write8 (a : Word) (v : Byte)
  | read32 (a : Word)
  | write32 (a : Word) (v : Word)
deriving DecidableEq, Repr

/-- What a host read returns (R63, R64). -/
inductive HostData where
  | byte (v : Byte)
  | word (v : Word)
deriving DecidableEq, Repr

/-- One move of the two agents (R19, R220): a host access, the host's `wait` (R87), the reset input
(R230), or a turn of the engine. -/
inductive Move where
  | access (op : HostOp)
  | wait
  | reset
  | engine
deriving DecidableEq, Repr

/-! ### The state -/

/-- The state of the core (10_state.md) with the moves still to come. -/
structure State where
  /-- `MAX_LEN` and `PACK_CAP` (R6, R8): constants, which no step changes. The capability registers
  (R29) read them. -/
  cfg : Config
  /-- `CMD` (R21). -/
  cmd : Word
  /-- `STATUS` (R22). -/
  status : Status
  /-- `BYTE_LEN` (R23). -/
  byteLen : Word
  /-- `GAP_COUNT` (R24). -/
  gapCount : Word
  /-- `PACK_LEN` (R25). -/
  packLen : Word
  /-- `B_PARAM` (R26). -/
  bParam : Word
  /-- `ZERO_COUNT` (R27). -/
  zeroCount : Word
  /-- `PACK_BITS` (R28). -/
  packBits : Word
  /-- `BYTES` (R32). -/
  bytes : Mem 8
  /-- `GAPS` (R32). -/
  gaps : Mem 32
  /-- `PACKED` (R32). -/
  packed : Mem 8
  /-- The latched word of the pending command, if one is pending (R37, R200). -/
  latch : Option Word
  /-- The fault record (R39). -/
  faults : FaultRecord
  /-- MODEL'S OWN (log entry 8): what the host's last access returned. -/
  reply : Option HostData
  /-- MODEL'S OWN (log entry 3): the moves still to come, the next one first. -/
  moves : List Move
  /-- MODEL'S OWN (log entry 18): the number of commands so far that read an unwritten cell; it
  makes the free values of each such command fresh. -/
  freeSeed : Nat
deriving DecidableEq, Repr

/-- The state at power-on (R40, R39), with the default parameters (R6, R8), no move to come and
nothing returned yet (log entries 1, 3, 8, 18). -/
def State.reset : State where
  cfg := Config.default
  cmd := 0
  status := { busy := false, done := false, err := false, errCode := 0 }
  byteLen := 0
  gapCount := 0
  packLen := 0
  bParam := 0
  zeroCount := 0
  packBits := 0
  bytes := []
  gaps := []
  packed := []
  latch := none
  faults := { uninitRead := false, hostBusError := false, hostAccessWhileBusy := false }
  reply := none
  moves := []
  freeSeed := 0

end Sys2Proof.Machine
end

