-- ==== Sys2Proof/Machine/Flags.lean ====
section
/-! DEFINITION. Every flag computation of the core: the values STATUS takes, and its word (R22, R30, R200 to R202). -/

namespace Sys2Proof.Machine

/-- The number of an error code (R201). -/
def ErrorCode.code : ErrorCode → BitVec 4
  | .allocationFailure => 1
  | .inputTooLarge => 2
  | .degenerateDensity => 3
  | .malformedStream => 4
  | .badParameter => 5
  | .illegalCommand => 6

/-- `STATUS` from a command's start to its completion: 0x0000_0001 (R200). -/
def Status.running : Status := { busy := true, done := false, err := false, errCode := 0 }

/-- `STATUS` after `complete with success`: 0x0000_0002 (R202). -/
def Status.success : Status := { busy := false, done := true, err := false, errCode := 0 }

/-- `STATUS` after `raise Error(e)`: `0x2 | 0x4 | (code << 4)` (R202). -/
def Status.failed (e : ErrorCode) : Status :=
  { busy := false, done := true, err := true, errCode := e.code }

/-- `STATUS` after reset: 0 (R40). -/
def Status.idle : Status := { busy := false, done := false, err := false, errCode := 0 }

/-- The word a read of `STATUS` returns: BUSY [0], DONE [1], ERR [2], ERRCODE [7:4], every other bit
0 (R22). -/
def Status.toWord (st : Status) : Word :=
  (BitVec.ofBool st.busy).setWidth 32
    ||| ((BitVec.ofBool st.done).setWidth 32 <<< 1)
    ||| ((BitVec.ofBool st.err).setWidth 32 <<< 2)
    ||| (st.errCode.setWidth 32 <<< 4)

end Sys2Proof.Machine
end

