-- ==== Sys2Proof/Machine/Ops.lean ====
section
/-! DEFINITION. The named operations over memories and registers, the fault record, the start of a command, its completion, the raising of an error, and reset. -/

namespace Sys2Proof.Machine

/-! ### Memories (R32, R63) -/

/-- The value of cell `i`; none if the cell is unwritten. -/
def Mem.read {n : Nat} : Mem n → Nat → Option (BitVec n)
  | [], _ => none
  | (a, v) :: m, i => if i = a then some v else Mem.read m i

/-- Cell `i` becomes written with `v` (R63); every other cell is as before. -/
def Mem.write {n : Nat} : Mem n → Nat → BitVec n → Mem n
  | [], i, v => [(i, v)]
  | (a, u) :: m, i, v =>
    if i < a then (i, v) :: (a, u) :: m
    else if i = a then (i, v) :: m
    else (a, u) :: Mem.write m i v

/-- The cells from `start` on are written with the values of a list, in order. -/
def Mem.writeList {n : Nat} (m : Mem n) (start : Nat) : List (BitVec n) → Mem n
  | [] => m
  | v :: vs => Mem.writeList (Mem.write m start v) (start + 1) vs

/-- The canonical form: indices strictly rising, each below the memory's capacity. No listed cell
equals what an unlisted one reads as, since an unlisted one holds no value. -/
abbrev Mem.wf {n : Nat} (m : Mem n) (cap : Nat) : Prop :=
  m.Pairwise (fun p q => p.1 < q.1) ∧ ∀ p ∈ m, p.1 < cap

/-- Every cell below `len` is written. -/
def Mem.written {n : Nat} (m : Mem n) (len : Nat) : Bool :=
  (List.range len).all fun i => (Mem.read m i).isSome

/-- The cells below `len`, in order; `free i` stands for cell `i` where that cell is unwritten. -/
def Mem.prefixOr {n : Nat} (m : Mem n) (free : Nat → BitVec n) (len : Nat) : List (BitVec n) :=
  (List.range len).map fun i => (Mem.read m i).getD (free i)

/-- The store of a list of naturals into 32-bit cells (R14). -/
def toWords (l : List Nat) : List Word := l.map (BitVec.ofNat 32)

/-! ### The fault record (R39, R210) -/

/-- The record with `f` added. -/
def FaultRecord.add (r : FaultRecord) : Fault → FaultRecord
  | .uninitRead => { r with uninitRead := true }
  | .hostBusError => { r with hostBusError := true }
  | .hostAccessWhileBusy => { r with hostAccessWhileBusy := true }

/-- Whether `f` is in the record. -/
def FaultRecord.has (r : FaultRecord) : Fault → Bool
  | .uninitRead => r.uninitRead
  | .hostBusError => r.hostBusError
  | .hostAccessWhileBusy => r.hostAccessWhileBusy

/-- A host access that is a model fault: the record gains `f`, the access returns nothing, and
nothing else changes (R210). -/
def State.faultAccess (s : State) (f : Fault) : State :=
  { s with faults := s.faults.add f, reply := none }

/-- What the engine's reads of a command's source cells leave: where every cell was written, nothing;
else UninitRead is recorded (R15, R67), and the command's number is spent, so that the next such
command meets fresh free values (log entry 2). -/
def State.noteReads (s : State) (allWritten : Bool) : State :=
  if allWritten then s
  else { s with faults := s.faults.add .uninitRead, freeSeed := s.freeSeed + 1 }

/-! ### Stores of a command's results -/

/-- `BYTES` and `BYTE_LEN`. -/
def State.putBytes (s : State) (m : Mem 8) (len : Nat) : State :=
  { s with bytes := m, byteLen := BitVec.ofNat 32 len }

/-- `GAPS` and `GAP_COUNT`. -/
def State.putGaps (s : State) (m : Mem 32) (count : Nat) : State :=
  { s with gaps := m, gapCount := BitVec.ofNat 32 count }

/-- `PACKED`, `PACK_BITS` and `PACK_LEN`. -/
def State.putPacked (s : State) (m : Mem 8) (bits len : Nat) : State :=
  { s with packed := m, packBits := BitVec.ofNat 32 bits, packLen := BitVec.ofNat 32 len }

/-- `B_PARAM` and `ZERO_COUNT`. -/
def State.putDensity (s : State) (b zeros : Nat) : State :=
  { s with bParam := BitVec.ofNat 32 b, zeroCount := BitVec.ofNat 32 zeros }

/-! ### Start and completion of a command (R200, R202, R203) -/

/-- The start of a command by a legal write of `w` to `CMD`: store and latch it, and set `STATUS` to
running (R200). -/
def State.start (s : State) (w : Word) : State :=
  { s with cmd := w, latch := some w, status := Status.running }

/-- The end of a command with `STATUS` as given: no command is pending any more (R202). -/
def State.finish (s : State) (st : Status) : State :=
  { s with status := st, latch := none }

/-- `complete with success` (R202). -/
def State.complete (s : State) : State := s.finish Status.success

/-- Error cleanup (R203): each destination memory of the command becomes unwritten, each destination
register 0, nothing else changes. -/
def State.cleanup (s : State) : Instr → State
  | .rltLookup _ => s.putGaps [] 0
  | .rleEnc => s.putGaps [] 0
  | .rleDec => s.putBytes [] 0
  | .density => s.putDensity 0 0
  | .grEnc => s.putPacked [] 0 0
  | .grDec => s.putGaps [] 0
  | .golombEnc => ((s.putGaps [] 0).putDensity 0 0).putPacked [] 0 0
  | .golombDec => (s.putGaps [] 0).putBytes [] 0
  | .illegal _ => s

/-- `raise Error(e)` in the command `i`: the one way an error is taken. The cleanup of R203, then
`STATUS` (R202). No state is saved and no control transferred (R207), and there is no return from an
error: the core is idle, and the next `CMD` write starts anew (R208). -/
def State.raise (s : State) (i : Instr) (e : ErrorCode) : State :=
  (s.cleanup i).finish (Status.failed e)

/-- The word whose command the engine's next step runs: it has a step only while `BUSY = 1` (R19),
and runs the latched word (R37). -/
def State.pending (s : State) : Option Word := if s.status.busy then s.latch else none

/-! ### Moves and reset -/

/-- `s` with the moves still to come replaced. -/
def State.withMoves (s : State) (ms : List Move) : State := { s with moves := ms }

/-- The reset input (R230, R40): every register 0, every cell unwritten, no command pending. The fault
record is kept (R39), and so are the parameters, the moves to come and the free values' counter. -/
def State.hostReset (s : State) : State :=
  { State.reset with
    cfg := s.cfg, faults := s.faults, moves := s.moves, freeSeed := s.freeSeed }

end Sys2Proof.Machine
end

