-- ==== Sys2Proof/Machine/Operands.lean ====
section
/-! DEFINITION. The operand forms of the commands (R81, R33): source buffers and length registers. -/

namespace Sys2Proof.Machine

/-! The immediate of RLT_LOOKUP is the field ARG, which the decoder reads (`fieldArg`). -/

/-- `src = BYTES[0 .. L-1]`, `L = BYTE_LEN` (R33). -/
def State.srcBytes (s : State) : List Byte :=
  Mem.prefixOr s.bytes (Config.unknownByte s.freeSeed) s.byteLen.toNat

/-- Whether every cell of `srcBytes` is written. -/
def State.srcBytesWritten (s : State) : Bool := Mem.written s.bytes s.byteLen.toNat

/-- `g = GAPS[0 .. n-1]`, `n = GAP_COUNT` (R33), as naturals (R14). -/
def State.srcGaps (s : State) : List Nat :=
  (Mem.prefixOr s.gaps (Config.unknownWord s.freeSeed) s.gapCount.toNat).map BitVec.toNat

/-- Whether every cell of `srcGaps` is written. -/
def State.srcGapsWritten (s : State) : Bool := Mem.written s.gaps s.gapCount.toNat

/-- `PACKED[0 .. m-1]`, `m = PACK_LEN` (R33). -/
def State.srcPacked (s : State) : List Byte :=
  Mem.prefixOr s.packed (Config.unknownByte s.freeSeed) s.packLen.toNat

/-- Whether every cell of `srcPacked` is written. -/
def State.srcPackedWritten (s : State) : Bool := Mem.written s.packed s.packLen.toNat

/-- `BYTE_LEN > MAX_LEN` (R131, R151). -/
def State.byteLenTooLarge (s : State) : Bool := s.cfg.maxLen < s.byteLen.toNat

/-- `GAP_COUNT > GAP_CAP` (R141, R161). -/
def State.gapCountTooLarge (s : State) : Bool := s.cfg.gapCap < s.gapCount.toNat

/-- `PACK_LEN > PACK_CAP` (R171). -/
def State.packLenTooLarge (s : State) : Bool := s.cfg.packCap < s.packLen.toNat

/-- `b = B_PARAM` (R26). -/
def State.b (s : State) : Nat := s.bParam.toNat

/-- The bits of a byte, most significant first (R11). -/
def byteBits (v : Byte) : List Bool := (List.range 8).map fun j => v.getLsbD (7 - j)

/-- The number of 1 bits of a byte (R16). -/
def popcount (v : Byte) : Nat := (byteBits v).count true

/-- The bit with stream index `t` of a byte buffer: byte `t div 8`, bit `7 - (t mod 8)` (R12). -/
def streamBit (src : List Byte) (t : Nat) : Bool := (src.getD (t / 8) 0).getLsbD (7 - t % 8)

end Sys2Proof.Machine
end

