-- ==== Sys2Proof/Machine/Density.lean ====
section
/-! DEFINITION. DensityEstimator: DENSITY (R150 to R155). -/

namespace Sys2Proof.Machine

/-- The number of 1 bits of a buffer. -/
def onesOf (src : List Byte) : Nat := (src.map popcount).sum

/-- The upward search of R155 for R152's `b`: from `b` on, the first value with `2*Z^b <= N^b`, in at
most `fuel` tries. -/
def leastB (n z : Nat) : (fuel : Nat) → (b : Nat) → Nat
  | 0, b => b
  | fuel + 1, b => if 2 * z ^ b ≤ n ^ b then b else leastB n z fuel (b + 1)

/-- `EstimateB(src)` (R152, R153), with the pair `(b, Z)`. The search is bounded by `N` (R154). -/
def estimateB (src : List Byte) : Except ErrorCode (Nat × Nat) :=
  let n := 8 * src.length
  let z := n - onesOf src
  if n = 0 ∨ z = 0 ∨ z = n then .error .degenerateDensity
  else .ok (leastB n z n 1, z)

/-- DENSITY (R150, R151). -/
def execDensity (s : State) : Host.Outcome State Fault Refusal :=
  if s.byteLenTooLarge then .next (s.raise .density .inputTooLarge)
  else
    let s1 := s.noteReads s.srcBytesWritten
    match estimateB s.srcBytes with
    | .error e => .next (s1.raise .density e)
    | .ok (b, z) => .next ((s1.putDensity b z).complete)

end Sys2Proof.Machine
end

