-- ==== Sys2Proof/Machine/BitCursor.lean ====
section
/-! DEFINITION. The BitCursor primitives over PACKED (R110 to R119), internal to the Golomb-Rice commands. -/

namespace Sys2Proof.Machine

/-- The cursor `(byte_off, bit_off)`, with `bit_off` in 0 to 7 (R110). -/
structure Cursor where
  byteOff : Nat
  bitOff : Nat
deriving DecidableEq, Repr

/-- The cursor at a command's start (R110). -/
def Cursor.start : Cursor := { byteOff := 0, bitOff := 0 }

/-- `pos = 8*byte_off + bit_off` (R110). -/
def Cursor.pos (c : Cursor) : Nat := 8 * c.byteOff + c.bitOff

/-- `Advance` (R111). -/
def Cursor.advance (c : Cursor) : Cursor :=
  if c.bitOff + 1 = 8 then { byteOff := c.byteOff + 1, bitOff := 0 }
  else { byteOff := c.byteOff, bitOff := c.bitOff + 1 }

/-- `Finish` (R114): `(bits, bytes)`. -/
def Cursor.finish (c : Cursor) : Nat × Nat :=
  (c.pos, c.byteOff + if 0 < c.bitOff then 1 else 0)

/-! ### Write primitives -/

/-- The encoder's working state: the cursor and `PACKED` as written so far. -/
structure Writer where
  cur : Cursor
  mem : Mem 8
deriving DecidableEq, Repr

/-- `PutBit(c)` (R112), `cap` being `PACK_CAP`: a byte is zeroed when it is first entered, then the
bit is ORed in. -/
def putBit (cap : Nat) (c : Bool) (w : Writer) : Except ErrorCode Writer :=
  if 8 * cap ≤ w.cur.pos then .error .allocationFailure
  else
    let i := w.cur.byteOff
    let m := if w.cur.bitOff = 0 then Mem.write w.mem i 0x00 else w.mem
    let v := (Mem.read m i).getD 0x00 ||| ((BitVec.ofBool c).setWidth 8 <<< (7 - w.cur.bitOff))
    .ok { cur := w.cur.advance, mem := Mem.write m i v }

/-- `PutBits(n, x)` (R113): bits `n-1` down to 0 of `x`. -/
def putBits (cap : Nat) : (n : Nat) → (x : Nat) → Writer → Except ErrorCode Writer
  | 0, _, w => .ok w
  | n + 1, x, w =>
    match putBit cap (x.testBit n) w with
    | .error e => .error e
    | .ok w1 => putBits cap n x w1

/-- `PutUnary(q)` (R118): `q` one-bits, then a zero-bit. -/
def putUnary (cap : Nat) : (q : Nat) → Writer → Except ErrorCode Writer
  | 0, w => putBit cap false w
  | q + 1, w =>
    match putBit cap true w with
    | .error e => .error e
    | .ok w1 => putUnary cap q w1

/-! ### Read primitives -/

/-- `GetBit()` (R115) over the bytes `src`, up to `lim` bits. -/
def getBit (src : List Byte) (lim : Nat) (c : Cursor) : Except ErrorCode (Bool × Cursor) :=
  if lim ≤ c.pos then .error .malformedStream
  else .ok ((src.getD c.byteOff 0x00).getLsbD (7 - c.bitOff), c.advance)

/-- `GetBits(n)` (R116) continued from the value `x` read so far. -/
def getBitsFrom (src : List Byte) (lim : Nat) : (x n : Nat) → Cursor → Except ErrorCode (Nat × Cursor)
  | x, 0, c => .ok (x, c)
  | x, n + 1, c =>
    match getBit src lim c with
    | .error e => .error e
    | .ok (t, c1) => getBitsFrom src lim (2 * x + t.toNat) n c1

/-- `GetBits(n)` (R116): the first bit read is the most significant. -/
def getBits (src : List Byte) (lim n : Nat) (c : Cursor) : Except ErrorCode (Nat × Cursor) :=
  getBitsFrom src lim 0 n c

/-- The loop of `GetUnary()` (R117) with at most `fuel` reads, counting on from `q`. With no read left
the cursor is at the limit, where a read is MalformedStream. -/
def getUnaryFrom (src : List Byte) (lim : Nat) : (fuel q : Nat) → Cursor → Except ErrorCode (Nat × Cursor)
  | 0, _, _ => .error .malformedStream
  | fuel + 1, q, c =>
    match getBit src lim c with
    | .error e => .error e
    | .ok (true, c1) => getUnaryFrom src lim fuel (q + 1) c1
    | .ok (false, c1) => .ok (q, c1)

/-- `GetUnary()` (R117), which reads at most `lim - pos` bits. -/
def getUnary (src : List Byte) (lim : Nat) (c : Cursor) : Except ErrorCode (Nat × Cursor) :=
  getUnaryFrom src lim (lim - c.pos) 0 c

/-- `RestIsPad()` (R119): fewer than 8 bits are left before the limit, and all of them are 0. -/
def restIsPad (src : List Byte) (lim : Nat) (c : Cursor) : Bool :=
  decide (lim - c.pos < 8) && (List.range (lim - c.pos)).all fun t => !streamBit src (c.pos + t)

end Sys2Proof.Machine
end

