-- ==== Sys2Proof/Machine/GolombRice.lean ====
section
/-! DEFINITION. GolombRiceEncoder and GolombRiceDecoder: GR_ENC and GR_DEC (R160 to R178). -/

namespace Sys2Proof.Machine

/-- The search for R16's `ceil_log2`: the first `k`, from `k` on, with `b <= 2^k`, in at most `fuel`
tries. -/
def ceilLog2From (b : Nat) : (fuel : Nat) → (k : Nat) → Nat
  | 0, k => k
  | fuel + 1, k => if b ≤ 2 ^ k then k else ceilLog2From b fuel (k + 1)

/-- `ceil_log2(b)`: the least `k` with `2^k >= b` (R16), which is at most `b`. -/
def ceilLog2 (b : Nat) : Nat := ceilLog2From b b 0

/-! ### The encoder -/

/-- `EncodeSymbol(v, b)` (R162): the unary quotient, then the remainder in the long or the short
form. -/
def encodeSymbol (cap v b : Nat) (w : Writer) : Except ErrorCode Writer :=
  let q := (v - 1) / b
  let r := v - q * b
  match putUnary cap q w with
  | .error e => .error e
  | .ok w1 =>
    let k := ceilLog2 b
    let d := 2 ^ k - b
    if d < r then putBits cap k (r - 1 + d) w1 else putBits cap (k - 1) (r - 1) w1

/-- The loop of GR_ENC over the entries (R160): an entry 0 is MalformedStream, met only after the
symbols before it (R161). -/
def encodeSymbols (cap b : Nat) : List Nat → Writer → Except ErrorCode Writer
  | [], w => .ok w
  | v :: g, w =>
    if v = 0 then .error .malformedStream
    else
      match encodeSymbol cap v b w with
      | .error e => .error e
      | .ok w1 => encodeSymbols cap b g w1

/-- The packing of a gap sequence into `PACKED` from the cursor `(0, 0)` on (R160, R110). -/
def grEncode (cap b : Nat) (g : List Nat) (m : Mem 8) : Except ErrorCode Writer :=
  encodeSymbols cap b g { cur := Cursor.start, mem := m }

/-! ### The decoder -/

/-- `DecodeSymbol(b)` (R173): for `b = 1` no remainder bit is read (R174). -/
def decodeSymbol (src : List Byte) (lim b : Nat) (c : Cursor) : Except ErrorCode (Nat × Cursor) :=
  match getUnary src lim c with
  | .error e => .error e
  | .ok (q, c1) =>
    let k := ceilLog2 b
    let d := 2 ^ k - b
    if k = 0 then .ok (1 + q * b, c1)
    else
      match getBits src lim (k - 1) c1 with
      | .error e => .error e
      | .ok (x, c2) =>
        if d < x + 1 then
          match getBit src lim c2 with
          | .error e => .error e
          | .ok (t, c3) => .ok (2 * x + t.toNat - d + 1 + q * b, c3)
        else .ok (x + 1 + q * b, c2)

/-- The loop of R173 with at most `fuel` symbols, from the running sum `sum`: the stop rule (R172), a
symbol, the bound on the sum (R175). Each symbol reads a bit, so `lim + 1` turns are enough. -/
def decodeSymbols (src : List Byte) (lim b smax : Nat) :
    (fuel : Nat) → (sum : Nat) → Cursor → Except ErrorCode (List Nat)
  | 0, _, _ => .error .malformedStream
  | fuel + 1, sum, c =>
    if restIsPad src lim c ∧ sum % 8 = 0 then .ok []
    else
      match decodeSymbol src lim b c with
      | .error e => .error e
      | .ok (v, c1) =>
        if smax < sum + v then .error .malformedStream
        else
          match decodeSymbols src lim b smax fuel (sum + v) c1 with
          | .error e => .error e
          | .ok out => .ok (v :: out)

/-- `GrDecodeCore(m, b)` (R173) over the `m` bytes `src`. -/
def grDecodeCore (maxLen b : Nat) (src : List Byte) : Except ErrorCode (List Nat) :=
  let lim := 8 * src.length
  decodeSymbols src lim b (8 * (maxLen + 1)) (lim + 1) 0 Cursor.start

/-! ### The commands -/

/-- GR_ENC (R160, R161). -/
def execGrEnc (s : State) : Host.Outcome State Fault Refusal :=
  if s.gapCountTooLarge then .next (s.raise .grEnc .inputTooLarge)
  else if s.b = 0 then .next (s.raise .grEnc .badParameter)
  else if s.gapCount = 0 then .next (s.raise .grEnc .malformedStream)
  else
    let s1 := s.noteReads s.srcGapsWritten
    match grEncode s.cfg.packCap s.b s.srcGaps s.packed with
    | .error e => .next (s1.raise .grEnc e)
    | .ok w => .next ((s1.putPacked w.mem w.cur.finish.1 w.cur.finish.2).complete)

/-- GR_DEC (R170, R171). -/
def execGrDec (s : State) : Host.Outcome State Fault Refusal :=
  if s.packLenTooLarge then .next (s.raise .grDec .inputTooLarge)
  else if s.b = 0 then .next (s.raise .grDec .badParameter)
  else if s.packLen = 0 then .next (s.raise .grDec .malformedStream)
  else
    let s1 := s.noteReads s.srcPackedWritten
    match grDecodeCore s.cfg.maxLen s.b s.srcPacked with
    | .error e => .next (s1.raise .grDec e)
    | .ok out => .next ((s1.putGaps (Mem.writeList s1.gaps 0 (toWords out)) out.length).complete)

end Sys2Proof.Machine
end

