-- ==== Sys2Proof/Machine/RunLength.lean ====
section
/-! DEFINITION. RunLengthTable, RunLengthEncoder and RunLengthDecoder: RLT_LOOKUP, RLE_ENC and RLE_DEC (R100 to R146). -/

namespace Sys2Proof.Machine

/-! ### The table (R100) -/

/-- The scan of R100 with the running count `run`: a 1 bit appends the count and restarts it; at the
end of the byte a count that is not 0 is appended with the flag entry 0. -/
def rltScan (run : Nat) : List Bool → List Nat
  | [] => if 0 < run then [run, 0] else []
  | true :: bs => (run + 1) :: rltScan 0 bs
  | false :: bs => rltScan (run + 1) bs

/-- `RLT(v)` (R100). -/
def rlt (v : Byte) : List Nat := rltScan 0 (byteBits v)

/-! ### The encoder (R132, R133) -/

/-- `out[len(out)-1] <- last(out) + v`. -/
def addToLast (v : Nat) : List Nat → List Nat
  | [] => []
  | [x] => [x + v]
  | x :: y :: xs => x :: addToLast v (y :: xs)

/-- The loop of R132: an entry 0 sets the pending-splice flag and is not stored; any other entry is
appended. -/
def appendEntries (out : List Nat) (pend : Bool) : List Nat → List Nat × Bool
  | [] => (out, pend)
  | x :: es => if x = 0 then appendEntries out true es else appendEntries (out ++ [x]) pend es

/-- `SpliceAppend(out, pend, e)` (R132): while a splice is pending, the first entry is added to the
last output entry and the flag is cleared; the rest is appended. -/
def spliceAppend (out : List Nat) (pend : Bool) (e : List Nat) : List Nat × Bool :=
  if pend then appendEntries (addToLast (e.headD 0) out) false e.tail
  else appendEntries out pend e

/-- The encoder's loop over the bytes, from the list `out` and the flag `pend`. -/
def rleLoop (out : List Nat) (pend : Bool) : List Byte → List Nat × Bool
  | [] => (out, pend)
  | v :: vs =>
    let r := spliceAppend out pend (rlt v)
    rleLoop r.1 r.2 vs

/-- The gap-length sequence of a byte buffer: the loop over its bytes and the virtual sentinel byte
0xFF (R130, R133). -/
def rleEncode (src : List Byte) : List Nat := (rleLoop [] false (src ++ [0xFF])).1

/-! ### The decoder (R143) -/

/-- A byte of the decoder's working buffer: the buffer is all 0x00 before a bit of it is set (R143). -/
def bufByte (buf : Mem 8) (i : Nat) : Byte := (Mem.read buf i).getD 0x00

/-- Set the bit at the 1-indexed position `p`: byte `(p-1) div 8`, bit `7 - ((p-1) mod 8)` (R12, R143). -/
def setPosition (buf : Mem 8) (p : Nat) : Mem 8 :=
  Mem.write buf ((p - 1) / 8) (bufByte buf ((p - 1) / 8) ||| (1#8 <<< (7 - (p - 1) % 8)))

/-- The loop of R143 from the position `p`: an entry 0 (R142) and a position over `pmax` (R145) are
MalformedStream. It ends with the last position and the buffer. -/
def rleDecodeLoop (pmax : Nat) (p : Nat) (buf : Mem 8) : List Nat → Except ErrorCode (Nat × Mem 8)
  | [] => .ok (p, buf)
  | v :: g =>
    if v = 0 then .error .malformedStream
    else if pmax < p + v then .error .malformedStream
    else rleDecodeLoop pmax (p + v) (setPosition buf (p + v)) g

/-- `RleDecodeCore(g)` (R143): the last byte touched must end at `P` and be the sentinel 0xFF, and is
stripped (R144). -/
def rleDecodeCore (maxLen : Nat) (g : List Nat) : Except ErrorCode (List Byte) :=
  match rleDecodeLoop (8 * (maxLen + 1)) 0 [] g with
  | .error e => .error e
  | .ok (p, buf) =>
    let nb := (p + 7) / 8
    if p % 8 ≠ 0 ∨ bufByte buf (nb - 1) ≠ 0xFF then .error .malformedStream
    else .ok ((List.range (nb - 1)).map (bufByte buf))

/-! ### The commands -/

/-- RLT_LOOKUP (R101): one entry of the table into `GAPS`. It has no error. -/
def execRltLookup (v : Byte) (s : State) : Host.Outcome State Fault Refusal :=
  let e := rlt v
  .next ((s.putGaps (Mem.writeList s.gaps 0 (toWords e)) e.length).complete)

/-- RLE_ENC (R130, R131). -/
def execRleEnc (s : State) : Host.Outcome State Fault Refusal :=
  if s.byteLenTooLarge then .next (s.raise .rleEnc .inputTooLarge)
  else
    let s1 := s.noteReads s.srcBytesWritten
    let out := rleEncode s.srcBytes
    .next ((s1.putGaps (Mem.writeList s1.gaps 0 (toWords out)) out.length).complete)

/-- RLE_DEC (R140, R141). -/
def execRleDec (s : State) : Host.Outcome State Fault Refusal :=
  if s.gapCountTooLarge then .next (s.raise .rleDec .inputTooLarge)
  else if s.gapCount = 0 then .next (s.raise .rleDec .malformedStream)
  else
    let s1 := s.noteReads s.srcGapsWritten
    match rleDecodeCore s.cfg.maxLen s.srcGaps with
    | .error e => .next (s1.raise .rleDec e)
    | .ok buf => .next ((s1.putBytes (Mem.writeList s1.bytes 0 buf) buf.length).complete)

end Sys2Proof.Machine
end

