-- ==== Sys2Proof/Machine/Composite.lean ====
section
/-! DEFINITION. The composite commands GOLOMB_ENC and GOLOMB_DEC, and ILLEGAL (R180 to R185). -/

namespace Sys2Proof.Machine

/-- GOLOMB_ENC (R180): the density estimate, then the run-length transform, then the packing. The
intermediate sequence is kept in `GAPS` (R183). -/
def execGolombEnc (s : State) : Host.Outcome State Fault Refusal :=
  if s.byteLenTooLarge then .next (s.raise .golombEnc .inputTooLarge)
  else
    let s1 := s.noteReads s.srcBytesWritten
    match estimateB s.srcBytes with
    | .error e => .next (s1.raise .golombEnc e)
    | .ok (b, z) =>
      let out := rleEncode s.srcBytes
      match grEncode s.cfg.packCap b out s.packed with
      | .error e => .next (s1.raise .golombEnc e)
      | .ok w =>
        let s2 := s1.putGaps (Mem.writeList s1.gaps 0 (toWords out)) out.length
        .next (((s2.putDensity b z).putPacked w.mem w.cur.finish.1 w.cur.finish.2).complete)

/-- GOLOMB_DEC (R181): the Golomb-Rice decoder, then the run-length decoder. The intermediate sequence
is kept in `GAPS` (R183). -/
def execGolombDec (s : State) : Host.Outcome State Fault Refusal :=
  if s.packLenTooLarge then .next (s.raise .golombDec .inputTooLarge)
  else if s.b = 0 then .next (s.raise .golombDec .badParameter)
  else if s.packLen = 0 then .next (s.raise .golombDec .malformedStream)
  else
    let s1 := s.noteReads s.srcPackedWritten
    match grDecodeCore s.cfg.maxLen s.b s.srcPacked with
    | .error e => .next (s1.raise .golombDec e)
    | .ok g =>
      match rleDecodeCore s.cfg.maxLen g with
      | .error e => .next (s1.raise .golombDec e)
      | .ok buf =>
        let s2 := s1.putGaps (Mem.writeList s1.gaps 0 (toWords g)) g.length
        .next ((s2.putBytes (Mem.writeList s2.bytes 0 buf) buf.length).complete)

/-- ILLEGAL (R182, R83): IllegalCommand, which clears nothing. -/
def execIllegal (w : Word) (s : State) : Host.Outcome State Fault Refusal :=
  .next (s.raise (.illegal w) .illegalCommand)

end Sys2Proof.Machine
end

