-- ==== Sys2Proof/Machine/Dispatch.lean ====
section
/-! DEFINITION. The dispatch of a command to its meaning (R82, R182). -/

namespace Sys2Proof.Machine

/-- The one atomic step in which the engine runs a command (R19, R200). -/
def exec (i : Instr) (s : State) : Host.Outcome State Fault Refusal :=
  match i with
  | .rltLookup v => Sys2Proof.Machine.execRltLookup v s
  | .rleEnc => Sys2Proof.Machine.execRleEnc s
  | .rleDec => Sys2Proof.Machine.execRleDec s
  | .density => Sys2Proof.Machine.execDensity s
  | .grEnc => Sys2Proof.Machine.execGrEnc s
  | .grDec => Sys2Proof.Machine.execGrDec s
  | .golombEnc => Sys2Proof.Machine.execGolombEnc s
  | .golombDec => Sys2Proof.Machine.execGolombDec s
  | .illegal w => Sys2Proof.Machine.execIllegal w s

end Sys2Proof.Machine
end

