-- ==== Sys2Proof/Machine/HostAccess.lean ====
section
/-! DEFINITION. The host's accesses: address map, access rights, busy window, effects (R20, R61 to R66, R240). -/

namespace Sys2Proof.Machine

/-! ### Registers (R20, R64) -/

/-- The offset of a register in the register window (R20). -/
def Reg.offset : Reg → Nat
  | .cmd => 0x00
  | .status => 0x04
  | .byteLen => 0x08
  | .gapCount => 0x0C
  | .packLen => 0x10
  | .bParam => 0x14
  | .zeroCount => 0x18
  | .packBits => 0x1C
  | .capMaxLen => 0x20
  | .capGap => 0x24
  | .capPack => 0x28

/-- The register at an offset of the window; none at a reserved or misaligned one (R20, R64). -/
def Reg.ofOffset : Nat → Option Reg
  | 0x00 => some .cmd
  | 0x04 => some .status
  | 0x08 => some .byteLen
  | 0x0C => some .gapCount
  | 0x10 => some .packLen
  | 0x14 => some .bParam
  | 0x18 => some .zeroCount
  | 0x1C => some .packBits
  | 0x20 => some .capMaxLen
  | 0x24 => some .capGap
  | 0x28 => some .capPack
  | _ => none

/-- What a host read of a register returns (R64); the capability registers are constants (R29). -/
def State.readReg (s : State) : Reg → Word
  | .cmd => s.cmd
  | .status => s.status.toWord
  | .byteLen => s.byteLen
  | .gapCount => s.gapCount
  | .packLen => s.packLen
  | .bParam => s.bParam
  | .zeroCount => s.zeroCount
  | .packBits => s.packBits
  | .capMaxLen => BitVec.ofNat 32 s.cfg.maxLen
  | .capGap => BitVec.ofNat 32 s.cfg.gapCap
  | .capPack => BitVec.ofNat 32 s.cfg.packCap

/-- A host write of a register (R64): all 32 bits of the five that are read/write, and a write of
`CMD` starts a command (R65, R200). None for a read-only register. -/
def State.writeReg (s : State) (r : Reg) (v : Word) : Option State :=
  match r with
  | .cmd => some (s.start v)
  | .byteLen => some { s with byteLen := v }
  | .gapCount => some { s with gapCount := v }
  | .packLen => some { s with packLen := v }
  | .bParam => some { s with bParam := v }
  | .status | .zeroCount | .packBits | .capMaxLen | .capGap | .capPack => none

/-! ### The address map (R61) -/

/-- The base address of `BYTES` (R61). -/
def bytesBase : Nat := 0x10000000

/-- The base address of `PACKED` (R61). -/
def packedBase : Nat := 0x20000000

/-- The base address of `GAPS` (R61). -/
def gapsBase : Nat := 0x40000000

/-- What a legal access reaches: a register or a cell. -/
inductive Target where
  | reg (r : Reg)
  | bytes (i : Nat)
  | packed (i : Nat)
  | gaps (j : Nat)
deriving DecidableEq, Repr

/-- The cell an 8-bit access reaches; none where R61 maps no 8-bit cell. -/
def target8 (cfg : Config) (a : Nat) : Option Target :=
  if bytesBase ≤ a ∧ a < bytesBase + cfg.maxLen then some (.bytes (a - bytesBase))
  else if packedBase ≤ a ∧ a < packedBase + cfg.packCap then some (.packed (a - packedBase))
  else none

/-- The register or cell a 32-bit access reaches; none where R61 maps no 32-bit one, or the address
is misaligned (R62). -/
def target32 (cfg : Config) (a : Nat) : Option Target :=
  if a % 4 ≠ 0 then none
  else if a ≤ 0xFF then (Reg.ofOffset a).map .reg
  else if gapsBase ≤ a ∧ a < gapsBase + 4 * cfg.gapCap then some (.gaps ((a - gapsBase) / 4))
  else none

/-! ### The accesses (R62 to R66) -/

/-- What a host access leaves: `d` is what it returns. -/
def State.replied (s : State) (d : Option HostData) : State := { s with reply := d }

/-- A read of a cell (R63): its value; an unwritten cell is UninitRead and returns nothing. -/
def State.replyCell (s : State) (d : Option HostData) : State :=
  match d with
  | some v => s.replied (some v)
  | none => s.faultAccess .uninitRead

/-- `HostRead8(a)` while `BUSY = 0`. -/
def State.hostRead8 (s : State) (a : Word) : State :=
  match target8 s.cfg a.toNat with
  | some (.bytes i) => s.replyCell ((Mem.read s.bytes i).map .byte)
  | some (.packed i) => s.replyCell ((Mem.read s.packed i).map .byte)
  | _ => s.faultAccess .hostBusError

/-- `HostWrite8(a, v)` while `BUSY = 0`. -/
def State.hostWrite8 (s : State) (a : Word) (v : Byte) : State :=
  match target8 s.cfg a.toNat with
  | some (.bytes i) => ({ s with bytes := Mem.write s.bytes i v }).replied none
  | some (.packed i) => ({ s with packed := Mem.write s.packed i v }).replied none
  | _ => s.faultAccess .hostBusError

/-- `HostRead32(a)` while `BUSY = 0`. -/
def State.hostRead32 (s : State) (a : Word) : State :=
  match target32 s.cfg a.toNat with
  | some (.reg r) => s.replied (some (.word (s.readReg r)))
  | some (.gaps j) => s.replyCell ((Mem.read s.gaps j).map .word)
  | _ => s.faultAccess .hostBusError

/-- `HostWrite32(a, v)` while `BUSY = 0`. -/
def State.hostWrite32 (s : State) (a : Word) (v : Word) : State :=
  match target32 s.cfg a.toNat with
  | some (.reg r) =>
    match s.writeReg r v with
    | some t => t.replied none
    | none => s.faultAccess .hostBusError
  | some (.gaps j) => ({ s with gaps := Mem.write s.gaps j v }).replied none
  | _ => s.faultAccess .hostBusError

/-- A host access while `BUSY = 0`. -/
def State.idleAccess (s : State) : HostOp → State
  | .read8 a => s.hostRead8 a
  | .write8 a v => s.hostWrite8 a v
  | .read32 a => s.hostRead32 a
  | .write32 a v => s.hostWrite32 a v

/-- The `STATUS` read, the one access that is legal while `BUSY = 1` (R240). -/
def statusRead : HostOp := .read32 (BitVec.ofNat 32 (Reg.offset .status))

/-- A host access (R62, R240). While `BUSY = 1` any access but `HostRead32` of `STATUS` records
HostAccessWhileBusy, also one that is illegal in another way (log entry 5). -/
def State.hostAccess (s : State) (op : HostOp) : State :=
  if s.status.busy then
    if op = statusRead then s.replied (some (.word s.status.toWord))
    else s.faultAccess .hostAccessWhileBusy
  else s.idleAccess op

end Sys2Proof.Machine
end

