-- ==== Sys2Proof/Machine/Step.lean ====
section
/-! DEFINITION. One step of the core and its host: the next move of State.moves (R19, R220). -/

namespace Sys2Proof.Machine

/-- A turn of the engine: it runs the pending command (R200); with none pending it has no step (R19). -/
def engineStep (s : State) : Host.Outcome State Fault Refusal :=
  match s.pending with
  | some w => exec (decode w) s
  | none => .next s

/-- One step. A host access, a reset and a turn of the engine are each one move. `wait` (R87) holds
while `BUSY = 1`, the engine taking its step, and then reads `STATUS`. When no move is left, a pending
command still runs (R220, R245), and an idle core stays as it is (log entry 3). -/
def step (s : State) : Host.Outcome State Fault Refusal :=
  match s.moves with
  | [] => engineStep s
  | .engine :: ms => engineStep (s.withMoves ms)
  | .access op :: ms => .next ((s.withMoves ms).hostAccess op)
  | .reset :: ms => .next (s.withMoves ms).hostReset
  | .wait :: ms =>
    if s.status.busy then engineStep s else .next ((s.withMoves ms).hostAccess statusRead)

/-- `s` with a command pending and the engine's turn next, as a legal write of the command's word to
`CMD` leaves it (R200), so that the next step runs it (log entry 4). -/
def State.withFetchWord (s : State) (nbits w : Nat) : State :=
  (s.start (tableWord nbits w)).withMoves (.engine :: s.moves)

end Sys2Proof.Machine
end

