-- ==== Sys2Proof/Safety.lean ====
section
/-! DEFINITION. What counts as a good state and a safe run: the invariant of the reachable states, and the empty fault record. -/

namespace Sys2Proof.Machine

/-- The empty fault record (R39). -/
def FaultRecord.empty : FaultRecord :=
  { uninitRead := false, hostBusError := false, hostAccessWhileBusy := false }

/-- The premise of every claim about a run (R39): no model fault is recorded. -/
abbrev State.Clean (s : State) : Prop := s.faults = FaultRecord.empty

/-- The invariants the engine keeps on `STATUS` (R22), and no error code beyond 6 (R201). -/
abbrev Status.Ok (st : Status) : Prop :=
  (st.busy = true → st.done = false ∧ st.err = false ∧ st.errCode = 0) ∧
  (st.err = true ↔ st.errCode ≠ 0) ∧
  (st.err = true → st.done = true) ∧
  st.errCode.toNat ≤ 6

/-- What holds of every state a run reaches: the parameters meet R6 and R8; each memory is in
canonical form and within its capacity (R32); `STATUS` keeps R22; a command is pending exactly while
`BUSY = 1`, and the latch then holds what `CMD` holds (R37, R200); the bounds of R27 and R28. -/
abbrev State.Inv (s : State) : Prop :=
  s.cfg.Wf ∧
  Mem.wf s.bytes s.cfg.maxLen ∧
  Mem.wf s.gaps s.cfg.gapCap ∧
  Mem.wf s.packed s.cfg.packCap ∧
  s.status.Ok ∧
  s.latch = (if s.status.busy then some s.cmd else none) ∧
  s.zeroCount.toNat ≤ 8 * s.cfg.maxLen ∧
  s.packBits.toNat ≤ 8 * s.cfg.packCap

end Sys2Proof.Machine
end

