-- ==== Sys2Proof/Safety/Codes.lean ====
section
/-! DEFINITION. The words of the claims: bit-vectors, gap sequences and Golomb-Rice codes as plain lists, written from the spec without the machine. -/

namespace Sys2Proof.Claims

/-! ### Bit-vectors (R11, R60) -/

/-- The bits of a byte buffer, MSB-first in each byte, bytes in ascending order (R11, R60). -/
def bitsOf (src : List Byte) : List Bool :=
  src.flatMap fun v => (List.range 8).map fun j => v.getLsbD (7 - j)

/-- The byte whose bits are those with stream indices `8i` to `8i + 7` of a bit list, 0 where the list
has ended (R12, R114). -/
def byteAt (bits : List Bool) (i : Nat) : Byte :=
  (List.range 8).foldl (fun v j => (v <<< 1) ||| (BitVec.ofBool (bits.getD (8 * i + j) false)).setWidth 8) 0

/-- A bit list as bytes, the last one padded with zeros (R114, R163). -/
def packBits (bits : List Bool) : List Byte :=
  (List.range ((bits.length + 7) / 8)).map (byteAt bits)

/-- A list of naturals as words (R14). -/
def words (l : List Nat) : List Word := l.map (BitVec.ofNat 32)

/-! ### Gap sequences (R17, R134) -/

/-- The 1-indexed positions of the 1 bits (R12). -/
def onePositions (bits : List Bool) : List Nat :=
  ((List.range bits.length).filter fun t => bits.getD t false).map (· + 1)

/-- `[p_1, p_2 - p_1, ..., p_n - p_(n-1)]` (R134). -/
def differences (ps : List Nat) : List Nat := List.zipWith (· - ·) ps (0 :: ps)

/-- The gap-length sequence of a byte buffer (R134): the differences of the positions of the 1 bits of
`src ++ [0xFF]`. -/
def gapsOf (src : List Byte) : List Nat := differences (onePositions (bitsOf (src ++ [0xFF])))

/-- The cumulative positions of a gap sequence, from the position `p` on (R143). -/
def positionsFrom (p : Nat) : List Nat → List Nat
  | [] => []
  | v :: g => (p + v) :: positionsFrom (p + v) g

/-- The cumulative positions of a gap sequence (R143). -/
def positionsOf (g : List Nat) : List Nat := positionsFrom 0 g

/-- A gap sequence that R143 decodes: no entry is 0 (R142), the last position does not exceed the bound
(R145) and is a multiple of 8, and the last byte touched has all its bits set (R144). -/
abbrev Decodable (maxLen : Nat) (g : List Nat) : Prop :=
  g ≠ [] ∧ (∀ v ∈ g, 1 ≤ v) ∧ g.sum ≤ 8 * (maxLen + 1) ∧ g.sum % 8 = 0 ∧
    ∀ j < 8, g.sum - j ∈ positionsOf g

/-- The byte buffer of a gap sequence (R143, R144): the bits at its positions are set, and the last
byte is stripped. -/
def bytesOf (g : List Nat) : List Byte :=
  packBits ((List.range (g.sum - 8)).map fun t => decide (t + 1 ∈ positionsOf g))

/-! ### Density (R152) -/

/-- `Z`, the number of 0 bits of a buffer. -/
def zeroBits (src : List Byte) : Nat := (bitsOf src).count false

/-- R152: `b` is the least natural `b >= 1` with `2 * Z^b <= N^b`. -/
abbrev IsLeastB (n z b : Nat) : Prop :=
  1 ≤ b ∧ 2 * z ^ b ≤ n ^ b ∧ ∀ c, 1 ≤ c → c < b → n ^ c < 2 * z ^ c

/-! ### Golomb-Rice codes (R162) -/

/-- A value in a field of `n` bits, most significant bit first (R113). -/
def fieldBits (n x : Nat) : List Bool := (List.range n).map fun i => x.testBit (n - 1 - i)

/-- The truncated binary code of a remainder `r`, `1 <= r <= b` (R162), with `k = ceil(log2 b)` and
`d = 2^k - b`. -/
def remainderCode (b r : Nat) : List Bool :=
  let k := Nat.clog 2 b
  let d := 2 ^ k - b
  if d < r then fieldBits k (r - 1 + d) else fieldBits (k - 1) (r - 1)

/-- The symbol of a value `v >= 1`: `q` one-bits, a zero-bit, the remainder's code (R162). -/
def symbolCode (b v : Nat) : List Bool :=
  List.replicate ((v - 1) / b) true ++ [false] ++ remainderCode b (v - (v - 1) / b * b)

/-- The stream of a gap sequence: the symbols of its entries, in order (R160). -/
def streamOf (b : Nat) (g : List Nat) : List Bool := g.flatMap (symbolCode b)

end Sys2Proof.Claims
end

