-- ==== Sys2Proof/Safety/Buffers.lean ====
section
/-! DEFINITION. The words of the claims about states: what buffers a state holds, and the spec's tables of what each command reads, writes, clears and may report. -/

namespace Sys2Proof.Claims

open Sys2Proof.Machine

/-! ### Buffers (R33) -/

/-- `BYTES` holds the byte buffer `src`, and `BYTE_LEN` is its length (R33). -/
abbrev HoldsBytes (s : State) (src : List Byte) : Prop :=
  s.byteLen.toNat = src.length ∧ ∀ i < src.length, Mem.read s.bytes i = src[i]?

/-- `GAPS` holds the gap sequence `g`, and `GAP_COUNT` is its length (R33). -/
abbrev HoldsGaps (s : State) (g : List Nat) : Prop :=
  s.gapCount.toNat = g.length ∧ (∀ v ∈ g, v < 2 ^ 32) ∧ ∀ i < g.length, Mem.read s.gaps i = (words g)[i]?

/-- `PACKED` holds the bytes `ps`, and `PACK_LEN` is their number (R33). -/
abbrev HoldsPacked (s : State) (ps : List Byte) : Prop :=
  s.packLen.toNat = ps.length ∧ ∀ i < ps.length, Mem.read s.packed i = ps[i]?

/-- `m` is `m0` with the cells from 0 on written with the list, every other cell as it was (R34). -/
def Wrote {n : Nat} (m m0 : Mem n) (vs : List (BitVec n)) : Prop :=
  ∀ i, Mem.read m i = (vs[i]?).or (Mem.read m0 i)

/-- `STATUS` after success: 0x0000_0002 (R202). -/
def succeeded : Status := { busy := false, done := true, err := false, errCode := 0 }

/-- `STATUS` after the error with this code: `0x2 | 0x4 | (c << 4)` (R202). -/
def failedWith (c : BitVec 4) : Status := { busy := false, done := true, err := true, errCode := c }

/-- `STATUS` while a command is pending: 0x0000_0001 (R200). -/
def runningStatus : Status := { busy := true, done := false, err := false, errCode := 0 }

/-! ### The table entry (R100, R102) -/

/-- The entry of a byte: the gaps of its 1 bits, then, where its last bit is 0, the length of the zero
run at its end and the flag 0 (R100). -/
def tableEntry (v : Byte) : List Nat :=
  differences (onePositions (bitsOf [v]))
    ++ if v.getLsbD 0 then [] else [8 - (onePositions (bitsOf [v])).getLastD 0, 0]

/-! ### The tables of R81, R201 and R203 -/

/-- The registers and memories that commands write. -/
inductive Dest where
  | bytes | gaps | packed | byteLen | gapCount | packLen | bParam | zeroCount | packBits
deriving DecidableEq, Repr

/-- R81's column "writes"; an illegal word writes none of them (R182). -/
def writesOf : Instr → List Dest
  | .rltLookup _ => [.gaps, .gapCount]
  | .rleEnc => [.gaps, .gapCount]
  | .rleDec => [.bytes, .byteLen]
  | .density => [.bParam, .zeroCount]
  | .grEnc => [.packed, .packLen, .packBits]
  | .grDec => [.gaps, .gapCount]
  | .golombEnc => [.bParam, .zeroCount, .gaps, .gapCount, .packed, .packLen, .packBits]
  | .golombDec => [.gaps, .gapCount, .bytes, .byteLen]
  | .illegal _ => []

/-- `t` is as `s` in every register and memory that is not in the list. -/
abbrev SameOutside (ds : List Dest) (s t : State) : Prop :=
  (.bytes ∉ ds → t.bytes = s.bytes) ∧ (.gaps ∉ ds → t.gaps = s.gaps) ∧
  (.packed ∉ ds → t.packed = s.packed) ∧ (.byteLen ∉ ds → t.byteLen = s.byteLen) ∧
  (.gapCount ∉ ds → t.gapCount = s.gapCount) ∧ (.packLen ∉ ds → t.packLen = s.packLen) ∧
  (.bParam ∉ ds → t.bParam = s.bParam) ∧ (.zeroCount ∉ ds → t.zeroCount = s.zeroCount) ∧
  (.packBits ∉ ds → t.packBits = s.packBits)

/-- R203: the destination memories of the command all unwritten, its destination registers 0. -/
def cleared (s : State) : Instr → State
  | .rltLookup _ => { s with gaps := [], gapCount := 0 }
  | .rleEnc => { s with gaps := [], gapCount := 0 }
  | .rleDec => { s with bytes := [], byteLen := 0 }
  | .density => { s with bParam := 0, zeroCount := 0 }
  | .grEnc => { s with packed := [], packLen := 0, packBits := 0 }
  | .grDec => { s with gaps := [], gapCount := 0 }
  | .golombEnc =>
    { s with gaps := [], packed := [], gapCount := 0, bParam := 0, zeroCount := 0, packLen := 0, packBits := 0 }
  | .golombDec => { s with gaps := [], bytes := [], gapCount := 0, byteLen := 0 }
  | .illegal _ => s

/-- The state after the error with code `c` in the command `i` (R202, R203). -/
def afterError (s : State) (i : Instr) (c : BitVec 4) : State :=
  { cleared s i with status := failedWith c, latch := none }

/-- R201's column "raised by": the error codes a command may end with. -/
def codesOf : Instr → List (BitVec 4)
  | .rltLookup _ => []
  | .rleEnc => [2]
  | .rleDec => [2, 4]
  | .density => [2, 3]
  | .grEnc => [1, 2, 4, 5]
  | .grDec => [2, 4, 5]
  | .golombEnc => [1, 2, 3]
  | .golombDec => [2, 4, 5]
  | .illegal _ => [6]

/-- R81's column "reads": the two states agree on everything the command reads, in the parameters, and in
the number that names the free values of unwritten cells. -/
def AgreeOnSources (s s' : State) (i : Instr) : Prop :=
  s.cfg = s'.cfg ∧ s.freeSeed = s'.freeSeed ∧
  match i with
  | .rltLookup _ => True
  | .rleEnc | .density | .golombEnc =>
    s.byteLen = s'.byteLen ∧ ∀ j < s.byteLen.toNat, Mem.read s.bytes j = Mem.read s'.bytes j
  | .rleDec =>
    s.gapCount = s'.gapCount ∧ ∀ j < s.gapCount.toNat, Mem.read s.gaps j = Mem.read s'.gaps j
  | .grEnc =>
    s.bParam = s'.bParam ∧ s.gapCount = s'.gapCount ∧
      ∀ j < s.gapCount.toNat, Mem.read s.gaps j = Mem.read s'.gaps j
  | .grDec | .golombDec =>
    s.bParam = s'.bParam ∧ s.packLen = s'.packLen ∧
      ∀ j < s.packLen.toNat, Mem.read s.packed j = Mem.read s'.packed j
  | .illegal _ => True

/-- The two states agree on `STATUS` and on everything in the list: registers whole, memories below the
length that goes with them (R33). -/
def AgreeOnResults (t t' : State) (ds : List Dest) : Prop :=
  t.status = t'.status ∧
  (.byteLen ∈ ds → t.byteLen = t'.byteLen) ∧ (.gapCount ∈ ds → t.gapCount = t'.gapCount) ∧
  (.packLen ∈ ds → t.packLen = t'.packLen) ∧ (.bParam ∈ ds → t.bParam = t'.bParam) ∧
  (.zeroCount ∈ ds → t.zeroCount = t'.zeroCount) ∧ (.packBits ∈ ds → t.packBits = t'.packBits) ∧
  (.bytes ∈ ds → ∀ j < t.byteLen.toNat, Mem.read t.bytes j = Mem.read t'.bytes j) ∧
  (.gaps ∈ ds → ∀ j < t.gapCount.toNat, Mem.read t.gaps j = Mem.read t'.gaps j) ∧
  (.packed ∈ ds → ∀ j < t.packLen.toNat, Mem.read t.packed j = Mem.read t'.packed j)

/-- A command passes its length checks and then reads a cell that is unwritten (R15, R67). -/
def ReadsUnwritten (s : State) : Instr → Prop
  | .rltLookup _ => False
  | .rleEnc | .density | .golombEnc =>
    s.byteLen.toNat ≤ s.cfg.maxLen ∧ ∃ j < s.byteLen.toNat, Mem.read s.bytes j = none
  | .rleDec =>
    s.gapCount.toNat ≤ s.cfg.gapCap ∧ ∃ j < s.gapCount.toNat, Mem.read s.gaps j = none
  | .grEnc =>
    s.gapCount.toNat ≤ s.cfg.gapCap ∧ s.bParam ≠ 0 ∧ ∃ j < s.gapCount.toNat, Mem.read s.gaps j = none
  | .grDec | .golombDec =>
    s.packLen.toNat ≤ s.cfg.packCap ∧ s.bParam ≠ 0 ∧ ∃ j < s.packLen.toNat, Mem.read s.packed j = none
  | .illegal _ => False

/-- R83's three cases of an illegal command word. -/
abbrev IllegalWord (w : Word) : Prop :=
  (w.extractLsb' 0 4 = 0 ∨ 9 ≤ (w.extractLsb' 0 4).toNat) ∨
  (w.extractLsb' 4 4 ≠ 0 ∨ w.extractLsb' 16 16 ≠ 0) ∨
  (w.extractLsb' 0 4 ≠ 1 ∧ w.extractLsb' 8 8 ≠ 0)

/-! ### Host accesses (R61, R62, R64) -/

/-- The access is not legal by R61 and R64 (the busy window apart): no window of its width holds its
address, or it is misaligned, or it writes a read-only register. -/
def BadAccess (cfg : Config) : HostOp → Prop
  | .read8 a | .write8 a _ =>
    ¬ (0x10000000 ≤ a.toNat ∧ a.toNat < 0x10000000 + cfg.maxLen) ∧
    ¬ (0x20000000 ≤ a.toNat ∧ a.toNat < 0x20000000 + cfg.packCap)
  | .read32 a =>
    a.toNat % 4 ≠ 0 ∨
    (0x28 < a.toNat ∧ ¬ (0x40000000 ≤ a.toNat ∧ a.toNat < 0x40000000 + 4 * cfg.gapCap))
  | .write32 a _ =>
    a.toNat % 4 ≠ 0 ∨
    (0x28 < a.toNat ∧ ¬ (0x40000000 ≤ a.toNat ∧ a.toNat < 0x40000000 + 4 * cfg.gapCap)) ∨
    a.toNat ∈ [0x04, 0x18, 0x1C, 0x20, 0x24, 0x28]

/-- The access is a write to `CMD` (R65). -/
def IsCmdWrite : HostOp → Prop
  | .write32 a _ => a = 0
  | _ => False

end Sys2Proof.Claims
end

