-- ==== Sys2Proof/Certificates/Slice0/Obligations.lean ====
section
/-! DEFINITION. The statements for the provers, from the numbered rules of spec/. -/

open Sys2Proof Sys2Proof.Machine Sys2Proof.Claims

/-! ### Command words (R80 to R84) -/

/-- R82, R83: words written out from the spec, and the commands they are. -/
def Obligations.SpecWordsDecode : Prop :=
  decode 0x00000001 = .rltLookup 0x00 ∧ decode 0x0000FE01 = .rltLookup 0xFE ∧
  decode 0x00000002 = .rleEnc ∧ decode 0x00000003 = .rleDec ∧ decode 0x00000004 = .density ∧
  decode 0x00000005 = .grEnc ∧ decode 0x00000006 = .grDec ∧ decode 0x00000007 = .golombEnc ∧
  decode 0x00000008 = .golombDec ∧ decode 0x00000000 = .illegal 0x00000000 ∧
  decode 0x00000009 = .illegal 0x00000009 ∧ decode 0x00000012 = .illegal 0x00000012 ∧
  decode 0x00010002 = .illegal 0x00010002 ∧ decode 0x00000102 = .illegal 0x00000102 ∧
  decode 0x8000FE01 = .illegal 0x8000FE01

/-- R82, R86: the decoder reads back the word of every well-formed command. -/
def Obligations.DecodeOfEncode : Prop :=
  ∀ i : Instr, i.wellFormed = true → decode (encode i) = i

/-- R82 to R84: every word is a well-formed command, whose word it is. -/
def Obligations.EveryWordIsACommand : Prop :=
  ∀ w : Word, (decode w).wellFormed = true ∧ encode (decode w) = w

/-- R82: the decoder follows the match and mask of the opcode map. -/
def Obligations.DecodeFollowsMatchAndMask : Prop :=
  ∀ w : Word,
    (∀ v, decode w = .rltLookup v ↔ w &&& 0xFFFF00FF = 0x00000001 ∧ v = w.extractLsb' 8 8) ∧
    (decode w = .rleEnc ↔ w = 0x00000002) ∧ (decode w = .rleDec ↔ w = 0x00000003) ∧
    (decode w = .density ↔ w = 0x00000004) ∧ (decode w = .grEnc ↔ w = 0x00000005) ∧
    (decode w = .grDec ↔ w = 0x00000006) ∧ (decode w = .golombEnc ↔ w = 0x00000007) ∧
    (decode w = .golombDec ↔ w = 0x00000008) ∧
    (∀ u, decode w = .illegal u ↔ u = w ∧ w &&& 0xFFFF00FF ≠ 0x00000001 ∧ ¬ (2 ≤ w.toNat ∧ w.toNat ≤ 8))

/-- R83, R182: the illegal words are those of R83's three cases. Such a word starts a command like any
other, which ends with IllegalCommand (`STATUS = 0x66`) and changes nothing but `STATUS`; the word stays
in `CMD`. -/
def Obligations.IllegalWordsReportIllegalCommand : Prop :=
  ∀ w : Word,
    (decode w = .illegal w ↔ IllegalWord w) ∧
    (IllegalWord w → ∀ s : State,
      exec (decode w) s = .next { s with status := failedWith 6, latch := none } ∧
      (failedWith 6).toWord = 0x00000066 ∧
      ∀ ms, s.status.busy = false → s.moves = .access (.write32 0x00000000 w) :: .engine :: ms →
        ∃ s1, step s = .next s1 ∧ s1.status = runningStatus ∧
          step s1 = .next
            { s with cmd := w, reply := none, moves := ms, status := failedWith 6, latch := none })

/-! ### Steps of the engine (R19, R37, R200, R202 to R204) -/

/-- R19, R200: while a command is pending, a turn of the engine is `exec` of the decoded latched word, on
the state with that turn taken from the moves; with no move left, or while the host waits (R87), the
engine has the turn and the moves stay as they are. -/
def Obligations.StepRunsTheLatchedCommand : Prop :=
  ∀ (s : State) (w : Word), s.status.busy = true → s.latch = some w →
    (s.moves = [] → step s = exec (decode w) s) ∧
    (∀ ms, s.moves = .wait :: ms → step s = exec (decode w) s) ∧
    (∀ ms, s.moves = .engine :: ms → step s = exec (decode w) { s with moves := ms })

/-- R19: while `BUSY = 0` the engine has no step; its turn leaves everything as it is. That a state with
no move left and no command pending steps to itself is the model's choice (log entry 3). -/
def Obligations.IdleEngineHasNoStep : Prop :=
  ∀ s : State, s.status.busy = false →
    (s.moves = [] → step s = .next s) ∧
    (∀ ms, s.moves = .engine :: ms → step s = .next { s with moves := ms })

/-- R200, R65: a legal write of a word to `CMD` while `BUSY = 0` stores and latches it and sets `STATUS` to
0x0000_0001, and nothing else changes but the model's own fields; the engine's next turn runs that word's
command to its completion, after which none is pending. -/
def Obligations.CommandWriteStartsCommand : Prop :=
  ∀ (s : State) (w : Word) (ms : List Move), s.status.busy = false →
    s.moves = .access (.write32 0x00000000 w) :: ms →
    let s1 := { s with cmd := w, latch := some w, status := runningStatus, reply := none, moves := ms }
    step s = .next s1 ∧ runningStatus.toWord = 0x00000001 ∧
    ∀ ms', ms = .engine :: ms' →
      step s1 = exec (decode w) { s1 with moves := ms' } ∧
      ∃ t, step s1 = .next t ∧ t.status.busy = false ∧ t.latch = none

/-- R200, R202, R220: from every state every command is completed by its one step: the engine answers a
next state with `STATUS` 0x2 or `0x6 | (c << 4)`, no command pending, and `CMD`, the parameters and the
host's own fields as they were. -/
def Obligations.EveryCommandCompletesInOneStep : Prop :=
  ∀ (i : Instr) (s : State), ∃ t, exec i s = .next t ∧
    t.latch = none ∧ t.cmd = s.cmd ∧ t.cfg = s.cfg ∧ t.moves = s.moves ∧ t.reply = s.reply ∧
    ((t.status = succeeded ∧ t.status.toWord = 0x00000002) ∨
      ∃ c : BitVec 4, 1 ≤ c.toNat ∧ c.toNat ≤ 6 ∧ t.status = failedWith c ∧
        t.status.toWord = 0x00000006 ||| (c.setWidth 32 <<< 4))

/-- R203, R204, R202: a command that ends with an error leaves the state before it, changed only by the
table of R203 and by `STATUS`, with no command pending. An engine read of an unwritten cell, if there was
one, is in the fault record (R205); the free values' counter is the model's own. -/
def Obligations.ErrorsClearTheDestinationsOnly : Prop :=
  ∀ (i : Instr) (s t : State), exec i s = .next t → t.status.err = true →
    t = { afterError s i t.status.errCode with faults := t.faults, freeSeed := t.freeSeed } ∧
    (t.faults = s.faults ∨ t.faults = s.faults.add .uninitRead)

/-- R201: each command ends only with the error codes that its rows of R201 name; codes 7 to 15 are never
produced. -/
def Obligations.ErrorCodesStayWithTheirCommands : Prop :=
  ∀ (i : Instr) (s t : State), exec i s = .next t →
    t.status = succeeded ∨ ∃ c ∈ codesOf i, t.status = failedWith c

/-- R81, R67: a command writes only the registers and memories of its row of R81, besides `STATUS`; it
leaves `CMD`, the parameters and the host's own fields, and it records no fault but UninitRead. -/
def Obligations.CommandsWriteOnlyTheirRow : Prop :=
  ∀ (i : Instr) (s t : State), exec i s = .next t →
    SameOutside (writesOf i) s t ∧
    t.cmd = s.cmd ∧ t.cfg = s.cfg ∧ t.moves = s.moves ∧ t.reply = s.reply ∧ t.latch = none ∧
    t.faults.hostBusError = s.faults.hostBusError ∧
    t.faults.hostAccessWhileBusy = s.faults.hostAccessWhileBusy

/-- R81, R33, R67: a command reads only the registers of its row of R81 and the source cells below the
source length: two states that agree on these lead to the same `STATUS` and the same results. -/
def Obligations.CommandsReadOnlyTheirSources : Prop :=
  ∀ (i : Instr) (s s' t t' : State), AgreeOnSources s s' i →
    exec i s = .next t → exec i s' = .next t' → AgreeOnResults t t' (writesOf i)

/-- R34: a command that succeeds writes every destination cell below its new length and leaves every one at
or above it; a command that ends with an error leaves every destination cell unwritten. -/
def Obligations.SuccessWritesBelowTheNewLength : Prop :=
  ∀ (i : Instr) (s t : State), s.cfg.Wf → exec i s = .next t →
    (t.status.err = false →
      (.bytes ∈ writesOf i → ∀ j, (j < t.byteLen.toNat → (Mem.read t.bytes j).isSome) ∧
        (t.byteLen.toNat ≤ j → Mem.read t.bytes j = Mem.read s.bytes j)) ∧
      (.gaps ∈ writesOf i → ∀ j, (j < t.gapCount.toNat → (Mem.read t.gaps j).isSome) ∧
        (t.gapCount.toNat ≤ j → Mem.read t.gaps j = Mem.read s.gaps j)) ∧
      (.packed ∈ writesOf i → ∀ j, (j < t.packLen.toNat → (Mem.read t.packed j).isSome) ∧
        (t.packLen.toNat ≤ j → Mem.read t.packed j = Mem.read s.packed j))) ∧
    (t.status.err = true →
      (.bytes ∈ writesOf i → ∀ j, Mem.read t.bytes j = none) ∧
      (.gaps ∈ writesOf i → ∀ j, Mem.read t.gaps j = none) ∧
      (.packed ∈ writesOf i → ∀ j, Mem.read t.packed j = none))

/-- R15, R67, R241: a command records UninitRead exactly when it passes its length checks and reads a cell
that is unwritten; nothing else of the fault record changes. -/
def Obligations.UnwrittenSourceIsRecorded : Prop :=
  ∀ (i : Instr) (s t : State), exec i s = .next t →
    (ReadsUnwritten s i → t.faults = s.faults.add .uninitRead) ∧
    (¬ ReadsUnwritten s i → t.faults = s.faults)

/-! ### Invariants of the machine (R22, R27 to R29, R32, R37, R39) -/

/-- Every step keeps the invariant of Safety.lean: the memories canonical and within their capacities
(R32), `STATUS` as R22 says, the latch as R37 and R200 say, and the bounds of R27 and R28. -/
def Obligations.EveryStepKeepsTheInvariant : Prop :=
  ∀ s t : State, s.Inv → step s = .next t → t.Inv

/-- The power-on state meets the invariant and has an empty fault record (R40, R39). -/
def Obligations.PowerOnMeetsTheInvariant : Prop :=
  State.reset.Inv ∧ State.reset.Clean

/-- R39, R210: no step removes a model fault from the record, a reset included. -/
def Obligations.FaultRecordNeverShrinks : Prop :=
  ∀ (s t : State) (f : Fault), step s = .next t → s.faults.has f = true → t.faults.has f = true

/-- Every step answers a next state. R39 and R210 say that a model fault is recorded; that no step answers a
fault is DEDUCED from them (log entry 17), and that an idle state with no move left, where R19 gives the
engine no step, answers itself is the model's DESIGN CHOICE (log entry 3). -/
def Obligations.EveryStepAnswersANextState : Prop :=
  ∀ s : State, ∃ t, step s = .next t

/-- R29: the capability registers always read `MAX_LEN`, `GAP_CAP` and `PACK_CAP`, which no step changes,
a reset included; a write of one of them is not legal, and changes only the fault record. -/
def Obligations.CapabilitiesAreConstant : Prop :=
  (∀ s t : State, step s = .next t → t.cfg = s.cfg) ∧
  ∀ (s : State) (ms : List Move), s.status.busy = false →
    (s.moves = .access (.read32 0x00000020) :: ms →
      step s = .next { s with moves := ms, reply := some (.word (BitVec.ofNat 32 s.cfg.maxLen)) }) ∧
    (s.moves = .access (.read32 0x00000024) :: ms →
      step s = .next { s with moves := ms, reply := some (.word (BitVec.ofNat 32 (8 * s.cfg.maxLen + 8))) }) ∧
    (s.moves = .access (.read32 0x00000028) :: ms →
      step s = .next { s with moves := ms, reply := some (.word (BitVec.ofNat 32 s.cfg.packCap)) }) ∧
    (∀ a ∈ [(0x20 : Word), 0x24, 0x28], ∀ v, s.moves = .access (.write32 a v) :: ms →
      step s = .next { s with moves := ms, reply := none, faults := s.faults.add .hostBusError })

/-! ### Host accesses and reset (R61 to R66, R87, R230, R240) -/

/-- R240: while `BUSY = 1`, `HostRead32` of `STATUS` returns its word and changes nothing; any other access
records HostAccessWhileBusy, returns nothing and has no other effect. The window opens at a `CMD` write and
closes at the completion of every command. That an access which is illegal in a second way too, for which
R62 and R210 would ask HostBusError, records HostAccessWhileBusy only is DEDUCED from R240 (log entry 5). -/
def Obligations.BusyWindowAllowsOnlyStatusReads : Prop :=
  (∀ (s : State) (op : HostOp) (ms : List Move), s.status.busy = true → s.moves = .access op :: ms →
    (op = .read32 0x00000004 →
      step s = .next { s with moves := ms, reply := some (.word s.status.toWord) }) ∧
    (op ≠ .read32 0x00000004 →
      step s = .next { s with moves := ms, reply := none, faults := s.faults.add .hostAccessWhileBusy })) ∧
  (∀ (s : State) (w : Word) (ms : List Move), s.status.busy = false →
    s.moves = .access (.write32 0x00000000 w) :: ms → ∃ t, step s = .next t ∧ t.status.busy = true) ∧
  (∀ (i : Instr) (s : State), ∃ t, exec i s = .next t ∧ t.status.busy = false)

/-- R62, R64: while `BUSY = 0`, an access outside the windows, of the wrong width, misaligned, to a
reserved offset or a write to a read-only register records HostBusError and changes nothing else; any
other access records no HostBusError. -/
def Obligations.IllegalAccessIsABusError : Prop :=
  ∀ (s : State) (op : HostOp) (ms : List Move), s.status.busy = false → s.moves = .access op :: ms →
    (BadAccess s.cfg op →
      step s = .next { s with moves := ms, reply := none, faults := s.faults.add .hostBusError }) ∧
    (¬ BadAccess s.cfg op →
      ∃ t, step s = .next t ∧ t.faults.hostBusError = s.faults.hostBusError)

/-- R63, R61: while `BUSY = 0`, a host write of a cell of `BYTES`, `PACKED` or `GAPS` writes that cell and
no other and changes no register, and a host read of the cell then returns the value. -/
def Obligations.CellWriteReadsBack : Prop :=
  ∀ (s : State) (i : Nat) (ms : List Move), s.cfg.Wf → s.status.busy = false →
    (∀ v : Byte, i < s.cfg.maxLen →
      s.moves = .access (.write8 (BitVec.ofNat 32 (0x10000000 + i)) v) ::
        .access (.read8 (BitVec.ofNat 32 (0x10000000 + i))) :: ms →
      ∃ s1 m, step s = .next s1 ∧ (∀ j, Mem.read m j = if j = i then some v else Mem.read s.bytes j) ∧
        step s1 = .next { s with bytes := m, moves := ms, reply := some (.byte v) }) ∧
    (∀ v : Byte, i < s.cfg.packCap →
      s.moves = .access (.write8 (BitVec.ofNat 32 (0x20000000 + i)) v) ::
        .access (.read8 (BitVec.ofNat 32 (0x20000000 + i))) :: ms →
      ∃ s1 m, step s = .next s1 ∧ (∀ j, Mem.read m j = if j = i then some v else Mem.read s.packed j) ∧
        step s1 = .next { s with packed := m, moves := ms, reply := some (.byte v) }) ∧
    (∀ v : Word, i < s.cfg.gapCap →
      s.moves = .access (.write32 (BitVec.ofNat 32 (0x40000000 + 4 * i)) v) ::
        .access (.read32 (BitVec.ofNat 32 (0x40000000 + 4 * i))) :: ms →
      ∃ s1 m, step s = .next s1 ∧ (∀ j, Mem.read m j = if j = i then some v else Mem.read s.gaps j) ∧
        step s1 = .next { s with gaps := m, moves := ms, reply := some (.word v) })

/-- R63: while `BUSY = 0`, a legal host read of an unwritten cell records UninitRead, returns nothing and
changes nothing else. -/
def Obligations.UnwrittenCellReadIsUninitRead : Prop :=
  ∀ (s : State) (i : Nat) (ms : List Move), s.cfg.Wf → s.status.busy = false →
    (i < s.cfg.maxLen → Mem.read s.bytes i = none →
      s.moves = .access (.read8 (BitVec.ofNat 32 (0x10000000 + i))) :: ms →
      step s = .next { s with moves := ms, reply := none, faults := s.faults.add .uninitRead }) ∧
    (i < s.cfg.packCap → Mem.read s.packed i = none →
      s.moves = .access (.read8 (BitVec.ofNat 32 (0x20000000 + i))) :: ms →
      step s = .next { s with moves := ms, reply := none, faults := s.faults.add .uninitRead }) ∧
    (i < s.cfg.gapCap → Mem.read s.gaps i = none →
      s.moves = .access (.read32 (BitVec.ofNat 32 (0x40000000 + 4 * i))) :: ms →
      step s = .next { s with moves := ms, reply := none, faults := s.faults.add .uninitRead })

/-- R64, R20: while `BUSY = 0`, a host read of a register returns its value and changes nothing; a host
write of a read/write register other than `CMD` stores all 32 bits and changes nothing else. -/
def Obligations.RegisterWindowReadsAndWrites : Prop :=
  ∀ (s : State) (ms : List Move), s.status.busy = false →
    (∀ p ∈ [((0x00 : Word), s.cmd), (0x04, s.status.toWord), (0x08, s.byteLen), (0x0C, s.gapCount),
        (0x10, s.packLen), (0x14, s.bParam), (0x18, s.zeroCount), (0x1C, s.packBits)],
      s.moves = .access (.read32 p.1) :: ms →
      step s = .next { s with moves := ms, reply := some (.word p.2) }) ∧
    (∀ v, s.moves = .access (.write32 0x08 v) :: ms →
      step s = .next { s with moves := ms, reply := none, byteLen := v }) ∧
    (∀ v, s.moves = .access (.write32 0x0C v) :: ms →
      step s = .next { s with moves := ms, reply := none, gapCount := v }) ∧
    (∀ v, s.moves = .access (.write32 0x10 v) :: ms →
      step s = .next { s with moves := ms, reply := none, packLen := v }) ∧
    (∀ v, s.moves = .access (.write32 0x14 v) :: ms →
      step s = .next { s with moves := ms, reply := none, bParam := v })

/-- R65: every host access but a write to `CMD` is idempotent: made twice in a row, its second time leaves
the state its first time left. -/
def Obligations.RepeatedAccessIsIdempotent : Prop :=
  ∀ (s : State) (op : HostOp) (ms : List Move), ¬ IsCmdWrite op → s.moves = .access op :: .access op :: ms →
    ∃ t, step s = .next t ∧ t.moves = .access op :: ms ∧ step t = .next { t with moves := ms }

/-- R230, R40: the reset input, at any time, sets every register to 0, makes every cell unwritten and leaves
no command pending; the fault record is kept, and the parameters, with them the capability registers. That
the moves to come and the free values' counter are kept is the model's own (log entries 14, 18). -/
def Obligations.ResetInputClearsTheCore : Prop :=
  ∀ (s : State) (ms : List Move), s.moves = .reset :: ms →
    step s = .next
      { cfg := s.cfg, cmd := 0, status := { busy := false, done := false, err := false, errCode := 0 },
        byteLen := 0, gapCount := 0, packLen := 0, bParam := 0, zeroCount := 0, packBits := 0,
        bytes := [], gaps := [], packed := [], latch := none, faults := s.faults, reply := none,
        moves := ms, freeSeed := s.freeSeed }

/-- R87: `wait` holds until the engine has taken its step, and ends with a `STATUS` read that returns
`BUSY = 0`. -/
def Obligations.WaitEndsAfterTheCommand : Prop :=
  ∀ (s : State) (w : Word) (ms : List Move), s.status.busy = true → s.latch = some w → s.moves = .wait :: ms →
    ∃ t, step s = .next t ∧ exec (decode w) s = .next t ∧ t.status.busy = false ∧
      (t.status.toWord).getLsbD 0 = false ∧
      step t = .next { t with moves := ms, reply := some (.word t.status.toWord) }

/-! ### RLT_LOOKUP (R100 to R102) -/

/-- R101, R102, R100: RLT_LOOKUP writes the entry of its byte, the flag included, into `GAPS` and its length
into `GAP_COUNT`, succeeds, and changes nothing else; the entry has R102's properties. -/
def Obligations.RltLookupCopiesTheTableEntry : Prop :=
  ∀ (v : Byte) (s : State),
    let e := tableEntry v
    (∃ m, exec (.rltLookup v) s = .next
        { s with gaps := m, gapCount := BitVec.ofNat 32 e.length, status := succeeded, latch := none } ∧
      Wrote m s.gaps (words e)) ∧
    e.sum = 8 ∧ 1 ≤ e.length ∧ e.length ≤ 9 ∧
    e.length = (bitsOf [v]).count true + 2 * (1 - (v.getLsbD 0).toNat) ∧
    (∀ j, e[j]? = some 0 ↔ v.getLsbD 0 = false ∧ j + 1 = e.length) ∧
    (∀ x ∈ e, x ≤ 8) ∧ 1 ≤ e.headD 0 ∧
    (e.length = 9 ↔ v = 0xFE) ∧ ((∀ x ∈ e, x = 1) ↔ v = 0xFF)

/-! ### RLE_ENC (R130 to R136) -/

/-- R130, R132 to R134: from a state that holds a byte buffer within the bound, RLE_ENC writes the gaps
between the 1 bits of the buffer and its sentinel byte, succeeds, and changes nothing else. -/
def Obligations.RleEncWritesTheGapsOfTheOnes : Prop :=
  ∀ (s : State) (src : List Byte), HoldsBytes s src → src.length ≤ s.cfg.maxLen →
    ∃ m, exec .rleEnc s = .next
        { s with gaps := m, gapCount := BitVec.ofNat 32 (gapsOf src).length, status := succeeded, latch := none } ∧
      Wrote m s.gaps (words (gapsOf src))

/-- R134: the encoder's output is the differences of the positions of the 1 bits, and its consequences
(a) to (d). -/
def Obligations.GapSequenceClosedForm : Prop :=
  ∀ (src : List Byte) (cfg : Config), cfg.Wf → src.length ≤ cfg.maxLen →
    let out := rleEncode src
    out = differences (onePositions (bitsOf (src ++ [0xFF]))) ∧
    out.length = (bitsOf src).count true + 8 ∧
    out.length ≤ 8 * src.length + 8 ∧ 8 * src.length + 8 ≤ cfg.gapCap ∧
    (∀ v ∈ out, 1 ≤ v ∧ v ≤ 8 * src.length + 1) ∧ 8 * src.length + 1 < 2 ^ 28 ∧
    out.sum = 8 * (src.length + 1) ∧
    (onePositions (bitsOf (src ++ [0xFF]))).getLast? = some (8 * (src.length + 1)) ∧
    out.drop (out.length - 7) = [1, 1, 1, 1, 1, 1, 1]

/-- R135: RLE_ENC of a buffer of `n` zero bytes writes the one gap `8n + 1` and seven entries 1. -/
def Obligations.ZeroBufferIsOneLongGap : Prop :=
  ∀ (s : State) (n : Nat), HoldsBytes s (List.replicate n 0x00) → n ≤ s.cfg.maxLen →
    ∃ m, exec .rleEnc s = .next { s with gaps := m, gapCount := 8, status := succeeded, latch := none } ∧
      Wrote m s.gaps (words ((8 * n + 1) :: List.replicate 7 1))

/-- R131, R151: `BYTE_LEN > MAX_LEN` is InputTooLarge for RLE_ENC, DENSITY and GOLOMB_ENC, before any cell
is read (no fault is recorded, whatever is unwritten) and before any other error. -/
def Obligations.ByteLengthOverTheBoundIsRejected : Prop :=
  ∀ s : State, s.cfg.maxLen < s.byteLen.toNat →
    exec .rleEnc s = .next { s with gaps := [], gapCount := 0, status := failedWith 2, latch := none } ∧
    exec .density s = .next { s with bParam := 0, zeroCount := 0, status := failedWith 2, latch := none } ∧
    exec .golombEnc s = .next
      { s with gaps := [], gapCount := 0, bParam := 0, zeroCount := 0, packed := [], packLen := 0,
               packBits := 0, status := failedWith 2, latch := none }

/-! ### RLE_DEC (R140 to R146) -/

/-- R141: RLE_DEC checks `GAP_COUNT > GAP_CAP` first, giving InputTooLarge, and `GAP_COUNT = 0` second,
giving MalformedStream, both before any cell is read. -/
def Obligations.RleDecChecksTheCountFirst : Prop :=
  ∀ s : State,
    (s.cfg.gapCap < s.gapCount.toNat →
      exec .rleDec s = .next { s with bytes := [], byteLen := 0, status := failedWith 2, latch := none }) ∧
    (¬ s.cfg.gapCap < s.gapCount.toNat → s.gapCount = 0 →
      exec .rleDec s = .next { s with bytes := [], byteLen := 0, status := failedWith 4, latch := none })

/-- R140, R142 to R145: from a state that holds a gap sequence, RLE_DEC sets the bits at the sequence's
cumulative positions, strips the sentinel byte and succeeds, changing nothing else; a sequence with a 0
entry, a position over `8*(MAX_LEN+1)`, or no 0xFF at its end is MalformedStream. -/
def Obligations.RleDecRebuildsOrRejects : Prop :=
  ∀ (s : State) (g : List Nat), HoldsGaps s g → g.length ≤ s.cfg.gapCap →
    (Decodable s.cfg.maxLen g →
      ∃ m, exec .rleDec s = .next
          { s with bytes := m, byteLen := BitVec.ofNat 32 (bytesOf g).length, status := succeeded,
                   latch := none } ∧
        Wrote m s.bytes (bytesOf g)) ∧
    (¬ Decodable s.cfg.maxLen g →
      exec .rleDec s = .next { s with bytes := [], byteLen := 0, status := failedWith 4, latch := none })

/-- R146: RLE_DEC after RLE_ENC gives the byte buffer and its length back, whatever `BYTES` and `BYTE_LEN`
hold in between. -/
def Obligations.RunLengthRoundTrip : Prop :=
  ∀ (s : State) (src : List Byte) (m0 : Mem 8) (x : Word), s.cfg.Wf →
    HoldsBytes s src → src.length ≤ s.cfg.maxLen →
    ∃ t u, exec .rleEnc s = .next t ∧
      exec .rleDec { t with bytes := m0, byteLen := x } = .next u ∧
      u.status = succeeded ∧ HoldsBytes u src

/-! ### DENSITY (R150 to R155) -/

/-- R150, R152: from a state that holds a byte buffer within the bound with a 0 bit and a 1 bit, DENSITY
writes the least `b >= 1` with `2 * Z^b <= N^b` and `Z`, succeeds, and changes nothing else. -/
def Obligations.DensityWritesTheLeastB : Prop :=
  ∀ (s : State) (src : List Byte), s.cfg.Wf → HoldsBytes s src → src.length ≤ s.cfg.maxLen →
    0 < zeroBits src → zeroBits src < 8 * src.length →
    ∃ b, IsLeastB (8 * src.length) (zeroBits src) b ∧ b < 2 ^ 28 ∧
      exec .density s = .next
        { s with bParam := BitVec.ofNat 32 b, zeroCount := BitVec.ofNat 32 (zeroBits src),
                 status := succeeded, latch := none }

/-- R153: a buffer that is empty, has no 0 bit, or has no 1 bit is DegenerateDensity for DENSITY and for
GOLOMB_ENC. -/
def Obligations.DegenerateBuffersAreReported : Prop :=
  ∀ (s : State) (src : List Byte), HoldsBytes s src → src.length ≤ s.cfg.maxLen →
    (src = [] ∨ zeroBits src = 0 ∨ zeroBits src = 8 * src.length) →
    exec .density s = .next { s with bParam := 0, zeroCount := 0, status := failedWith 3, latch := none } ∧
    exec .golombEnc s = .next
      { s with gaps := [], gapCount := 0, bParam := 0, zeroCount := 0, packed := [], packLen := 0,
               packBits := 0, status := failedWith 3, latch := none }

/-- R152: a successful estimate is the source's formula `ceil(-ln 2 / ln p)`, with `p = Z/N`, in exact real
arithmetic. -/
def Obligations.EstimateIsTheCeilingOfTheLogRatio : Prop :=
  ∀ (src : List Byte) (b z : Nat), estimateB src = .ok (b, z) →
    z = zeroBits src ∧
    (b : ℤ) = ⌈-Real.log 2 / Real.log ((z : ℝ) / (8 * src.length : ℕ))⌉

/-- R154: every successful estimate is at least 1 and at most `ceil(N * ln 2)`, within `8*MAX_LEN < 2^28`, so
that a register holds it exactly; it is 1 exactly when at most half of the bits are 0. -/
def Obligations.EstimateIsInRange : Prop :=
  ∀ (src : List Byte) (cfg : Config) (b z : Nat), cfg.Wf → src.length ≤ cfg.maxLen →
    estimateB src = .ok (b, z) →
    1 ≤ b ∧ (b : ℤ) ≤ ⌈((8 * src.length : ℕ) : ℝ) * Real.log 2⌉ ∧
    b ≤ 8 * cfg.maxLen ∧ 8 * cfg.maxLen < 2 ^ 28 ∧ (BitVec.ofNat 32 b).toNat = b ∧
    (b = 1 ↔ 2 * z ≤ 8 * src.length)

/-! ### GR_ENC (R160 to R165) -/

/-- R160, R162, R163, R114: from a state that holds a gap sequence with no 0, and a `b >= 1`, whose symbols
fit `PACKED`, GR_ENC writes them MSB-first with zero padding, `PACK_BITS` and `PACK_LEN`, succeeds, and
changes nothing else. -/
def Obligations.GrEncPacksTheSymbols : Prop :=
  ∀ (s : State) (g : List Nat), HoldsGaps s g → g.length ≤ s.cfg.gapCap → g ≠ [] →
    (∀ v ∈ g, 1 ≤ v) → s.bParam ≠ 0 →
    let bits := streamOf s.bParam.toNat g
    bits.length ≤ 8 * s.cfg.packCap →
    ∃ m, exec .grEnc s = .next
        { s with packed := m, packBits := BitVec.ofNat 32 bits.length,
                 packLen := BitVec.ofNat 32 ((bits.length + 7) / 8), status := succeeded, latch := none } ∧
      Wrote m s.packed (packBits bits)

/-- R161, R163: GR_ENC's checks in their order: the count, `B_PARAM`, the empty sequence, all before any cell
is read; then, entry by entry, a 0 entry after symbols that fit is MalformedStream, and a symbol that does
not fit is AllocationFailure, whatever comes after it. -/
def Obligations.GrEncChecksInOrder : Prop :=
  ∀ s : State,
    (s.cfg.gapCap < s.gapCount.toNat → exec .grEnc s = .next (afterError s .grEnc 2)) ∧
    (¬ s.cfg.gapCap < s.gapCount.toNat → s.bParam = 0 → exec .grEnc s = .next (afterError s .grEnc 5)) ∧
    (s.bParam ≠ 0 → s.gapCount = 0 → exec .grEnc s = .next (afterError s .grEnc 4)) ∧
    (∀ g g' : List Nat, s.bParam ≠ 0 → (∀ v ∈ g, 1 ≤ v) → (g ++ 0 :: g').length ≤ s.cfg.gapCap →
      HoldsGaps s (g ++ 0 :: g') → (streamOf s.bParam.toNat g).length ≤ 8 * s.cfg.packCap →
      exec .grEnc s = .next (afterError s .grEnc 4)) ∧
    (∀ g g' : List Nat, s.bParam ≠ 0 → (∀ v ∈ g, 1 ≤ v) → (g ++ g').length ≤ s.cfg.gapCap →
      HoldsGaps s (g ++ g') → 8 * s.cfg.packCap < (streamOf s.bParam.toNat g).length →
      exec .grEnc s = .next (afterError s .grEnc 1))

/-- R165: for `b = 2^k`, GR_ENC writes every remainder as `r - 1` in exactly `k` bits. -/
def Obligations.PowerOfTwoRemaindersAreFixedWidth : Prop :=
  ∀ (s : State) (g : List Nat) (k : Nat), HoldsGaps s g → g.length ≤ s.cfg.gapCap → g ≠ [] →
    (∀ v ∈ g, 1 ≤ v) → s.bParam.toNat = 2 ^ k →
    let bits := g.flatMap fun v =>
      List.replicate ((v - 1) / 2 ^ k) true ++ [false] ++ fieldBits k ((v - 1) % 2 ^ k)
    bits.length ≤ 8 * s.cfg.packCap →
    ∃ m, exec .grEnc s = .next
        { s with packed := m, packBits := BitVec.ofNat 32 bits.length,
                 packLen := BitVec.ofNat 32 ((bits.length + 7) / 8), status := succeeded, latch := none } ∧
      Wrote m s.packed (packBits bits)

/-- R113, R116, R112: over the bytes that a `PutBits(n, x)` has written, with nothing set at or after its
start in the byte it starts in, `GetBits(n)` from the same position returns `x` and ends where it ended. -/
def Obligations.GetBitsReadsBackPutBits : Prop :=
  ∀ (cap n x lim : Nat) (w w' : Writer) (src : List Byte), x < 2 ^ n → w.cur.bitOff < 8 →
    (w.cur.bitOff ≠ 0 → ∃ v, Mem.read w.mem w.cur.byteOff = some v ∧
      ∀ j, w.cur.bitOff ≤ j → j < 8 → v.getLsbD (7 - j) = false) →
    putBits cap n x w = .ok w' →
    (∀ i, 8 * i < w'.cur.pos → w.cur.byteOff ≤ i → src[i]? = Mem.read w'.mem i) → w'.cur.pos ≤ lim →
    getBits src lim n w.cur = .ok (x, w'.cur)

/-! ### GR_DEC (R170 to R178) -/

/-- R171: GR_DEC and GOLOMB_DEC check `PACK_LEN > PACK_CAP`, then `B_PARAM = 0`, then `PACK_LEN = 0`, all
before any cell is read. -/
def Obligations.DecodersCheckInOrder : Prop :=
  ∀ (s : State) (i : Instr), i = .grDec ∨ i = .golombDec →
    (s.cfg.packCap < s.packLen.toNat → exec i s = .next (afterError s i 2)) ∧
    (¬ s.cfg.packCap < s.packLen.toNat → s.bParam = 0 → exec i s = .next (afterError s i 5)) ∧
    (s.bParam ≠ 0 → s.packLen = 0 → exec i s = .next (afterError s i 4))

/-- R172 to R174: from a state whose `PACKED` holds exactly the zero-padded symbols of a gap sequence, whose
sum is a multiple of 8 and within the bound, GR_DEC with the same `b` writes that sequence, succeeds, and
changes nothing else: it stops exactly at the end of the stream. -/
def Obligations.GrDecReadsTheSymbolsBack : Prop :=
  ∀ (s : State) (g : List Nat), g ≠ [] → (∀ v ∈ g, 1 ≤ v) → g.sum % 8 = 0 →
    g.sum ≤ 8 * (s.cfg.maxLen + 1) → s.bParam ≠ 0 →
    let ps := packBits (streamOf s.bParam.toNat g)
    HoldsPacked s ps → ps.length ≤ s.cfg.packCap →
    ∃ m, exec .grDec s = .next
        { s with gaps := m, gapCount := BitVec.ofNat 32 g.length, status := succeeded, latch := none } ∧
      Wrote m s.gaps (words g)

/-- R172, R173, R175: GR_DEC accepts no other stream. Where `PACKED` holds bytes that are not the zero-padded
symbols of a gap sequence whose sum is a multiple of 8 and within the bound, it is MalformedStream. -/
def Obligations.GrDecRejectsEveryOtherStream : Prop :=
  ∀ (s : State) (ps : List Byte), HoldsPacked s ps → ps.length ≤ s.cfg.packCap → s.bParam ≠ 0 →
    (¬ ∃ g : List Nat, g ≠ [] ∧ (∀ v ∈ g, 1 ≤ v) ∧ g.sum % 8 = 0 ∧ g.sum ≤ 8 * (s.cfg.maxLen + 1) ∧
      ps = packBits (streamOf s.bParam.toNat g)) →
    exec .grDec s = .next (afterError s .grDec 4)

/-- R176, R172: after a successful GR_DEC, `GAP_COUNT` is within `GAP_CAP`, and the entries below it are
written, each at least 1 and at most their sum, which is a multiple of 8 within `8*(MAX_LEN+1) <= 2^28`
(R176 writes `< 2^28`, which the largest MAX_LEN of R6 misses by one: log entry 22). -/
def Obligations.GrDecOutputIsBounded : Prop :=
  ∀ s t : State, s.cfg.Wf → exec .grDec s = .next t → t.status.err = false →
    ∃ g, HoldsGaps t g ∧ (∀ v ∈ g, 1 ≤ v ∧ v ≤ g.sum) ∧ g.sum ≤ 8 * (s.cfg.maxLen + 1) ∧
      8 * (s.cfg.maxLen + 1) ≤ 2 ^ 28 ∧ g.length ≤ g.sum ∧ g.length ≤ s.cfg.gapCap ∧ g.sum % 8 = 0

/-- R177: GR_DEC after a successful GR_ENC, with the same `b`, gives back every sequence with no 0 entry whose
sum is a multiple of 8 and within the bound, whatever `GAPS` and `GAP_COUNT` hold in between. -/
def Obligations.GolombRiceRoundTrip : Prop :=
  ∀ (s t : State) (g : List Nat) (m0 : Mem 32) (x : Word), s.cfg.Wf → HoldsGaps s g →
    (∀ v ∈ g, 1 ≤ v) → g.sum % 8 = 0 → g.sum ≤ 8 * (s.cfg.maxLen + 1) →
    exec .grEnc s = .next t → t.status.err = false →
    ∃ u, exec .grDec { t with gaps := m0, gapCount := x } = .next u ∧ u.status = succeeded ∧ HoldsGaps u g

/-- R117, R115: a stream of 1 bits up to the limit has no symbol: GR_DEC and GOLOMB_DEC report
MalformedStream, for every `b`. -/
def Obligations.UnaryRunToTheLimitIsMalformed : Prop :=
  ∀ (s : State) (n : Nat), 1 ≤ n → n ≤ s.cfg.packCap → HoldsPacked s (List.replicate n 0xFF) → s.bParam ≠ 0 →
    exec .grDec s = .next (afterError s .grDec 4) ∧ exec .golombDec s = .next (afterError s .golombDec 4)

/-! ### GOLOMB_ENC and GOLOMB_DEC (R180 to R185) -/

/-- R180, R183: from a state that holds a byte buffer within the bound with a 0 bit and a 1 bit, GOLOMB_ENC
writes the least `b` and `Z`, the gap sequence, and its packed symbols, succeeds, and changes nothing else,
where the symbols fit `PACKED`; where they do not, it is AllocationFailure. -/
def Obligations.GolombEncCompresses : Prop :=
  ∀ (s : State) (src : List Byte), s.cfg.Wf → HoldsBytes s src → src.length ≤ s.cfg.maxLen →
    0 < zeroBits src → zeroBits src < 8 * src.length →
    ∃ b, IsLeastB (8 * src.length) (zeroBits src) b ∧
      let bits := streamOf b (gapsOf src)
      (bits.length ≤ 8 * s.cfg.packCap →
        ∃ m m', exec .golombEnc s = .next
            { s with bParam := BitVec.ofNat 32 b, zeroCount := BitVec.ofNat 32 (zeroBits src),
                     gaps := m, gapCount := BitVec.ofNat 32 (gapsOf src).length,
                     packed := m', packBits := BitVec.ofNat 32 bits.length,
                     packLen := BitVec.ofNat 32 ((bits.length + 7) / 8), status := succeeded, latch := none } ∧
          Wrote m s.gaps (words (gapsOf src)) ∧ Wrote m' s.packed (packBits bits)) ∧
      (8 * s.cfg.packCap < bits.length → exec .golombEnc s = .next (afterError s .golombEnc 1))

/-- R181, R183: from a state whose `PACKED` holds the symbols of a gap sequence whose sum is a multiple of 8
and within the bound, GOLOMB_DEC writes that sequence and the byte buffer it decodes to, succeeds, and
changes nothing else; where the run-length stage rejects the sequence, it is MalformedStream. -/
def Obligations.GolombDecDecompressesOrRejects : Prop :=
  ∀ (s : State) (g : List Nat), g ≠ [] → (∀ v ∈ g, 1 ≤ v) → g.sum % 8 = 0 →
    g.sum ≤ 8 * (s.cfg.maxLen + 1) → s.bParam ≠ 0 →
    let ps := packBits (streamOf s.bParam.toNat g)
    HoldsPacked s ps → ps.length ≤ s.cfg.packCap →
    (Decodable s.cfg.maxLen g →
      ∃ m m', exec .golombDec s = .next
          { s with gaps := m, gapCount := BitVec.ofNat 32 g.length,
                   bytes := m', byteLen := BitVec.ofNat 32 (bytesOf g).length, status := succeeded,
                   latch := none } ∧
        Wrote m s.gaps (words g) ∧ Wrote m' s.bytes (bytesOf g)) ∧
    (¬ Decodable s.cfg.maxLen g → exec .golombDec s = .next (afterError s .golombDec 4))

/-- R184: GOLOMB_DEC after a successful GOLOMB_ENC gives the byte buffer and its length back, whatever
`BYTES`, `BYTE_LEN`, `GAPS` and `GAP_COUNT` hold in between. -/
def Obligations.GolombRoundTrip : Prop :=
  ∀ (s t : State) (src : List Byte) (m0 : Mem 8) (x : Word) (m1 : Mem 32) (y : Word), s.cfg.Wf →
    HoldsBytes s src → exec .golombEnc s = .next t → t.status.err = false →
    ∃ u, exec .golombDec { t with bytes := m0, byteLen := x, gaps := m1, gapCount := y } = .next u ∧
      u.status = succeeded ∧ HoldsBytes u src

/-- R185: on a written byte buffer, GOLOMB_ENC and the sequence DENSITY, RLE_ENC, GR_ENC reach the same state
where GOLOMB_ENC succeeds; where it fails, its code is the first error of the sequence. -/
def Obligations.GolombEncIsItsThreeStages : Prop :=
  ∀ (s : State) (src : List Byte), s.cfg.Wf → HoldsBytes s src →
    ∃ t s1 s2 s3, exec .golombEnc s = .next t ∧ exec .density s = .next s1 ∧ exec .rleEnc s1 = .next s2 ∧
      exec .grEnc s2 = .next s3 ∧
      (t.status.err = false → s1.status = succeeded ∧ s2.status = succeeded ∧ t = s3) ∧
      (t.status.err = true →
        (s1.status.err = true ∧ t.status.errCode = s1.status.errCode) ∨
        (s1.status.err = false ∧ s2.status.err = false ∧ s3.status.err = true ∧
          t.status.errCode = s3.status.errCode))

/-- R185: on a written packed stream, GOLOMB_DEC and the sequence GR_DEC, RLE_DEC reach the same state where
GOLOMB_DEC succeeds; where it fails, its code is the first error of the sequence. -/
def Obligations.GolombDecIsItsTwoStages : Prop :=
  ∀ (s : State) (ps : List Byte), s.cfg.Wf → HoldsPacked s ps →
    ∃ t s1 s2, exec .golombDec s = .next t ∧ exec .grDec s = .next s1 ∧ exec .rleDec s1 = .next s2 ∧
      (t.status.err = false → s1.status = succeeded ∧ t = s2) ∧
      (t.status.err = true →
        (s1.status.err = true ∧ t.status.errCode = s1.status.errCode) ∨
        (s1.status.err = false ∧ s2.status.err = true ∧ t.status.errCode = s2.status.errCode))
end

