-- ==== Sys2Proof/Laws/Bits.lean ====
section
/-! SUPPORT. Bytes and bit lists: MSB-first bits, packing, counting (R11, R12, R16, R60). -/

namespace Sys2Proof.Laws

open Sys2Proof.Machine Sys2Proof.Claims

/-! ### A byte by its bits -/

/-- Two bytes with the same bits, read MSB-first, are equal. -/
theorem byte_ext {u v : Byte} (h : ∀ j < 8, u.getLsbD (7 - j) = v.getLsbD (7 - j)) : u = v := by
  apply BitVec.eq_of_getLsbD_eq
  intro i hi
  have := h (7 - i) (by omega)
  rwa [show 7 - (7 - i) = i by omega] at this

/-- The bits of `byteAt`: bit `7 - j` is the bit with stream index `8i + j` (R12). -/
theorem getLsbD_byteAt (bits : List Bool) (i j : Nat) (hj : j < 8) :
    (byteAt bits i).getLsbD (7 - j) = bits.getD (8 * i + j) false := by
  simp only [byteAt, List.range_succ, List.range_zero, List.nil_append, List.foldl_append, List.foldl_cons,
    List.foldl_nil]
  have : j = 0 ∨ j = 1 ∨ j = 2 ∨ j = 3 ∨ j = 4 ∨ j = 5 ∨ j = 6 ∨ j = 7 := by omega
  rcases this with rfl | rfl | rfl | rfl | rfl | rfl | rfl | rfl <;>
    simp

/-- A byte with the bits of a list is `byteAt`. -/
theorem eq_byteAt {v : Byte} {bits : List Bool} {i : Nat}
    (h : ∀ j < 8, v.getLsbD (7 - j) = bits.getD (8 * i + j) false) : v = byteAt bits i :=
  byte_ext fun j hj => by rw [h j hj, getLsbD_byteAt _ _ _ hj]

@[simp] theorem length_packBits (bits : List Bool) : (packBits bits).length = (bits.length + 7) / 8 := by
  simp [packBits]

theorem getElem?_packBits (bits : List Bool) (i : Nat) :
    (packBits bits)[i]? = if 8 * i < bits.length then some (byteAt bits i) else none := by
  simp only [packBits, List.getElem?_map]
  by_cases h : 8 * i < bits.length
  · rw [if_pos h, List.getElem?_range (by omega)]; rfl
  · rw [if_neg h, List.getElem?_eq_none (by simp; omega)]; rfl

/-! ### The bits of a buffer -/

@[simp] theorem bitsOf_nil : bitsOf [] = [] := rfl

theorem bitsOf_cons (v : Byte) (src : List Byte) : bitsOf (v :: src) = byteBits v ++ bitsOf src := rfl

theorem bitsOf_append (src src' : List Byte) : bitsOf (src ++ src') = bitsOf src ++ bitsOf src' := by
  simp [bitsOf]

@[simp] theorem length_byteBits (v : Byte) : (byteBits v).length = 8 := by simp [byteBits]

@[simp] theorem length_bitsOf (src : List Byte) : (bitsOf src).length = 8 * src.length := by
  induction src with
  | nil => rfl
  | cons v src ih => simp [bitsOf_cons, ih]; omega

theorem getElem?_byteBits (v : Byte) (j : Nat) (hj : j < 8) :
    (byteBits v)[j]? = some (v.getLsbD (7 - j)) := by
  simp [byteBits, hj]

/-- The bit of a buffer with stream index `t` (R12). -/
theorem getD_bitsOf (src : List Byte) (t : Nat) : (bitsOf src).getD t false = streamBit src t := by
  induction src generalizing t with
  | nil => simp [streamBit]
  | cons v src ih =>
    rw [bitsOf_cons]
    by_cases h : t < 8
    · have h0 : t / 8 = 0 := by omega
      have h1 : t % 8 = t := by omega
      rw [List.getD_eq_getElem?_getD, List.getElem?_append_left (by simpa using h),
        getElem?_byteBits v t h]
      simp [streamBit, h0, h1]
    · have h0 : t / 8 = (t - 8) / 8 + 1 := by omega
      have h1 : t % 8 = (t - 8) % 8 := by omega
      rw [List.getD_eq_getElem?_getD, List.getElem?_append_right (by simpa using h),
        ← List.getD_eq_getElem?_getD, length_byteBits, ih]
      simp [streamBit, h0, h1]

/-- Packing the bits of a buffer gives the buffer back. -/
theorem packBits_bitsOf (src : List Byte) : packBits (bitsOf src) = src := by
  apply List.ext_getElem?
  intro i
  rw [getElem?_packBits, length_bitsOf]
  by_cases h : i < src.length
  · rw [if_pos (by omega), List.getElem?_eq_getElem h]
    congr 1
    refine byte_ext fun j hj => ?_
    have h0 : (8 * i + j) / 8 = i := by omega
    have h1 : (8 * i + j) % 8 = j := by omega
    rw [getLsbD_byteAt _ _ _ hj, getD_bitsOf]
    simp [streamBit, h0, h1, h]
  · rw [if_neg (by omega), List.getElem?_eq_none (by omega)]

/-- The bits of packed bits: the list, then zeros (R114). -/
theorem streamBit_packBits (bits : List Bool) (t : Nat) : streamBit (packBits bits) t = bits.getD t false := by
  simp only [streamBit, List.getD_eq_getElem?_getD, getElem?_packBits]
  by_cases h : 8 * (t / 8) < bits.length
  · rw [if_pos h, Option.getD_some, getLsbD_byteAt _ _ _ (by omega),
      show 8 * (t / 8) + t % 8 = t by omega, List.getD_eq_getElem?_getD]
  · rw [if_neg h, List.getElem?_eq_none (by omega)]
    simp

/-! ### Counting (R16) -/

theorem popcount_le (v : Byte) : popcount v ≤ 8 := by
  simpa [popcount] using List.count_le_length (a := true) (l := byteBits v)

theorem count_true_bitsOf (src : List Byte) : (bitsOf src).count true = (src.map popcount).sum := by
  induction src with
  | nil => rfl
  | cons v src ih => simp [bitsOf_cons, ih, popcount]

/-- The zeros and the ones of a buffer are all its bits. -/
theorem zeroBits_add_ones (src : List Byte) : zeroBits src + (src.map popcount).sum = 8 * src.length := by
  rw [← count_true_bitsOf, zeroBits, ← length_bitsOf src]
  exact List.count_not_add_count (bitsOf src) true

end Sys2Proof.Laws
end

