-- ==== Sys2Proof/Laws/Mem.lean ====
section
/-! SUPPORT. What the memory operations do: reads after writes, the canonical form, and whole prefixes. -/

namespace Sys2Proof.Machine

variable {n : Nat}

/-! ### Reading one cell after a write -/

@[simp] theorem Mem.read_nil (i : Nat) : Mem.read ([] : Mem n) i = none := rfl

theorem Mem.read_cons (a : Nat) (v : BitVec n) (m : Mem n) (i : Nat) :
    Mem.read ((a, v) :: m) i = if i = a then some v else Mem.read m i := rfl

/-- A write is seen at its own cell and at no other, whatever form the memory has. -/
theorem Mem.read_write (m : Mem n) (i j : Nat) (v : BitVec n) :
    Mem.read (Mem.write m i v) j = if j = i then some v else Mem.read m j := by
  induction m with
  | nil => simp [Mem.write, Mem.read_cons]
  | cons p m ih =>
    obtain ⟨a, u⟩ := p
    simp only [Mem.write]
    split
    · simp only [Mem.read_cons]
    · split
      · subst_vars
        simp only [Mem.read_cons]
        split <;> rfl
      · simp only [Mem.read_cons, ih]
        split_ifs <;> first | rfl | omega

@[simp] theorem Mem.read_write_same (m : Mem n) (i : Nat) (v : BitVec n) :
    Mem.read (Mem.write m i v) i = some v := by simp [Mem.read_write]

theorem Mem.read_write_ne (m : Mem n) {i j : Nat} (v : BitVec n) (h : j ≠ i) :
    Mem.read (Mem.write m i v) j = Mem.read m j := by simp [Mem.read_write, h]

/-- What a block write leaves in each cell. -/
theorem Mem.read_writeList (vs : List (BitVec n)) (m : Mem n) (a i : Nat) :
    Mem.read (Mem.writeList m a vs) i = if a ≤ i then (vs[i - a]?).or (Mem.read m i) else Mem.read m i := by
  induction vs generalizing m a with
  | nil => simp [Mem.writeList]
  | cons v vs ih =>
    simp only [Mem.writeList, ih, Mem.read_write]
    rcases Nat.lt_trichotomy i a with h | h | h
    · have h1 : ¬ a + 1 ≤ i := by omega
      have h2 : ¬ a ≤ i := by omega
      have h3 : i ≠ a := by omega
      simp [h1, h2, h3]
    · subst h
      simp
    · have h1 : a + 1 ≤ i := by omega
      have h2 : a ≤ i := by omega
      have h3 : i ≠ a := by omega
      have h4 : i - a = (i - (a + 1)) + 1 := by omega
      simp only [h1, h2, h3, if_true, if_false]
      rw [h4, List.getElem?_cons_succ]

/-- A block write from cell 0 on: the list's cells, then the old ones (R34). -/
theorem Mem.read_writeList_zero (vs : List (BitVec n)) (m : Mem n) (i : Nat) :
    Mem.read (Mem.writeList m 0 vs) i = (vs[i]?).or (Mem.read m i) := by
  simp [Mem.read_writeList]

/-! ### The canonical form -/

theorem Mem.wf_nil (cap : Nat) : Mem.wf ([] : Mem n) cap := by simp [Mem.wf]

theorem Mem.mem_write {m : Mem n} {i : Nat} {v : BitVec n} {p : Nat × BitVec n}
    (h : p ∈ Mem.write m i v) : p = (i, v) ∨ p ∈ m := by
  induction m with
  | nil => simpa [Mem.write] using h
  | cons q m ih =>
    obtain ⟨a, u⟩ := q
    simp only [Mem.write] at h
    split at h
    · simpa using h
    · split at h
      · simp only [List.mem_cons] at h ⊢
        tauto
      · simp only [List.mem_cons] at h ⊢
        rcases h with h | h
        · exact .inr (.inl h)
        · rcases ih h with h | h
          · exact .inl h
          · exact .inr (.inr h)

/-- A write below the capacity keeps the canonical form. -/
theorem Mem.wf_write {m : Mem n} {cap i : Nat} (v : BitVec n) (h : Mem.wf m cap) (hi : i < cap) :
    Mem.wf (Mem.write m i v) cap := by
  refine ⟨?_, fun p hp => ?_⟩
  · obtain ⟨h, -⟩ := h
    induction m with
    | nil => simp [Mem.write]
    | cons q m ih =>
      obtain ⟨a, u⟩ := q
      obtain ⟨hq, hm⟩ := List.pairwise_cons.1 h
      simp only [Mem.write]
      split
      · rename_i hia
        refine List.pairwise_cons.2 ⟨fun p hp => ?_, h⟩
        rcases List.mem_cons.1 hp with rfl | hp
        · exact hia
        · exact Nat.lt_trans hia (hq p hp)
      · split
        · subst_vars
          exact List.pairwise_cons.2 ⟨hq, hm⟩
        · refine List.pairwise_cons.2 ⟨fun p hp => ?_, ih hm⟩
          rcases Mem.mem_write hp with rfl | hp
          · simp only; omega
          · exact hq p hp
  · rcases Mem.mem_write hp with rfl | hp
    · exact hi
    · exact h.2 p hp

/-- A block write below the capacity keeps the canonical form. -/
theorem Mem.wf_writeList {cap : Nat} (vs : List (BitVec n)) {m : Mem n} {a : Nat}
    (h : Mem.wf m cap) (hv : a + vs.length ≤ cap) : Mem.wf (Mem.writeList m a vs) cap := by
  induction vs generalizing m a with
  | nil => exact h
  | cons v vs ih =>
    simp only [List.length_cons] at hv
    exact ih (Mem.wf_write v h (by omega)) (by omega)

/-- In canonical form, no cell at or above the capacity is written. -/
theorem Mem.read_none_of_wf {m : Mem n} {cap i : Nat} (h : Mem.wf m cap) (hi : cap ≤ i) :
    Mem.read m i = none := by
  obtain ⟨-, h⟩ := h
  induction m with
  | nil => rfl
  | cons p m ih =>
    obtain ⟨a, u⟩ := p
    have ha : a < cap := h (a, u) (by simp)
    rw [Mem.read_cons, if_neg (by omega)]
    exact ih fun q hq => h q (List.mem_cons_of_mem _ hq)

/-- Memories in canonical form that read the same are the same data. -/
theorem Mem.ext_of_wf {m m' : Mem n} {cap : Nat} (h : Mem.wf m cap) (h' : Mem.wf m' cap)
    (hr : ∀ i, Mem.read m i = Mem.read m' i) : m = m' := by
  obtain ⟨h, -⟩ := h
  obtain ⟨h', -⟩ := h'
  have low : ∀ (k : Mem n) (a i : Nat), (∀ p ∈ k, a < p.1) → i ≤ a → Mem.read k i = none := by
    intro k a i hk hi
    induction k with
    | nil => rfl
    | cons p k ih =>
      obtain ⟨c, u⟩ := p
      have hc : a < c := hk (c, u) (by simp)
      rw [Mem.read_cons, if_neg (by omega)]
      exact ih fun q hq => hk q (List.mem_cons_of_mem _ hq)
  induction m generalizing m' with
  | nil =>
    cases m' with
    | nil => rfl
    | cons p m' => have := hr p.1; obtain ⟨a, u⟩ := p; simp [Mem.read_cons] at this
  | cons p m ih =>
    obtain ⟨a, u⟩ := p
    obtain ⟨hp, hm⟩ := List.pairwise_cons.1 h
    cases m' with
    | nil => have := hr a; simp [Mem.read_cons] at this
    | cons q m' =>
      obtain ⟨c, w⟩ := q
      obtain ⟨hq, hm'⟩ := List.pairwise_cons.1 h'
      have ha := hr a
      have hc := hr c
      simp only [Mem.read_cons, if_true] at ha hc
      have hac : a = c := by
        rcases Nat.lt_trichotomy a c with hlt | heq | hlt
        · rw [if_neg (by omega), low m' c a hq (by omega)] at ha
          simp at ha
        · exact heq
        · rw [if_neg (by omega), low m a c hp (by omega)] at hc
          simp at hc
      subst hac
      simp only [if_true, Option.some.injEq] at ha
      subst ha
      congr 1
      refine ih (fun i => ?_) hm hm'
      by_cases hi : i = a
      · subst hi
        rw [low m i i hp (by omega), low m' i i hq (by omega)]
      · simpa [Mem.read_cons, hi] using hr i

/-! ### Prefixes: the source buffers of the commands (R33) -/

@[simp] theorem Mem.length_prefixOr (m : Mem n) (free : Nat → BitVec n) (len : Nat) :
    (Mem.prefixOr m free len).length = len := by simp [Mem.prefixOr]

theorem Mem.written_iff (m : Mem n) (len : Nat) :
    Mem.written m len = true ↔ ∀ i < len, (Mem.read m i).isSome := by
  simp [Mem.written, List.all_eq_true]

/-- A memory that holds the list `vs` in its first cells: every such cell is written. -/
theorem Mem.written_of_holds {m : Mem n} {vs : List (BitVec n)}
    (h : ∀ i < vs.length, Mem.read m i = vs[i]?) : Mem.written m vs.length = true := by
  rw [Mem.written_iff]
  intro i hi
  rw [h i hi]
  simp [hi]

/-- A memory that holds the list `vs` in its first cells: they are read as `vs`, whatever stands for
an unwritten cell. -/
theorem Mem.prefixOr_of_holds {m : Mem n} {vs : List (BitVec n)} (free : Nat → BitVec n)
    (h : ∀ i < vs.length, Mem.read m i = vs[i]?) : Mem.prefixOr m free vs.length = vs := by
  apply List.ext_getElem (by simp)
  intro i h1 h2
  simp [Mem.prefixOr, h i h2, List.getElem?_eq_getElem h2]

/-- Where every cell is written, the free values do not matter. -/
theorem Mem.prefixOr_congr {m m' : Mem n} {free free' : Nat → BitVec n} {len : Nat}
    (h : ∀ i < len, (Mem.read m i).getD (free i) = (Mem.read m' i).getD (free' i)) :
    Mem.prefixOr m free len = Mem.prefixOr m' free' len := by
  simp only [Mem.prefixOr]
  exact List.map_congr_left fun i hi => h i (List.mem_range.1 hi)

/-! ### Stores of naturals into words (R14) -/

@[simp] theorem length_toWords (l : List Nat) : (toWords l).length = l.length := by simp [toWords]

theorem getElem?_toWords (l : List Nat) (i : Nat) :
    (toWords l)[i]? = (l[i]?).map (BitVec.ofNat 32) := by simp [toWords]

/-- Naturals below `2^32` come back from words as they went in. -/
theorem toNat_toWords {l : List Nat} (h : ∀ v ∈ l, v < 2 ^ 32) : (toWords l).map BitVec.toNat = l := by
  simp only [toWords, List.map_map]
  conv_rhs => rw [← List.map_id l]
  refine List.map_congr_left fun v hv => ?_
  simpa using h v hv

end Sys2Proof.Machine
end

