-- ==== Sys2Proof/Laws/BitCursor.lean ====
section
/-! SUPPORT. What the BitCursor primitives do, in terms of the bits written so far and the bits still ahead (R110 to R119). -/

namespace Sys2Proof.Laws

open Sys2Proof.Machine Sys2Proof.Claims

/-! ### The cursor -/

/-- `Advance` moves the position by one and keeps `bit_off` in its range (R111). -/
theorem advance_pos {c : Cursor} (h : c.bitOff < 8) : c.advance.pos = c.pos + 1 ∧ c.advance.bitOff < 8 := by
  simp only [Cursor.advance, Cursor.pos]
  split
  · simp only; omega
  · simp only; omega

/-- `Finish` (R114): the position, and its number of bytes. -/
theorem finish_eq {c : Cursor} (h : c.bitOff < 8) : c.finish = (c.pos, (c.pos + 7) / 8) := by
  simp only [Cursor.finish, Cursor.pos, Prod.mk.injEq, true_and]
  split <;> omega

/-! ### Writing -/

/-- The writer has put exactly `bits` into the memory `m0`: the bytes they touch hold them padded with
zeros, and every other cell is as in `m0`. -/
def Holds (w : Writer) (m0 : Mem 8) (bits : List Bool) : Prop :=
  w.cur.pos = bits.length ∧ w.cur.bitOff < 8 ∧
    ∀ i, Mem.read w.mem i = if 8 * i < bits.length then some (byteAt bits i) else Mem.read m0 i

/-- At the cursor's start nothing is written. -/
theorem holds_start (m : Mem 8) : Holds { cur := Cursor.start, mem := m } m [] := by
  exact ⟨rfl, Nat.zero_lt_succ 7, fun i => by simp⟩

theorem getD_snoc (bits : List Bool) (c : Bool) (t : Nat) :
    (bits ++ [c]).getD t false = if t = bits.length then c else bits.getD t false := by
  simp only [List.getD_eq_getElem?_getD]
  rcases Nat.lt_trichotomy t bits.length with h | h | h
  · rw [List.getElem?_append_left h, if_neg (by omega)]
  · subst h; simp
  · rw [List.getElem?_append_right (by omega), if_neg (by omega), List.getElem?_eq_none (l := bits) (by omega),
      List.getElem?_eq_none (by simp; omega)]

/-- `PutBit` (R112) appends one bit while there is room. -/
theorem putBit_ok {cap : Nat} {w : Writer} {m0 : Mem 8} {bits : List Bool} (c : Bool)
    (h : Holds w m0 bits) (hr : bits.length < 8 * cap) :
    ∃ w', putBit cap c w = .ok w' ∧ Holds w' m0 (bits ++ [c]) := by
  obtain ⟨hp, hb, hm⟩ := h
  have hpos : 8 * w.cur.byteOff + w.cur.bitOff = bits.length := hp
  refine ⟨_, if_neg (by omega), ?_, (advance_pos hb).2, fun k => ?_⟩
  · simp [(advance_pos hb).1, hp]
  · simp only [Mem.read_write, List.length_append, List.length_singleton]
    by_cases hk : k = w.cur.byteOff
    · subst hk
      rw [if_pos rfl, if_pos (show 8 * w.cur.byteOff < bits.length + 1 by omega)]
      refine congrArg some (eq_byteAt fun j hj => ?_)
      have hbit : ((BitVec.ofBool c).setWidth 8 <<< (7 - w.cur.bitOff)).getLsbD (7 - j)
          = (decide (j = w.cur.bitOff) && c) := by
        have : ∀ c : Bool, ∀ a < 8, ∀ j < 8, ((BitVec.ofBool c).setWidth 8 <<< (7 - a)).getLsbD (7 - j)
          = (decide (j = a) && c) := by decide
        exact this c _ hb j hj
      rw [BitVec.getLsbD_or, hbit, getD_snoc]
      by_cases h0 : w.cur.bitOff = 0
      · rw [if_pos h0, Mem.read_write_same, Option.getD_some, h0]
        have : bits.getD (8 * w.cur.byteOff + j) false = false := by
          rw [List.getD_eq_getElem?_getD, List.getElem?_eq_none (by omega)]; rfl
        rw [this]
        by_cases hj0 : j = 0
        · rw [if_pos (by omega)]; simp [hj0]
        · rw [if_neg (by omega)]; simp [hj0]
      · rw [if_neg h0, hm, if_pos (by omega), Option.getD_some, getLsbD_byteAt _ _ _ hj]
        by_cases hje : j = w.cur.bitOff
        · have : bits.getD (8 * w.cur.byteOff + j) false = false := by
            rw [List.getD_eq_getElem?_getD, List.getElem?_eq_none (by omega)]; rfl
          rw [if_pos (by omega), this]; simp [hje]
        · rw [if_neg (by omega)]; simp [hje]
    · rw [if_neg hk]
      have hread : Mem.read (if w.cur.bitOff = 0 then Mem.write w.mem w.cur.byteOff 0x00 else w.mem) k
          = Mem.read w.mem k := by
        split
        · exact Mem.read_write_ne _ _ hk
        · rfl
      rw [hread, hm]
      by_cases hlt : 8 * k < bits.length
      · rw [if_pos hlt, if_pos (by omega)]
        refine congrArg some (eq_byteAt fun j hj => ?_)
        rw [getLsbD_byteAt _ _ _ hj, getD_snoc, if_neg (by omega)]
      · rw [if_neg hlt, if_neg (by omega)]

/-- `PutBit` past the last bit of the memory is AllocationFailure (R112). -/
theorem putBit_error {cap : Nat} {w : Writer} {m0 : Mem 8} {bits : List Bool} (c : Bool)
    (h : Holds w m0 bits) (hr : 8 * cap ≤ bits.length) : putBit cap c w = .error .allocationFailure :=
  if_pos (by have := h.1; omega)

/-- A write operation appends the bits `new`, or fails with AllocationFailure where they do not fit. -/
def Emits (cap : Nat) (f : Writer → Except ErrorCode Writer) (new : List Bool) : Prop :=
  ∀ w m0 bits, Holds w m0 bits → bits.length ≤ 8 * cap →
    (bits.length + new.length ≤ 8 * cap → ∃ w', f w = .ok w' ∧ Holds w' m0 (bits ++ new)) ∧
    (8 * cap < bits.length + new.length → f w = .error .allocationFailure)

theorem emits_putBit (cap : Nat) (c : Bool) : Emits cap (putBit cap c) [c] := by
  intro w m0 bits h _
  exact ⟨fun hr => putBit_ok c h (by simpa using hr), fun hr => putBit_error c h (by simp at hr; omega)⟩

theorem emits_nil (cap : Nat) : Emits cap (fun w => .ok w) [] :=
  fun w _ _ h _ => ⟨fun _ => ⟨w, rfl, by simpa using h⟩, fun hr => by simp at hr; omega⟩

/-- Two write operations in turn append both their bit lists. -/
theorem emits_seq {cap : Nat} {f g k : Writer → Except ErrorCode Writer} {a b : List Bool}
    (hf : Emits cap f a) (hg : Emits cap g b)
    (hok : ∀ w w1, f w = .ok w1 → k w = g w1) (herr : ∀ w e, f w = .error e → k w = .error e) :
    Emits cap k (a ++ b) := by
  intro w m0 bits h hb
  rw [List.length_append]
  by_cases ha : bits.length + a.length ≤ 8 * cap
  · obtain ⟨w1, h1, h2⟩ := (hf w m0 bits h hb).1 ha
    have h3 := hg w1 m0 _ h2 (by simpa using ha)
    rw [List.length_append] at h3
    refine ⟨fun hr => ?_, fun hr => ?_⟩
    · obtain ⟨w2, h4, h5⟩ := h3.1 (by omega)
      exact ⟨w2, by rw [hok w w1 h1, h4], by simpa using h5⟩
    · rw [hok w w1 h1, h3.2 (by omega)]
  · refine ⟨fun hr => by omega, fun _ => herr w _ ((hf w m0 bits h hb).2 (by omega))⟩

theorem fieldBits_succ (n x : Nat) : fieldBits (n + 1) x = x.testBit n :: fieldBits n x := by
  simp only [fieldBits, List.range_succ_eq_map, List.map_cons, List.map_map]
  congr 1
  refine List.map_congr_left fun i hi => ?_
  simp only [Function.comp]
  congr 1
  omega

@[simp] theorem length_fieldBits (n x : Nat) : (fieldBits n x).length = n := by simp [fieldBits]

/-- `PutBits` (R113) appends the field. -/
theorem emits_putBits (cap n x : Nat) : Emits cap (putBits cap n x) (fieldBits n x) := by
  induction n with
  | zero => exact emits_nil cap
  | succ n ih =>
    rw [fieldBits_succ]
    refine emits_seq (a := [x.testBit n]) (emits_putBit cap _) ih (fun w w1 h => ?_) (fun w e h => ?_) <;>
      simp [putBits, h]

/-- `PutUnary` (R118) appends `q` ones and a zero. -/
theorem emits_putUnary (cap q : Nat) : Emits cap (putUnary cap q) (List.replicate q true ++ [false]) := by
  induction q with
  | zero => exact emits_putBit cap false
  | succ q ih =>
    rw [List.replicate_succ, List.cons_append]
    refine emits_seq (a := [true]) (emits_putBit cap _) ih (fun w w1 h => ?_) (fun w e h => ?_) <;>
      simp [putUnary, h]

/-! ### Reading -/

/-- The bits `bits` stand at the cursor, below the limit. -/
def Ahead (src : List Byte) (lim : Nat) (c : Cursor) (bits : List Bool) : Prop :=
  c.bitOff < 8 ∧ c.pos + bits.length ≤ lim ∧ ∀ t < bits.length, bits[t]? = some (streamBit src (c.pos + t))

/-- `GetBit` (R115) in terms of the stream index (R12). -/
theorem getBit_eq (src : List Byte) (lim : Nat) {c : Cursor} (h : c.bitOff < 8) :
    getBit src lim c = if lim ≤ c.pos then .error .malformedStream else .ok (streamBit src c.pos, c.advance) := by
  simp only [getBit, streamBit, Cursor.pos]
  rw [show (8 * c.byteOff + c.bitOff) / 8 = c.byteOff by omega, show (8 * c.byteOff + c.bitOff) % 8 = c.bitOff by omega]

/-- `GetBit` reads the next bit ahead. -/
theorem getBit_ahead {src : List Byte} {lim : Nat} {c : Cursor} {x : Bool} {bits : List Bool}
    (h : Ahead src lim c (x :: bits)) :
    getBit src lim c = .ok (x, c.advance) ∧ Ahead src lim c.advance bits ∧ c.advance.pos = c.pos + 1 := by
  obtain ⟨hb, hl, ht⟩ := h
  simp only [List.length_cons] at hl ht
  obtain ⟨h1, h2⟩ := advance_pos hb
  refine ⟨?_, ⟨h2, by omega, fun t hlt => ?_⟩, h1⟩
  · have := ht 0 (by omega)
    simp only [List.getElem?_cons_zero, Option.some.injEq, Nat.add_zero] at this
    rw [getBit_eq src lim hb, if_neg (by omega), ← this]
  · have := ht (t + 1) (by omega)
    rw [List.getElem?_cons_succ] at this
    rw [this, h1]
    congr 2; omega

theorem testBit_shiftIn {n x : Nat} (hx : x < 2 ^ (n + 1)) (y : Nat) :
    (2 * y + (x.testBit n).toNat) * 2 ^ n + x % 2 ^ n = y * 2 ^ (n + 1) + x := by
  have h1 : (x.testBit n).toNat = x / 2 ^ n := by
    rw [Nat.testBit_eq_decide_div_mod_eq]
    have : x / 2 ^ n < 2 := Nat.div_lt_of_lt_mul (by rwa [pow_succ] at hx)
    generalize x / 2 ^ n = y at this ⊢
    interval_cases y <;> rfl
  rw [h1, pow_succ]
  have := Nat.div_add_mod x (2 ^ n)
  nlinarith

theorem fieldBits_mod (n x : Nat) : fieldBits n (x % 2 ^ n) = fieldBits n x := by
  refine List.map_congr_left fun i hi => ?_
  rw [Nat.testBit_mod_two_pow]
  have := List.mem_range.1 hi
  simp; omega

theorem getBitsFrom_ahead {src : List Byte} {lim : Nat} (n : Nat) {y x : Nat} {c : Cursor} {rest : List Bool}
    (h : Ahead src lim c (fieldBits n x ++ rest)) (hx : x < 2 ^ n) :
    ∃ c', getBitsFrom src lim y n c = .ok (y * 2 ^ n + x, c') ∧ Ahead src lim c' rest ∧ c'.pos = c.pos + n := by
  induction n generalizing y x c with
  | zero =>
    have : x = 0 := by simpa using hx
    exact ⟨c, by simp [getBitsFrom, this], by simpa [fieldBits] using h, rfl⟩
  | succ n ih =>
    rw [fieldBits_succ, List.cons_append] at h
    obtain ⟨h1, h2, h3⟩ := getBit_ahead h
    rw [← fieldBits_mod] at h2
    obtain ⟨c', h4, h5, h6⟩ := ih (y := 2 * y + (x.testBit n).toNat) h2 (Nat.mod_lt _ (by positivity))
    refine ⟨c', ?_, h5, by omega⟩
    simp only [getBitsFrom, h1, h4]
    rw [testBit_shiftIn hx]

/-- `GetBits(n)` reads back the field that `PutBits(n, x)` writes (R116). -/
theorem getBits_ahead {src : List Byte} {lim n x : Nat} {c : Cursor} {rest : List Bool}
    (h : Ahead src lim c (fieldBits n x ++ rest)) (hx : x < 2 ^ n) :
    ∃ c', getBits src lim n c = .ok (x, c') ∧ Ahead src lim c' rest ∧ c'.pos = c.pos + n := by
  have := getBitsFrom_ahead (y := 0) n h hx
  simpa [getBits] using this

theorem getUnaryFrom_ahead {src : List Byte} {lim : Nat} (q : Nat) {fuel p : Nat} {c : Cursor} {rest : List Bool}
    (h : Ahead src lim c (List.replicate q true ++ false :: rest)) (hf : q < fuel) :
    ∃ c', getUnaryFrom src lim fuel p c = .ok (p + q, c') ∧ Ahead src lim c' rest ∧ c'.pos = c.pos + (q + 1) := by
  induction q generalizing fuel p c with
  | zero =>
    obtain ⟨f, rfl⟩ : ∃ f, fuel = f + 1 := ⟨fuel - 1, by omega⟩
    obtain ⟨h1, h2, h3⟩ := getBit_ahead (by simpa using h)
    exact ⟨c.advance, by simp [getUnaryFrom, h1], h2, h3⟩
  | succ q ih =>
    obtain ⟨f, rfl⟩ : ∃ f, fuel = f + 1 := ⟨fuel - 1, by omega⟩
    rw [List.replicate_succ, List.cons_append] at h
    obtain ⟨h1, h2, h3⟩ := getBit_ahead h
    obtain ⟨c', h4, h5, h6⟩ := ih (fuel := f) (p := p + 1) h2 (by omega)
    refine ⟨c', ?_, h5, by omega⟩
    simp only [getUnaryFrom, h1, h4]
    congr 2; omega

/-- `GetUnary` reads back what `PutUnary` writes (R117, R118). -/
theorem getUnary_ahead {src : List Byte} {lim q : Nat} {c : Cursor} {rest : List Bool}
    (h : Ahead src lim c (List.replicate q true ++ false :: rest)) :
    ∃ c', getUnary src lim c = .ok (q, c') ∧ Ahead src lim c' rest ∧ c'.pos = c.pos + (q + 1) := by
  have hl := h.2.1
  simp only [List.length_append, List.length_replicate, List.length_cons] at hl
  have := getUnaryFrom_ahead (p := 0) q h (fuel := lim - c.pos) (by omega)
  simpa [getUnary] using this

end Sys2Proof.Laws
end

