-- ==== Sys2Proof/Laws/Density.lean ====
section
/-! SUPPORT. What the density estimate computes: the counts and the least `b` of R152. -/

namespace Sys2Proof.Laws

open Sys2Proof.Machine Sys2Proof.Claims

/-- The upward search finds the first value with the property, if there is one within its reach. -/
theorem leastB_first (n z : Nat) (fuel b c : Nat) (hc : 2 * z ^ c ≤ n ^ c) (hb : b ≤ c) (hf : c < b + fuel) :
    b ≤ leastB n z fuel b ∧ leastB n z fuel b ≤ c ∧
      2 * z ^ leastB n z fuel b ≤ n ^ leastB n z fuel b ∧
      ∀ a, b ≤ a → a < leastB n z fuel b → n ^ a < 2 * z ^ a := by
  induction fuel generalizing b with
  | zero => omega
  | succ fuel ih =>
    simp only [leastB]
    split
    · rename_i h
      exact ⟨Nat.le_refl _, hb, h, fun a h1 h2 => by omega⟩
    · rename_i h
      have hbc : b + 1 ≤ c := by
        rcases Nat.lt_or_ge b c with h' | h'
        · exact h'
        · have : b = c := by omega
          subst this; exact absurd hc h
      obtain ⟨h1, h2, h3, h4⟩ := ih (b + 1) hbc (by omega)
      refine ⟨by omega, h2, h3, fun a ha ha' => ?_⟩
      rcases Nat.lt_or_ge b a with h' | h'
      · exact h4 a h' ha'
      · have : a = b := by omega
        subst this; omega

/-- `N` itself has the property (R154): `2 * Z^N <= N^N` for `Z < N`. -/
theorem two_mul_pow_le {n z : Nat} (hz : z < n) (hn : 0 < z) : 2 * z ^ n ≤ n ^ n := by
  have h1 : 2 * z ^ z ≤ (z + 1) ^ z := by
    have h : ∀ k, z ^ (k + 1) + (k + 1) * z ^ k ≤ (z + 1) ^ (k + 1) := by
      intro k
      induction k with
      | zero => simp
      | succ k ih =>
        calc z ^ (k + 2) + (k + 2) * z ^ (k + 1)
            ≤ (z ^ (k + 1) + (k + 1) * z ^ k) * (z + 1) := by
              rw [pow_succ z (k + 1), pow_succ z k]; nlinarith [Nat.zero_le (z ^ k)]
          _ ≤ (z + 1) ^ (k + 1) * (z + 1) := Nat.mul_le_mul_right _ ih
          _ = (z + 1) ^ (k + 2) := (pow_succ _ _).symm
    obtain ⟨k, rfl⟩ : ∃ k, z = k + 1 := ⟨z - 1, by omega⟩
    have := h k
    rw [pow_succ] at this ⊢
    calc 2 * ((k + 1) ^ k * (k + 1)) = (k + 1) ^ k * (k + 1) + (k + 1) * (k + 1) ^ k := by ring
      _ ≤ _ := this
  calc 2 * z ^ n = 2 * z ^ z * z ^ (n - z) := by rw [mul_assoc, ← pow_add]; congr 2; omega
    _ ≤ (z + 1) ^ z * (z + 1) ^ (n - z) := Nat.mul_le_mul h1 (Nat.pow_le_pow_left (by omega) _)
    _ = (z + 1) ^ n := by rw [← pow_add]; congr 1; omega
    _ ≤ n ^ n := Nat.pow_le_pow_left hz _

/-- The search of `EstimateB` finds the `b` of R152, and it is at most `N`. -/
theorem leastB_spec {n z : Nat} (hz : z < n) (hn : 0 < z) :
    IsLeastB n z (leastB n z n 1) ∧ leastB n z n 1 ≤ n := by
  obtain ⟨h1, h2, h3, h4⟩ := leastB_first n z n 1 n (two_mul_pow_le hz hn) (by omega) (by omega)
  exact ⟨⟨h1, h3, h4⟩, h2⟩

/-- The `b` of R152 is unique. -/
theorem isLeastB_unique {n z b c : Nat} (hb : IsLeastB n z b) (hc : IsLeastB n z c) : b = c := by
  rcases Nat.lt_trichotomy b c with h | h | h
  · have := hc.2.2 b hb.1 h; have := hb.2.1; omega
  · exact h
  · have := hb.2.2 c hc.1 h; have := hc.2.1; omega

/-- `EstimateB` in the words of R152 and R153. -/
theorem estimateB_eq (src : List Byte) :
    estimateB src
      = if 8 * src.length = 0 ∨ zeroBits src = 0 ∨ zeroBits src = 8 * src.length then .error .degenerateDensity
        else .ok (leastB (8 * src.length) (zeroBits src) (8 * src.length) 1, zeroBits src) := by
  have h : 8 * src.length - onesOf src = zeroBits src := by
    have := zeroBits_add_ones src
    simp only [onesOf]; omega
  simp only [estimateB, h]

end Sys2Proof.Laws
end

