-- ==== Sys2Proof/Laws/State.lean ====
section
/-! SUPPORT. For each update of the state and each field, what the update leaves in the field. -/

namespace Sys2Proof.Machine

/-! ### `State.faultAccess` -/

@[simp] theorem State.faultAccess_cfg (s : State) (f : Fault) : (s.faultAccess f).cfg = s.cfg := rfl
@[simp] theorem State.faultAccess_cmd (s : State) (f : Fault) : (s.faultAccess f).cmd = s.cmd := rfl
@[simp] theorem State.faultAccess_status (s : State) (f : Fault) : (s.faultAccess f).status = s.status := rfl
@[simp] theorem State.faultAccess_byteLen (s : State) (f : Fault) : (s.faultAccess f).byteLen = s.byteLen := rfl
@[simp] theorem State.faultAccess_gapCount (s : State) (f : Fault) : (s.faultAccess f).gapCount = s.gapCount := rfl
@[simp] theorem State.faultAccess_packLen (s : State) (f : Fault) : (s.faultAccess f).packLen = s.packLen := rfl
@[simp] theorem State.faultAccess_bParam (s : State) (f : Fault) : (s.faultAccess f).bParam = s.bParam := rfl
@[simp] theorem State.faultAccess_zeroCount (s : State) (f : Fault) : (s.faultAccess f).zeroCount = s.zeroCount := rfl
@[simp] theorem State.faultAccess_packBits (s : State) (f : Fault) : (s.faultAccess f).packBits = s.packBits := rfl
@[simp] theorem State.faultAccess_bytes (s : State) (f : Fault) : (s.faultAccess f).bytes = s.bytes := rfl
@[simp] theorem State.faultAccess_gaps (s : State) (f : Fault) : (s.faultAccess f).gaps = s.gaps := rfl
@[simp] theorem State.faultAccess_packed (s : State) (f : Fault) : (s.faultAccess f).packed = s.packed := rfl
@[simp] theorem State.faultAccess_latch (s : State) (f : Fault) : (s.faultAccess f).latch = s.latch := rfl
@[simp] theorem State.faultAccess_faults (s : State) (f : Fault) : (s.faultAccess f).faults = s.faults.add f := rfl
@[simp] theorem State.faultAccess_reply (s : State) (f : Fault) : (s.faultAccess f).reply = none := rfl
@[simp] theorem State.faultAccess_moves (s : State) (f : Fault) : (s.faultAccess f).moves = s.moves := rfl
@[simp] theorem State.faultAccess_freeSeed (s : State) (f : Fault) : (s.faultAccess f).freeSeed = s.freeSeed := rfl

/-! ### `State.noteReads` -/

@[simp] theorem State.noteReads_cfg (s : State) (ok : Bool) : (s.noteReads ok).cfg = s.cfg := by cases ok <;> rfl
@[simp] theorem State.noteReads_cmd (s : State) (ok : Bool) : (s.noteReads ok).cmd = s.cmd := by cases ok <;> rfl
@[simp] theorem State.noteReads_status (s : State) (ok : Bool) : (s.noteReads ok).status = s.status := by cases ok <;> rfl
@[simp] theorem State.noteReads_byteLen (s : State) (ok : Bool) : (s.noteReads ok).byteLen = s.byteLen := by cases ok <;> rfl
@[simp] theorem State.noteReads_gapCount (s : State) (ok : Bool) : (s.noteReads ok).gapCount = s.gapCount := by cases ok <;> rfl
@[simp] theorem State.noteReads_packLen (s : State) (ok : Bool) : (s.noteReads ok).packLen = s.packLen := by cases ok <;> rfl
@[simp] theorem State.noteReads_bParam (s : State) (ok : Bool) : (s.noteReads ok).bParam = s.bParam := by cases ok <;> rfl
@[simp] theorem State.noteReads_zeroCount (s : State) (ok : Bool) : (s.noteReads ok).zeroCount = s.zeroCount := by cases ok <;> rfl
@[simp] theorem State.noteReads_packBits (s : State) (ok : Bool) : (s.noteReads ok).packBits = s.packBits := by cases ok <;> rfl
@[simp] theorem State.noteReads_bytes (s : State) (ok : Bool) : (s.noteReads ok).bytes = s.bytes := by cases ok <;> rfl
@[simp] theorem State.noteReads_gaps (s : State) (ok : Bool) : (s.noteReads ok).gaps = s.gaps := by cases ok <;> rfl
@[simp] theorem State.noteReads_packed (s : State) (ok : Bool) : (s.noteReads ok).packed = s.packed := by cases ok <;> rfl
@[simp] theorem State.noteReads_latch (s : State) (ok : Bool) : (s.noteReads ok).latch = s.latch := by cases ok <;> rfl
@[simp] theorem State.noteReads_faults (s : State) (ok : Bool) : (s.noteReads ok).faults = (if ok then s.faults else s.faults.add .uninitRead) := by cases ok <;> rfl
@[simp] theorem State.noteReads_reply (s : State) (ok : Bool) : (s.noteReads ok).reply = s.reply := by cases ok <;> rfl
@[simp] theorem State.noteReads_moves (s : State) (ok : Bool) : (s.noteReads ok).moves = s.moves := by cases ok <;> rfl
@[simp] theorem State.noteReads_freeSeed (s : State) (ok : Bool) : (s.noteReads ok).freeSeed = (if ok then s.freeSeed else s.freeSeed + 1) := by cases ok <;> rfl

/-! ### `State.putBytes` -/

@[simp] theorem State.putBytes_cfg (s : State) (m : Mem 8) (len : Nat) : (s.putBytes m len).cfg = s.cfg := rfl
@[simp] theorem State.putBytes_cmd (s : State) (m : Mem 8) (len : Nat) : (s.putBytes m len).cmd = s.cmd := rfl
@[simp] theorem State.putBytes_status (s : State) (m : Mem 8) (len : Nat) : (s.putBytes m len).status = s.status := rfl
@[simp] theorem State.putBytes_byteLen (s : State) (m : Mem 8) (len : Nat) : (s.putBytes m len).byteLen = BitVec.ofNat 32 len := rfl
@[simp] theorem State.putBytes_gapCount (s : State) (m : Mem 8) (len : Nat) : (s.putBytes m len).gapCount = s.gapCount := rfl
@[simp] theorem State.putBytes_packLen (s : State) (m : Mem 8) (len : Nat) : (s.putBytes m len).packLen = s.packLen := rfl
@[simp] theorem State.putBytes_bParam (s : State) (m : Mem 8) (len : Nat) : (s.putBytes m len).bParam = s.bParam := rfl
@[simp] theorem State.putBytes_zeroCount (s : State) (m : Mem 8) (len : Nat) : (s.putBytes m len).zeroCount = s.zeroCount := rfl
@[simp] theorem State.putBytes_packBits (s : State) (m : Mem 8) (len : Nat) : (s.putBytes m len).packBits = s.packBits := rfl
@[simp] theorem State.putBytes_bytes (s : State) (m : Mem 8) (len : Nat) : (s.putBytes m len).bytes = m := rfl
@[simp] theorem State.putBytes_gaps (s : State) (m : Mem 8) (len : Nat) : (s.putBytes m len).gaps = s.gaps := rfl
@[simp] theorem State.putBytes_packed (s : State) (m : Mem 8) (len : Nat) : (s.putBytes m len).packed = s.packed := rfl
@[simp] theorem State.putBytes_latch (s : State) (m : Mem 8) (len : Nat) : (s.putBytes m len).latch = s.latch := rfl
@[simp] theorem State.putBytes_faults (s : State) (m : Mem 8) (len : Nat) : (s.putBytes m len).faults = s.faults := rfl
@[simp] theorem State.putBytes_reply (s : State) (m : Mem 8) (len : Nat) : (s.putBytes m len).reply = s.reply := rfl
@[simp] theorem State.putBytes_moves (s : State) (m : Mem 8) (len : Nat) : (s.putBytes m len).moves = s.moves := rfl
@[simp] theorem State.putBytes_freeSeed (s : State) (m : Mem 8) (len : Nat) : (s.putBytes m len).freeSeed = s.freeSeed := rfl

/-! ### `State.putGaps` -/

@[simp] theorem State.putGaps_cfg (s : State) (m : Mem 32) (count : Nat) : (s.putGaps m count).cfg = s.cfg := rfl
@[simp] theorem State.putGaps_cmd (s : State) (m : Mem 32) (count : Nat) : (s.putGaps m count).cmd = s.cmd := rfl
@[simp] theorem State.putGaps_status (s : State) (m : Mem 32) (count : Nat) : (s.putGaps m count).status = s.status := rfl
@[simp] theorem State.putGaps_byteLen (s : State) (m : Mem 32) (count : Nat) : (s.putGaps m count).byteLen = s.byteLen := rfl
@[simp] theorem State.putGaps_gapCount (s : State) (m : Mem 32) (count : Nat) : (s.putGaps m count).gapCount = BitVec.ofNat 32 count := rfl
@[simp] theorem State.putGaps_packLen (s : State) (m : Mem 32) (count : Nat) : (s.putGaps m count).packLen = s.packLen := rfl
@[simp] theorem State.putGaps_bParam (s : State) (m : Mem 32) (count : Nat) : (s.putGaps m count).bParam = s.bParam := rfl
@[simp] theorem State.putGaps_zeroCount (s : State) (m : Mem 32) (count : Nat) : (s.putGaps m count).zeroCount = s.zeroCount := rfl
@[simp] theorem State.putGaps_packBits (s : State) (m : Mem 32) (count : Nat) : (s.putGaps m count).packBits = s.packBits := rfl
@[simp] theorem State.putGaps_bytes (s : State) (m : Mem 32) (count : Nat) : (s.putGaps m count).bytes = s.bytes := rfl
@[simp] theorem State.putGaps_gaps (s : State) (m : Mem 32) (count : Nat) : (s.putGaps m count).gaps = m := rfl
@[simp] theorem State.putGaps_packed (s : State) (m : Mem 32) (count : Nat) : (s.putGaps m count).packed = s.packed := rfl
@[simp] theorem State.putGaps_latch (s : State) (m : Mem 32) (count : Nat) : (s.putGaps m count).latch = s.latch := rfl
@[simp] theorem State.putGaps_faults (s : State) (m : Mem 32) (count : Nat) : (s.putGaps m count).faults = s.faults := rfl
@[simp] theorem State.putGaps_reply (s : State) (m : Mem 32) (count : Nat) : (s.putGaps m count).reply = s.reply := rfl
@[simp] theorem State.putGaps_moves (s : State) (m : Mem 32) (count : Nat) : (s.putGaps m count).moves = s.moves := rfl
@[simp] theorem State.putGaps_freeSeed (s : State) (m : Mem 32) (count : Nat) : (s.putGaps m count).freeSeed = s.freeSeed := rfl

/-! ### `State.putPacked` -/

@[simp] theorem State.putPacked_cfg (s : State) (m : Mem 8) (bits len : Nat) : (s.putPacked m bits len).cfg = s.cfg := rfl
@[simp] theorem State.putPacked_cmd (s : State) (m : Mem 8) (bits len : Nat) : (s.putPacked m bits len).cmd = s.cmd := rfl
@[simp] theorem State.putPacked_status (s : State) (m : Mem 8) (bits len : Nat) : (s.putPacked m bits len).status = s.status := rfl
@[simp] theorem State.putPacked_byteLen (s : State) (m : Mem 8) (bits len : Nat) : (s.putPacked m bits len).byteLen = s.byteLen := rfl
@[simp] theorem State.putPacked_gapCount (s : State) (m : Mem 8) (bits len : Nat) : (s.putPacked m bits len).gapCount = s.gapCount := rfl
@[simp] theorem State.putPacked_packLen (s : State) (m : Mem 8) (bits len : Nat) : (s.putPacked m bits len).packLen = BitVec.ofNat 32 len := rfl
@[simp] theorem State.putPacked_bParam (s : State) (m : Mem 8) (bits len : Nat) : (s.putPacked m bits len).bParam = s.bParam := rfl
@[simp] theorem State.putPacked_zeroCount (s : State) (m : Mem 8) (bits len : Nat) : (s.putPacked m bits len).zeroCount = s.zeroCount := rfl
@[simp] theorem State.putPacked_packBits (s : State) (m : Mem 8) (bits len : Nat) : (s.putPacked m bits len).packBits = BitVec.ofNat 32 bits := rfl
@[simp] theorem State.putPacked_bytes (s : State) (m : Mem 8) (bits len : Nat) : (s.putPacked m bits len).bytes = s.bytes := rfl
@[simp] theorem State.putPacked_gaps (s : State) (m : Mem 8) (bits len : Nat) : (s.putPacked m bits len).gaps = s.gaps := rfl
@[simp] theorem State.putPacked_packed (s : State) (m : Mem 8) (bits len : Nat) : (s.putPacked m bits len).packed = m := rfl
@[simp] theorem State.putPacked_latch (s : State) (m : Mem 8) (bits len : Nat) : (s.putPacked m bits len).latch = s.latch := rfl
@[simp] theorem State.putPacked_faults (s : State) (m : Mem 8) (bits len : Nat) : (s.putPacked m bits len).faults = s.faults := rfl
@[simp] theorem State.putPacked_reply (s : State) (m : Mem 8) (bits len : Nat) : (s.putPacked m bits len).reply = s.reply := rfl
@[simp] theorem State.putPacked_moves (s : State) (m : Mem 8) (bits len : Nat) : (s.putPacked m bits len).moves = s.moves := rfl
@[simp] theorem State.putPacked_freeSeed (s : State) (m : Mem 8) (bits len : Nat) : (s.putPacked m bits len).freeSeed = s.freeSeed := rfl

/-! ### `State.putDensity` -/

@[simp] theorem State.putDensity_cfg (s : State) (b zeros : Nat) : (s.putDensity b zeros).cfg = s.cfg := rfl
@[simp] theorem State.putDensity_cmd (s : State) (b zeros : Nat) : (s.putDensity b zeros).cmd = s.cmd := rfl
@[simp] theorem State.putDensity_status (s : State) (b zeros : Nat) : (s.putDensity b zeros).status = s.status := rfl
@[simp] theorem State.putDensity_byteLen (s : State) (b zeros : Nat) : (s.putDensity b zeros).byteLen = s.byteLen := rfl
@[simp] theorem State.putDensity_gapCount (s : State) (b zeros : Nat) : (s.putDensity b zeros).gapCount = s.gapCount := rfl
@[simp] theorem State.putDensity_packLen (s : State) (b zeros : Nat) : (s.putDensity b zeros).packLen = s.packLen := rfl
@[simp] theorem State.putDensity_bParam (s : State) (b zeros : Nat) : (s.putDensity b zeros).bParam = BitVec.ofNat 32 b := rfl
@[simp] theorem State.putDensity_zeroCount (s : State) (b zeros : Nat) : (s.putDensity b zeros).zeroCount = BitVec.ofNat 32 zeros := rfl
@[simp] theorem State.putDensity_packBits (s : State) (b zeros : Nat) : (s.putDensity b zeros).packBits = s.packBits := rfl
@[simp] theorem State.putDensity_bytes (s : State) (b zeros : Nat) : (s.putDensity b zeros).bytes = s.bytes := rfl
@[simp] theorem State.putDensity_gaps (s : State) (b zeros : Nat) : (s.putDensity b zeros).gaps = s.gaps := rfl
@[simp] theorem State.putDensity_packed (s : State) (b zeros : Nat) : (s.putDensity b zeros).packed = s.packed := rfl
@[simp] theorem State.putDensity_latch (s : State) (b zeros : Nat) : (s.putDensity b zeros).latch = s.latch := rfl
@[simp] theorem State.putDensity_faults (s : State) (b zeros : Nat) : (s.putDensity b zeros).faults = s.faults := rfl
@[simp] theorem State.putDensity_reply (s : State) (b zeros : Nat) : (s.putDensity b zeros).reply = s.reply := rfl
@[simp] theorem State.putDensity_moves (s : State) (b zeros : Nat) : (s.putDensity b zeros).moves = s.moves := rfl
@[simp] theorem State.putDensity_freeSeed (s : State) (b zeros : Nat) : (s.putDensity b zeros).freeSeed = s.freeSeed := rfl

/-! ### `State.start` -/

@[simp] theorem State.start_cfg (s : State) (w : Word) : (s.start w).cfg = s.cfg := rfl
@[simp] theorem State.start_cmd (s : State) (w : Word) : (s.start w).cmd = w := rfl
@[simp] theorem State.start_status (s : State) (w : Word) : (s.start w).status = Status.running := rfl
@[simp] theorem State.start_byteLen (s : State) (w : Word) : (s.start w).byteLen = s.byteLen := rfl
@[simp] theorem State.start_gapCount (s : State) (w : Word) : (s.start w).gapCount = s.gapCount := rfl
@[simp] theorem State.start_packLen (s : State) (w : Word) : (s.start w).packLen = s.packLen := rfl
@[simp] theorem State.start_bParam (s : State) (w : Word) : (s.start w).bParam = s.bParam := rfl
@[simp] theorem State.start_zeroCount (s : State) (w : Word) : (s.start w).zeroCount = s.zeroCount := rfl
@[simp] theorem State.start_packBits (s : State) (w : Word) : (s.start w).packBits = s.packBits := rfl
@[simp] theorem State.start_bytes (s : State) (w : Word) : (s.start w).bytes = s.bytes := rfl
@[simp] theorem State.start_gaps (s : State) (w : Word) : (s.start w).gaps = s.gaps := rfl
@[simp] theorem State.start_packed (s : State) (w : Word) : (s.start w).packed = s.packed := rfl
@[simp] theorem State.start_latch (s : State) (w : Word) : (s.start w).latch = some w := rfl
@[simp] theorem State.start_faults (s : State) (w : Word) : (s.start w).faults = s.faults := rfl
@[simp] theorem State.start_reply (s : State) (w : Word) : (s.start w).reply = s.reply := rfl
@[simp] theorem State.start_moves (s : State) (w : Word) : (s.start w).moves = s.moves := rfl
@[simp] theorem State.start_freeSeed (s : State) (w : Word) : (s.start w).freeSeed = s.freeSeed := rfl

/-! ### `State.finish` -/

@[simp] theorem State.finish_cfg (s : State) (st : Status) : (s.finish st).cfg = s.cfg := rfl
@[simp] theorem State.finish_cmd (s : State) (st : Status) : (s.finish st).cmd = s.cmd := rfl
@[simp] theorem State.finish_status (s : State) (st : Status) : (s.finish st).status = st := rfl
@[simp] theorem State.finish_byteLen (s : State) (st : Status) : (s.finish st).byteLen = s.byteLen := rfl
@[simp] theorem State.finish_gapCount (s : State) (st : Status) : (s.finish st).gapCount = s.gapCount := rfl
@[simp] theorem State.finish_packLen (s : State) (st : Status) : (s.finish st).packLen = s.packLen := rfl
@[simp] theorem State.finish_bParam (s : State) (st : Status) : (s.finish st).bParam = s.bParam := rfl
@[simp] theorem State.finish_zeroCount (s : State) (st : Status) : (s.finish st).zeroCount = s.zeroCount := rfl
@[simp] theorem State.finish_packBits (s : State) (st : Status) : (s.finish st).packBits = s.packBits := rfl
@[simp] theorem State.finish_bytes (s : State) (st : Status) : (s.finish st).bytes = s.bytes := rfl
@[simp] theorem State.finish_gaps (s : State) (st : Status) : (s.finish st).gaps = s.gaps := rfl
@[simp] theorem State.finish_packed (s : State) (st : Status) : (s.finish st).packed = s.packed := rfl
@[simp] theorem State.finish_latch (s : State) (st : Status) : (s.finish st).latch = none := rfl
@[simp] theorem State.finish_faults (s : State) (st : Status) : (s.finish st).faults = s.faults := rfl
@[simp] theorem State.finish_reply (s : State) (st : Status) : (s.finish st).reply = s.reply := rfl
@[simp] theorem State.finish_moves (s : State) (st : Status) : (s.finish st).moves = s.moves := rfl
@[simp] theorem State.finish_freeSeed (s : State) (st : Status) : (s.finish st).freeSeed = s.freeSeed := rfl

/-! ### `State.complete` -/

@[simp] theorem State.complete_cfg (s : State) : (s.complete).cfg = s.cfg := rfl
@[simp] theorem State.complete_cmd (s : State) : (s.complete).cmd = s.cmd := rfl
@[simp] theorem State.complete_status (s : State) : (s.complete).status = Status.success := rfl
@[simp] theorem State.complete_byteLen (s : State) : (s.complete).byteLen = s.byteLen := rfl
@[simp] theorem State.complete_gapCount (s : State) : (s.complete).gapCount = s.gapCount := rfl
@[simp] theorem State.complete_packLen (s : State) : (s.complete).packLen = s.packLen := rfl
@[simp] theorem State.complete_bParam (s : State) : (s.complete).bParam = s.bParam := rfl
@[simp] theorem State.complete_zeroCount (s : State) : (s.complete).zeroCount = s.zeroCount := rfl
@[simp] theorem State.complete_packBits (s : State) : (s.complete).packBits = s.packBits := rfl
@[simp] theorem State.complete_bytes (s : State) : (s.complete).bytes = s.bytes := rfl
@[simp] theorem State.complete_gaps (s : State) : (s.complete).gaps = s.gaps := rfl
@[simp] theorem State.complete_packed (s : State) : (s.complete).packed = s.packed := rfl
@[simp] theorem State.complete_latch (s : State) : (s.complete).latch = none := rfl
@[simp] theorem State.complete_faults (s : State) : (s.complete).faults = s.faults := rfl
@[simp] theorem State.complete_reply (s : State) : (s.complete).reply = s.reply := rfl
@[simp] theorem State.complete_moves (s : State) : (s.complete).moves = s.moves := rfl
@[simp] theorem State.complete_freeSeed (s : State) : (s.complete).freeSeed = s.freeSeed := rfl

/-! ### `State.withMoves` -/

@[simp] theorem State.withMoves_cfg (s : State) (ms : List Move) : (s.withMoves ms).cfg = s.cfg := rfl
@[simp] theorem State.withMoves_cmd (s : State) (ms : List Move) : (s.withMoves ms).cmd = s.cmd := rfl
@[simp] theorem State.withMoves_status (s : State) (ms : List Move) : (s.withMoves ms).status = s.status := rfl
@[simp] theorem State.withMoves_byteLen (s : State) (ms : List Move) : (s.withMoves ms).byteLen = s.byteLen := rfl
@[simp] theorem State.withMoves_gapCount (s : State) (ms : List Move) : (s.withMoves ms).gapCount = s.gapCount := rfl
@[simp] theorem State.withMoves_packLen (s : State) (ms : List Move) : (s.withMoves ms).packLen = s.packLen := rfl
@[simp] theorem State.withMoves_bParam (s : State) (ms : List Move) : (s.withMoves ms).bParam = s.bParam := rfl
@[simp] theorem State.withMoves_zeroCount (s : State) (ms : List Move) : (s.withMoves ms).zeroCount = s.zeroCount := rfl
@[simp] theorem State.withMoves_packBits (s : State) (ms : List Move) : (s.withMoves ms).packBits = s.packBits := rfl
@[simp] theorem State.withMoves_bytes (s : State) (ms : List Move) : (s.withMoves ms).bytes = s.bytes := rfl
@[simp] theorem State.withMoves_gaps (s : State) (ms : List Move) : (s.withMoves ms).gaps = s.gaps := rfl
@[simp] theorem State.withMoves_packed (s : State) (ms : List Move) : (s.withMoves ms).packed = s.packed := rfl
@[simp] theorem State.withMoves_latch (s : State) (ms : List Move) : (s.withMoves ms).latch = s.latch := rfl
@[simp] theorem State.withMoves_faults (s : State) (ms : List Move) : (s.withMoves ms).faults = s.faults := rfl
@[simp] theorem State.withMoves_reply (s : State) (ms : List Move) : (s.withMoves ms).reply = s.reply := rfl
@[simp] theorem State.withMoves_moves (s : State) (ms : List Move) : (s.withMoves ms).moves = ms := rfl
@[simp] theorem State.withMoves_freeSeed (s : State) (ms : List Move) : (s.withMoves ms).freeSeed = s.freeSeed := rfl

/-! ### `State.replied` -/

@[simp] theorem State.replied_cfg (s : State) (d : Option HostData) : (s.replied d).cfg = s.cfg := rfl
@[simp] theorem State.replied_cmd (s : State) (d : Option HostData) : (s.replied d).cmd = s.cmd := rfl
@[simp] theorem State.replied_status (s : State) (d : Option HostData) : (s.replied d).status = s.status := rfl
@[simp] theorem State.replied_byteLen (s : State) (d : Option HostData) : (s.replied d).byteLen = s.byteLen := rfl
@[simp] theorem State.replied_gapCount (s : State) (d : Option HostData) : (s.replied d).gapCount = s.gapCount := rfl
@[simp] theorem State.replied_packLen (s : State) (d : Option HostData) : (s.replied d).packLen = s.packLen := rfl
@[simp] theorem State.replied_bParam (s : State) (d : Option HostData) : (s.replied d).bParam = s.bParam := rfl
@[simp] theorem State.replied_zeroCount (s : State) (d : Option HostData) : (s.replied d).zeroCount = s.zeroCount := rfl
@[simp] theorem State.replied_packBits (s : State) (d : Option HostData) : (s.replied d).packBits = s.packBits := rfl
@[simp] theorem State.replied_bytes (s : State) (d : Option HostData) : (s.replied d).bytes = s.bytes := rfl
@[simp] theorem State.replied_gaps (s : State) (d : Option HostData) : (s.replied d).gaps = s.gaps := rfl
@[simp] theorem State.replied_packed (s : State) (d : Option HostData) : (s.replied d).packed = s.packed := rfl
@[simp] theorem State.replied_latch (s : State) (d : Option HostData) : (s.replied d).latch = s.latch := rfl
@[simp] theorem State.replied_faults (s : State) (d : Option HostData) : (s.replied d).faults = s.faults := rfl
@[simp] theorem State.replied_reply (s : State) (d : Option HostData) : (s.replied d).reply = d := rfl
@[simp] theorem State.replied_moves (s : State) (d : Option HostData) : (s.replied d).moves = s.moves := rfl
@[simp] theorem State.replied_freeSeed (s : State) (d : Option HostData) : (s.replied d).freeSeed = s.freeSeed := rfl

/-! ### `State.replyCell` -/

@[simp] theorem State.replyCell_cfg (s : State) (d : Option HostData) : (s.replyCell d).cfg = s.cfg := by cases d <;> rfl
@[simp] theorem State.replyCell_cmd (s : State) (d : Option HostData) : (s.replyCell d).cmd = s.cmd := by cases d <;> rfl
@[simp] theorem State.replyCell_status (s : State) (d : Option HostData) : (s.replyCell d).status = s.status := by cases d <;> rfl
@[simp] theorem State.replyCell_byteLen (s : State) (d : Option HostData) : (s.replyCell d).byteLen = s.byteLen := by cases d <;> rfl
@[simp] theorem State.replyCell_gapCount (s : State) (d : Option HostData) : (s.replyCell d).gapCount = s.gapCount := by cases d <;> rfl
@[simp] theorem State.replyCell_packLen (s : State) (d : Option HostData) : (s.replyCell d).packLen = s.packLen := by cases d <;> rfl
@[simp] theorem State.replyCell_bParam (s : State) (d : Option HostData) : (s.replyCell d).bParam = s.bParam := by cases d <;> rfl
@[simp] theorem State.replyCell_zeroCount (s : State) (d : Option HostData) : (s.replyCell d).zeroCount = s.zeroCount := by cases d <;> rfl
@[simp] theorem State.replyCell_packBits (s : State) (d : Option HostData) : (s.replyCell d).packBits = s.packBits := by cases d <;> rfl
@[simp] theorem State.replyCell_bytes (s : State) (d : Option HostData) : (s.replyCell d).bytes = s.bytes := by cases d <;> rfl
@[simp] theorem State.replyCell_gaps (s : State) (d : Option HostData) : (s.replyCell d).gaps = s.gaps := by cases d <;> rfl
@[simp] theorem State.replyCell_packed (s : State) (d : Option HostData) : (s.replyCell d).packed = s.packed := by cases d <;> rfl
@[simp] theorem State.replyCell_latch (s : State) (d : Option HostData) : (s.replyCell d).latch = s.latch := by cases d <;> rfl
@[simp] theorem State.replyCell_faults (s : State) (d : Option HostData) : (s.replyCell d).faults = (if d.isSome then s.faults else s.faults.add .uninitRead) := by cases d <;> rfl
@[simp] theorem State.replyCell_reply (s : State) (d : Option HostData) : (s.replyCell d).reply = d := by cases d <;> rfl
@[simp] theorem State.replyCell_moves (s : State) (d : Option HostData) : (s.replyCell d).moves = s.moves := by cases d <;> rfl
@[simp] theorem State.replyCell_freeSeed (s : State) (d : Option HostData) : (s.replyCell d).freeSeed = s.freeSeed := by cases d <;> rfl

/-! ### `State.hostReset` -/

@[simp] theorem State.hostReset_cfg (s : State) : (s.hostReset).cfg = s.cfg := rfl
@[simp] theorem State.hostReset_cmd (s : State) : (s.hostReset).cmd = 0 := rfl
@[simp] theorem State.hostReset_status (s : State) : (s.hostReset).status = Status.idle := rfl
@[simp] theorem State.hostReset_byteLen (s : State) : (s.hostReset).byteLen = 0 := rfl
@[simp] theorem State.hostReset_gapCount (s : State) : (s.hostReset).gapCount = 0 := rfl
@[simp] theorem State.hostReset_packLen (s : State) : (s.hostReset).packLen = 0 := rfl
@[simp] theorem State.hostReset_bParam (s : State) : (s.hostReset).bParam = 0 := rfl
@[simp] theorem State.hostReset_zeroCount (s : State) : (s.hostReset).zeroCount = 0 := rfl
@[simp] theorem State.hostReset_packBits (s : State) : (s.hostReset).packBits = 0 := rfl
@[simp] theorem State.hostReset_bytes (s : State) : (s.hostReset).bytes = [] := rfl
@[simp] theorem State.hostReset_gaps (s : State) : (s.hostReset).gaps = [] := rfl
@[simp] theorem State.hostReset_packed (s : State) : (s.hostReset).packed = [] := rfl
@[simp] theorem State.hostReset_latch (s : State) : (s.hostReset).latch = none := rfl
@[simp] theorem State.hostReset_faults (s : State) : (s.hostReset).faults = s.faults := rfl
@[simp] theorem State.hostReset_reply (s : State) : (s.hostReset).reply = none := rfl
@[simp] theorem State.hostReset_moves (s : State) : (s.hostReset).moves = s.moves := rfl
@[simp] theorem State.hostReset_freeSeed (s : State) : (s.hostReset).freeSeed = s.freeSeed := rfl

/-! ### `State.cleanup` and `State.raise` (R202, R203) -/

@[simp] theorem State.cleanup_cfg (s : State) (i : Instr) : (s.cleanup i).cfg = s.cfg := by cases i <;> rfl
@[simp] theorem State.cleanup_cmd (s : State) (i : Instr) : (s.cleanup i).cmd = s.cmd := by cases i <;> rfl
@[simp] theorem State.cleanup_status (s : State) (i : Instr) : (s.cleanup i).status = s.status := by cases i <;> rfl
@[simp] theorem State.cleanup_latch (s : State) (i : Instr) : (s.cleanup i).latch = s.latch := by cases i <;> rfl
@[simp] theorem State.cleanup_faults (s : State) (i : Instr) : (s.cleanup i).faults = s.faults := by cases i <;> rfl
@[simp] theorem State.cleanup_reply (s : State) (i : Instr) : (s.cleanup i).reply = s.reply := by cases i <;> rfl
@[simp] theorem State.cleanup_moves (s : State) (i : Instr) : (s.cleanup i).moves = s.moves := by cases i <;> rfl
@[simp] theorem State.cleanup_freeSeed (s : State) (i : Instr) : (s.cleanup i).freeSeed = s.freeSeed := by cases i <;> rfl

@[simp] theorem State.raise_cfg (s : State) (i : Instr) (e : ErrorCode) : (s.raise i e).cfg = s.cfg := by cases i <;> rfl
@[simp] theorem State.raise_cmd (s : State) (i : Instr) (e : ErrorCode) : (s.raise i e).cmd = s.cmd := by cases i <;> rfl
@[simp] theorem State.raise_status (s : State) (i : Instr) (e : ErrorCode) : (s.raise i e).status = Status.failed e := by cases i <;> rfl
@[simp] theorem State.raise_byteLen (s : State) (i : Instr) (e : ErrorCode) : (s.raise i e).byteLen = (s.cleanup i).byteLen := by cases i <;> rfl
@[simp] theorem State.raise_gapCount (s : State) (i : Instr) (e : ErrorCode) : (s.raise i e).gapCount = (s.cleanup i).gapCount := by cases i <;> rfl
@[simp] theorem State.raise_packLen (s : State) (i : Instr) (e : ErrorCode) : (s.raise i e).packLen = (s.cleanup i).packLen := by cases i <;> rfl
@[simp] theorem State.raise_bParam (s : State) (i : Instr) (e : ErrorCode) : (s.raise i e).bParam = (s.cleanup i).bParam := by cases i <;> rfl
@[simp] theorem State.raise_zeroCount (s : State) (i : Instr) (e : ErrorCode) : (s.raise i e).zeroCount = (s.cleanup i).zeroCount := by cases i <;> rfl
@[simp] theorem State.raise_packBits (s : State) (i : Instr) (e : ErrorCode) : (s.raise i e).packBits = (s.cleanup i).packBits := by cases i <;> rfl
@[simp] theorem State.raise_bytes (s : State) (i : Instr) (e : ErrorCode) : (s.raise i e).bytes = (s.cleanup i).bytes := by cases i <;> rfl
@[simp] theorem State.raise_gaps (s : State) (i : Instr) (e : ErrorCode) : (s.raise i e).gaps = (s.cleanup i).gaps := by cases i <;> rfl
@[simp] theorem State.raise_packed (s : State) (i : Instr) (e : ErrorCode) : (s.raise i e).packed = (s.cleanup i).packed := by cases i <;> rfl
@[simp] theorem State.raise_latch (s : State) (i : Instr) (e : ErrorCode) : (s.raise i e).latch = none := by cases i <;> rfl
@[simp] theorem State.raise_faults (s : State) (i : Instr) (e : ErrorCode) : (s.raise i e).faults = s.faults := by cases i <;> rfl
@[simp] theorem State.raise_reply (s : State) (i : Instr) (e : ErrorCode) : (s.raise i e).reply = s.reply := by cases i <;> rfl
@[simp] theorem State.raise_moves (s : State) (i : Instr) (e : ErrorCode) : (s.raise i e).moves = s.moves := by cases i <;> rfl
@[simp] theorem State.raise_freeSeed (s : State) (i : Instr) (e : ErrorCode) : (s.raise i e).freeSeed = s.freeSeed := by cases i <;> rfl

end Sys2Proof.Machine
end

