-- ==== Sys2Proof/Laws/Exec.lean ====
section
/-! SUPPORT. Everything a command can do, and what it reads: the inversion of `exec`, and the source buffers of a state. -/

namespace Sys2Proof.Laws

open Sys2Proof.Machine Sys2Proof.Claims

/-! ### Everything a command can do -/

/-- The stores of a command that succeeds, from the state `s` on. -/
def Stored (s t : State) : Instr → Prop
  | .rltLookup _ | .rleEnc | .grDec =>
    ∃ vs : List Word, t = (s.putGaps (Mem.writeList s.gaps 0 vs) vs.length).complete
  | .rleDec => ∃ vs : List Byte, t = (s.putBytes (Mem.writeList s.bytes 0 vs) vs.length).complete
  | .density => ∃ b z, t = (s.putDensity b z).complete
  | .grEnc => ∃ m bits len, t = (s.putPacked m bits len).complete
  | .golombEnc => ∃ (vs : List Word) (b z : Nat) (m : Mem 8) (bits len : Nat),
      t = (((s.putGaps (Mem.writeList s.gaps 0 vs) vs.length).putDensity b z).putPacked m bits len).complete
  | .golombDec => ∃ (vs : List Word) (bs : List Byte),
      t = ((s.putGaps (Mem.writeList s.gaps 0 vs) vs.length).putBytes (Mem.writeList s.bytes 0 bs) bs.length).complete
  | .illegal _ => False

/-- A command ends with an error or with its stores, its reads noted, and it always ends so. -/
theorem exec_ends (i : Instr) (s : State) :
    ∃ t ok, exec i s = .next t ∧ ((∃ e, t = (s.noteReads ok).raise i e) ∨ Stored (s.noteReads ok) t i) := by
  have h0 : s.noteReads true = s := rfl
  cases i with
  | rltLookup v =>
    exact ⟨_, true, rfl, .inr ⟨toWords (rlt v), by rw [h0, length_toWords]⟩⟩
  | rleEnc =>
    simp only [exec, execRleEnc]
    split
    · exact ⟨_, true, rfl, .inl ⟨_, by rw [h0]⟩⟩
    · exact ⟨_, _, rfl, .inr ⟨toWords (rleEncode s.srcBytes), by rw [length_toWords]⟩⟩
  | rleDec =>
    simp only [exec, execRleDec]
    split
    · exact ⟨_, true, rfl, .inl ⟨_, by rw [h0]⟩⟩
    · split
      · exact ⟨_, true, rfl, .inl ⟨_, by rw [h0]⟩⟩
      · split
        · exact ⟨_, _, rfl, .inl ⟨_, rfl⟩⟩
        · exact ⟨_, _, rfl, .inr ⟨_, rfl⟩⟩
  | density =>
    simp only [exec, execDensity]
    split
    · exact ⟨_, true, rfl, .inl ⟨_, by rw [h0]⟩⟩
    · split
      · exact ⟨_, _, rfl, .inl ⟨_, rfl⟩⟩
      · exact ⟨_, _, rfl, .inr ⟨_, _, rfl⟩⟩
  | grEnc =>
    simp only [exec, execGrEnc]
    split
    · exact ⟨_, true, rfl, .inl ⟨_, by rw [h0]⟩⟩
    · split
      · exact ⟨_, true, rfl, .inl ⟨_, by rw [h0]⟩⟩
      · split
        · exact ⟨_, true, rfl, .inl ⟨_, by rw [h0]⟩⟩
        · split
          · exact ⟨_, _, rfl, .inl ⟨_, rfl⟩⟩
          · exact ⟨_, _, rfl, .inr ⟨_, _, _, rfl⟩⟩
  | grDec =>
    simp only [exec, execGrDec]
    split
    · exact ⟨_, true, rfl, .inl ⟨_, by rw [h0]⟩⟩
    · split
      · exact ⟨_, true, rfl, .inl ⟨_, by rw [h0]⟩⟩
      · split
        · exact ⟨_, true, rfl, .inl ⟨_, by rw [h0]⟩⟩
        · split
          · exact ⟨_, _, rfl, .inl ⟨_, rfl⟩⟩
          · exact ⟨_, _, rfl, .inr ⟨toWords _, by rw [length_toWords]⟩⟩
  | golombEnc =>
    simp only [exec, execGolombEnc]
    split
    · exact ⟨_, true, rfl, .inl ⟨_, by rw [h0]⟩⟩
    · split
      · exact ⟨_, _, rfl, .inl ⟨_, rfl⟩⟩
      · split
        · exact ⟨_, _, rfl, .inl ⟨_, rfl⟩⟩
        · exact ⟨_, _, rfl, .inr ⟨toWords _, _, _, _, _, _, by rw [length_toWords]⟩⟩
  | golombDec =>
    simp only [exec, execGolombDec]
    split
    · exact ⟨_, true, rfl, .inl ⟨_, by rw [h0]⟩⟩
    · split
      · exact ⟨_, true, rfl, .inl ⟨_, by rw [h0]⟩⟩
      · split
        · exact ⟨_, true, rfl, .inl ⟨_, by rw [h0]⟩⟩
        · split
          · exact ⟨_, _, rfl, .inl ⟨_, rfl⟩⟩
          · split
            · exact ⟨_, _, rfl, .inl ⟨_, rfl⟩⟩
            · exact ⟨_, _, rfl, .inr ⟨toWords _, _, by rw [length_toWords]; rfl⟩⟩
  | illegal w => exact ⟨_, true, rfl, .inl ⟨_, by rw [h0]⟩⟩

/-- The inversion of `exec`: what holds of any next state it answers. -/
theorem exec_cases {i : Instr} {s t : State} (h : exec i s = .next t) :
    ∃ ok, (∃ e, t = (s.noteReads ok).raise i e) ∨ Stored (s.noteReads ok) t i := by
  obtain ⟨t', ok, h1, h2⟩ := exec_ends i s
  rw [h] at h1
  cases h1
  exact ⟨ok, h2⟩

/-! ### Source buffers (R33) -/

theorem words_eq_toWords (l : List Nat) : words l = toWords l := rfl

/-- What a command reads from a state whose `BYTES` hold `src`. -/
theorem srcBytes_of_holds {s : State} {src : List Byte} (h : HoldsBytes s src) :
    s.srcBytes = src ∧ s.srcBytesWritten = true := by
  obtain ⟨h1, h2⟩ := h
  simp only [State.srcBytes, State.srcBytesWritten, h1]
  exact ⟨Mem.prefixOr_of_holds _ h2, Mem.written_of_holds h2⟩

/-- What a command reads from a state whose `GAPS` hold `g`. -/
theorem srcGaps_of_holds {s : State} {g : List Nat} (h : HoldsGaps s g) :
    s.srcGaps = g ∧ s.srcGapsWritten = true := by
  obtain ⟨h1, h2, h3⟩ := h
  have hl : s.gapCount.toNat = (toWords g).length := by rw [h1, length_toWords]
  have h3 : ∀ i < (toWords g).length, Mem.read s.gaps i = (toWords g)[i]? := by
    rw [length_toWords]; exact h3
  simp only [State.srcGaps, State.srcGapsWritten, hl]
  exact ⟨by rw [Mem.prefixOr_of_holds _ h3, toNat_toWords h2], Mem.written_of_holds h3⟩

/-- What a command reads from a state whose `PACKED` holds `ps`. -/
theorem srcPacked_of_holds {s : State} {ps : List Byte} (h : HoldsPacked s ps) :
    s.srcPacked = ps ∧ s.srcPackedWritten = true := by
  obtain ⟨h1, h2⟩ := h
  simp only [State.srcPacked, State.srcPackedWritten, h1]
  exact ⟨Mem.prefixOr_of_holds _ h2, Mem.written_of_holds h2⟩

/-- A block write from cell 0 on, in the words of the claims. -/
theorem wrote_writeList {n : Nat} (m : Mem n) (vs : List (BitVec n)) : Wrote (Mem.writeList m 0 vs) m vs :=
  fun i => Mem.read_writeList_zero vs m i

/-! ### The turn of the engine -/

theorem pending_of_busy {s : State} {w : Word} (h : s.status.busy = true) (hl : s.latch = some w) :
    s.pending = some w := by simp [State.pending, h, hl]

theorem engineStep_pending {s : State} {w : Word} (h : s.pending = some w) : engineStep s = exec (decode w) s := by
  simp [engineStep, h]

theorem engineStep_idle {s : State} (h : s.status.busy = false) : engineStep s = .next s := by
  simp [engineStep, State.pending, h]

end Sys2Proof.Laws
end

