-- ==== Sys2Proof/Laws/GolombRice.lean ====
section
/-! SUPPORT. What the Golomb-Rice encoder and decoder compute: the symbol codes of R162, and the decoding of a stream of them (R172, R173). -/

namespace Sys2Proof.Laws

open Sys2Proof.Machine Sys2Proof.Claims

/-! ### `ceil_log2` (R16) -/

theorem ceilLog2From_spec (b : Nat) (fuel k m : Nat) (hm : b ≤ 2 ^ m) (hk : k ≤ m) (hf : m ≤ k + fuel) :
    k ≤ ceilLog2From b fuel k ∧ ceilLog2From b fuel k ≤ m ∧ b ≤ 2 ^ ceilLog2From b fuel k ∧
      ∀ j, k ≤ j → j < ceilLog2From b fuel k → ¬ b ≤ 2 ^ j := by
  induction fuel generalizing k with
  | zero =>
    have : k = m := by omega
    subst this
    exact ⟨Nat.le_refl _, Nat.le_refl _, hm, fun j h1 h2 => by simp only [ceilLog2From] at h2; omega⟩
  | succ fuel ih =>
    simp only [ceilLog2From]
    split
    · rename_i h
      exact ⟨Nat.le_refl _, hk, h, fun j h1 h2 => by omega⟩
    · rename_i h
      have hkm : k + 1 ≤ m := by
        rcases Nat.lt_or_ge k m with h' | h'
        · exact h'
        · have : k = m := by omega
          subst this; exact absurd hm h
      obtain ⟨h1, h2, h3, h4⟩ := ih (k + 1) hkm (by omega)
      refine ⟨by omega, h2, h3, fun j hj hj' => ?_⟩
      rcases Nat.lt_or_ge k j with h' | h'
      · exact h4 j h' hj'
      · have : j = k := by omega
        subst this; exact h

/-- `ceil_log2` is the least `k` with `2^k >= b` (R16). -/
theorem ceilLog2_eq_clog (b : Nat) : ceilLog2 b = Nat.clog 2 b := by
  obtain ⟨-, -, h3, h4⟩ := ceilLog2From_spec b b 0 b (Nat.lt_two_pow_self).le (Nat.zero_le _) (by omega)
  apply Nat.le_antisymm
  · by_contra hlt
    exact h4 _ (Nat.zero_le _) (by rw [ceilLog2] at hlt; omega) (Nat.le_pow_clog (by omega) b)
  · exact Nat.clog_le_of_le_pow h3

/-! ### The symbol's fields (R162) -/

/-- The quotient and remainder of R162: `1 <= r <= b` and `v = r + q*b`. -/
theorem quotient_remainder {v b : Nat} (hv : 1 ≤ v) (hb : 1 ≤ b) :
    1 ≤ v - (v - 1) / b * b ∧ v - (v - 1) / b * b ≤ b ∧ v - (v - 1) / b * b + (v - 1) / b * b = v := by
  have h1 := Nat.div_add_mod (v - 1) b
  have h2 := Nat.mod_lt (v - 1) hb
  rw [Nat.mul_comm] at h1
  omega

/-- R162 (a): `d < 2^(k-1)` when `k >= 1`, and `2^k = b + d`. -/
theorem clog_bounds {b : Nat} (hb : 1 ≤ b) :
    b ≤ 2 ^ Nat.clog 2 b ∧ (Nat.clog 2 b ≠ 0 → 2 ^ Nat.clog 2 b = 2 * 2 ^ (Nat.clog 2 b - 1) ∧
      2 ^ (Nat.clog 2 b - 1) < b) ∧ (Nat.clog 2 b = 0 → b = 1) := by
  have h1 := Nat.le_pow_clog (b := 2) (by omega) b
  refine ⟨h1, fun h => ⟨?_, ?_⟩, fun h => ?_⟩
  · rw [← pow_succ']; congr 1; omega
  · by_contra hlt
    have := Nat.clog_le_of_le_pow (b := 2) (x := b) (y := Nat.clog 2 b - 1) (by omega)
    omega
  · rw [h] at h1; simp at h1; omega

/-! ### The encoder -/

/-- `EncodeSymbol` (R162) appends the symbol's code. -/
theorem emits_encodeSymbol (cap v b : Nat) : Emits cap (encodeSymbol cap v b) (symbolCode b v) := by
  rw [symbolCode]
  refine emits_seq (g := fun w => if 2 ^ ceilLog2 b - b < v - (v - 1) / b * b
      then putBits cap (ceilLog2 b) (v - (v - 1) / b * b - 1 + (2 ^ ceilLog2 b - b)) w
      else putBits cap (ceilLog2 b - 1) (v - (v - 1) / b * b - 1) w)
    (emits_putUnary cap ((v - 1) / b)) ?_ (fun w w1 h => by simp [encodeSymbol, h]) (fun w e h => by simp [encodeSymbol, h])
  simp only [remainderCode, ceilLog2_eq_clog]
  split
  · exact emits_putBits _ _ _
  · exact emits_putBits _ _ _

theorem streamOf_cons (b v : Nat) (g : List Nat) : streamOf b (v :: g) = symbolCode b v ++ streamOf b g := rfl

theorem streamOf_append (b : Nat) (g g' : List Nat) : streamOf b (g ++ g') = streamOf b g ++ streamOf b g' := by
  simp [streamOf]

/-- The encoder's loop (R160) over entries that are not 0 appends their stream. -/
theorem emits_encodeSymbols (cap b : Nat) {g : List Nat} (hg : ∀ v ∈ g, 1 ≤ v) :
    Emits cap (encodeSymbols cap b g) (streamOf b g) := by
  induction g with
  | nil => exact emits_nil cap
  | cons v g ih =>
    have hv : ¬ v = 0 := by have := hg v (by simp); omega
    rw [streamOf_cons]
    refine emits_seq (emits_encodeSymbol cap v b) (ih fun w hw => hg w (List.mem_cons_of_mem _ hw))
      (fun w w1 h => ?_) (fun w e h => ?_) <;> simp [encodeSymbols, hv, h]

/-- The entries before the point at which the loop stops. -/
theorem encodeSymbols_append (cap b : Nat) (g g' : List Nat) (w : Writer) :
    encodeSymbols cap b (g ++ g') w
      = match encodeSymbols cap b g w with
        | .error e => .error e
        | .ok w1 => encodeSymbols cap b g' w1 := by
  induction g generalizing w with
  | nil => rfl
  | cons v g ih =>
    simp only [List.cons_append, encodeSymbols]
    split
    · rfl
    · split
      · rfl
      · exact ih _

/-- The packing of a sequence without 0 (R160, R163): its stream where it fits `PACKED`. -/
theorem grEncode_spec (cap b : Nat) {g : List Nat} (hg : ∀ v ∈ g, 1 ≤ v) (m : Mem 8) :
    ((streamOf b g).length ≤ 8 * cap → ∃ w, grEncode cap b g m = .ok w ∧ Holds w m (streamOf b g)) ∧
    (8 * cap < (streamOf b g).length → grEncode cap b g m = .error .allocationFailure) := by
  have := emits_encodeSymbols cap b hg _ m [] (holds_start m) (Nat.zero_le _)
  simpa [grEncode] using this

/-- A 0 entry met after symbols that fit is MalformedStream (R161). -/
theorem grEncode_zero (cap b : Nat) {g g' : List Nat} (hg : ∀ v ∈ g, 1 ≤ v) (m : Mem 8)
    (hl : (streamOf b g).length ≤ 8 * cap) : grEncode cap b (g ++ 0 :: g') m = .error .malformedStream := by
  obtain ⟨w, h, -⟩ := (grEncode_spec cap b hg m).1 hl
  rw [grEncode] at h ⊢
  rw [encodeSymbols_append, h]
  rfl

/-- A symbol that does not fit is AllocationFailure, whatever follows it (R161, R163). -/
theorem grEncode_full (cap b : Nat) {g g' : List Nat} (hg : ∀ v ∈ g, 1 ≤ v) (m : Mem 8)
    (hl : 8 * cap < (streamOf b g).length) : grEncode cap b (g ++ g') m = .error .allocationFailure := by
  have h := (grEncode_spec cap b hg m).2 hl
  rw [grEncode] at h ⊢
  rw [encodeSymbols_append, h]

/-! ### The decoder on a symbol -/

/-- `DecodeSymbol` (R173) reads back the value whose code is ahead. -/
theorem decodeSymbol_ahead {src : List Byte} {lim b v : Nat} {c : Cursor} {rest : List Bool}
    (hv : 1 ≤ v) (hb : 1 ≤ b) (h : Ahead src lim c (symbolCode b v ++ rest)) :
    ∃ c', decodeSymbol src lim b c = .ok (v, c') ∧ Ahead src lim c' rest ∧
      c'.pos = c.pos + (symbolCode b v).length := by
  obtain ⟨hr1, hrb, hqr⟩ := quotient_remainder hv hb
  obtain ⟨hk1, hk2, hk3⟩ := clog_bounds hb
  set q := (v - 1) / b with hq
  set r := v - q * b with hr
  set k := Nat.clog 2 b with hk
  have hcode : symbolCode b v = List.replicate q true ++ [false] ++ remainderCode b r := rfl
  rw [hcode, List.append_assoc, List.append_assoc] at h
  obtain ⟨c1, h1, h2, h3⟩ := getUnary_ahead h
  rw [hcode]
  simp only [List.length_append, List.length_replicate, List.length_singleton]
  simp only [decodeSymbol, h1, ceilLog2_eq_clog, ← hk]
  by_cases hk0 : k = 0
  · have hb1 := hk3 hk0
    have hrem : remainderCode b r = [] := by
      simp only [remainderCode, hb1]
      split <;> rfl
    rw [hrem] at h2 ⊢
    refine ⟨c1, ?_, h2, by simpa using h3⟩
    rw [if_pos hk0]
    congr 2; omega
  · obtain ⟨hk4, hk5⟩ := hk2 hk0
    rw [if_neg hk0]
    set d := 2 ^ k - b with hd
    have hdlt : d < 2 ^ (k - 1) := by omega
    by_cases hlong : d < r
    · have hrem : remainderCode b r = fieldBits k (r - 1 + d) := by
        simp only [remainderCode, ← hk, ← hd, if_pos hlong]
      rw [hrem] at h2 ⊢
      -- the first `k - 1` bits of the long form, then its last bit
      have hsplit : fieldBits k (r - 1 + d)
          = fieldBits (k - 1) ((r - 1 + d) / 2) ++ [(r - 1 + d).testBit 0] := by
        obtain ⟨k', hk'⟩ : ∃ k', k = k' + 1 := ⟨k - 1, by omega⟩
        rw [hk', Nat.add_sub_cancel]
        simp only [fieldBits, List.range_succ, List.map_append, List.map_singleton, Nat.add_sub_cancel, Nat.sub_self]
        congr 1
        refine List.map_congr_left fun i hi => ?_
        have := List.mem_range.1 hi
        rw [show k' - i = (k' - 1 - i) + 1 by omega, Nat.testBit_succ]
      rw [hsplit, List.append_assoc] at h2
      obtain ⟨c2, h4, h5, h6⟩ := getBits_ahead h2 (by omega)
      obtain ⟨h7, h8, h9⟩ := getBit_ahead h5
      simp only [h4]
      have hx : d < (r - 1 + d) / 2 + 1 := by omega
      have hbit : ((r - 1 + d).testBit 0).toNat = (r - 1 + d) % 2 := by
        rw [Nat.testBit_zero]
        rcases Nat.mod_two_eq_zero_or_one (r - 1 + d) with h | h <;> simp [h]
      rw [if_pos hx, h7]
      refine ⟨c2.advance, ?_, h8, by simp only [length_fieldBits]; omega⟩
      simp only [hbit]
      congr 2; omega
    · have hrem : remainderCode b r = fieldBits (k - 1) (r - 1) := by
        simp only [remainderCode, ← hk, ← hd, if_neg hlong]
      rw [hrem] at h2 ⊢
      obtain ⟨c2, h4, h5, h6⟩ := getBits_ahead h2 (by omega)
      simp only [h4]
      have hx : ¬ d < r - 1 + 1 := by omega
      rw [if_neg hx]
      refine ⟨c2, ?_, h5, by simp only [length_fieldBits]; omega⟩
      congr 2; omega

/-- Every symbol has a bit. -/
theorem length_symbolCode_pos (b v : Nat) : 1 ≤ (symbolCode b v).length := by
  exact List.length_pos_of_mem (a := false) (by simp [symbolCode])

/-- A symbol with no 1 bit is the value 1 (R172). -/
theorem eq_one_of_symbolCode_zero {b v : Nat} (hv : 1 ≤ v) (hb : 1 ≤ b) (h : ∀ x ∈ symbolCode b v, x = false) :
    v = 1 := by
  obtain ⟨hr1, hrb, hqr⟩ := quotient_remainder hv hb
  obtain ⟨hk1, hk2, hk3⟩ := clog_bounds hb
  have hq : (v - 1) / b = 0 := by
    by_contra hne
    have : true ∈ symbolCode b v := by
      simp only [symbolCode, List.mem_append, List.mem_replicate]
      exact .inl (.inl ⟨hne, trivial⟩)
    simpa using h true this
  have hfield : ∀ n x, x < 2 ^ n → (∀ y ∈ fieldBits n x, y = false) → x = 0 := by
    intro n x hx hz
    apply Nat.eq_of_testBit_eq
    intro i
    rw [Nat.zero_testBit]
    by_cases hi : i < n
    · refine hz _ (List.mem_map.2 ⟨n - 1 - i, List.mem_range.2 (by omega), ?_⟩)
      congr 1; omega
    · exact Nat.testBit_lt_two_pow (Nat.lt_of_lt_of_le hx (Nat.pow_le_pow_right (by omega) (by omega)))
  have hrem : ∀ y ∈ remainderCode b (v - (v - 1) / b * b), y = false := fun y hy =>
    h y (List.mem_append_right _ hy)
  simp only [hq, Nat.zero_mul, Nat.sub_zero] at hrem hr1 hrb
  by_cases hk0 : Nat.clog 2 b = 0
  · have := hk3 hk0; omega
  · obtain ⟨hk4, hk5⟩ := hk2 hk0
    simp only [remainderCode] at hrem
    split at hrem
    · have := hfield _ _ (by omega) hrem; omega
    · have := hfield _ _ (by omega) hrem; omega

/-! ### The decoder on a stream -/

/-- At the end of the symbols only the pad is ahead, so `RestIsPad` holds (R119). -/
theorem restIsPad_ahead {src : List Byte} {lim : Nat} {c : Cursor} {bits : List Bool}
    (h : Ahead src lim c bits) (hl : c.pos + bits.length = lim) :
    restIsPad src lim c = true ↔ bits.length < 8 ∧ ∀ x ∈ bits, x = false := by
  have hlen : lim - c.pos = bits.length := by omega
  simp only [restIsPad, hlen, Bool.and_eq_true, decide_eq_true_eq, List.all_eq_true, List.mem_range,
    Bool.not_eq_true']
  refine and_congr Iff.rfl ⟨fun hz x hx => ?_, fun hz t ht => ?_⟩
  · obtain ⟨t, ht, rfl⟩ := List.mem_iff_getElem.1 hx
    have := h.2.2 t ht
    rw [List.getElem?_eq_getElem ht, Option.some.injEq] at this
    rw [this, hz t ht]
  · have := h.2.2 t ht
    rw [List.getElem?_eq_getElem ht, Option.some.injEq] at this
    rw [← this]
    exact hz _ (List.getElem_mem ht)

/-- The argument of R172: a rest of a sequence whose symbols fit fewer than 8 zero bits does not have a
sum that is a multiple of 8, unless it is empty. -/
theorem rest_not_pad {b : Nat} (hb : 1 ≤ b) {g : List Nat} (hg : ∀ v ∈ g, 1 ≤ v)
    (hz : ∀ x ∈ streamOf b g, x = false) (hl : (streamOf b g).length < 8) (hs : g.sum % 8 = 0) : g = [] := by
  have key : ∀ g : List Nat, (∀ v ∈ g, 1 ≤ v) → (∀ x ∈ streamOf b g, x = false) →
      g.sum = g.length ∧ g.length ≤ (streamOf b g).length := by
    intro g hg hz
    induction g with
    | nil => simp [streamOf]
    | cons v g ih =>
      rw [streamOf_cons] at hz ⊢
      obtain ⟨h1, h2⟩ := ih (fun w hw => hg w (List.mem_cons_of_mem _ hw)) fun x hx => hz x (List.mem_append_right _ hx)
      have h3 := eq_one_of_symbolCode_zero (hg v (by simp)) hb fun x hx => hz x (List.mem_append_left _ hx)
      have h4 := length_symbolCode_pos b v
      simp only [List.sum_cons, List.length_cons, List.length_append]
      omega
  obtain ⟨h1, h2⟩ := key g hg hz
  exact List.length_eq_zero_iff.1 (by omega)

/-- The loop of R173 over a stream of symbols and its pad gives the sequence back. -/
theorem decodeSymbols_ahead {src : List Byte} {lim b smax : Nat} (hb : 1 ≤ b) {pad : List Bool}
    (hpad : ∀ x ∈ pad, x = false) (hpl : pad.length < 8) {g : List Nat} {sum fuel : Nat} {c : Cursor}
    (hg : ∀ v ∈ g, 1 ≤ v) (h : Ahead src lim c (streamOf b g ++ pad))
    (hl : c.pos + (streamOf b g ++ pad).length = lim) (hs : (sum + g.sum) % 8 = 0)
    (hm : sum + g.sum ≤ smax) (hf : g.length < fuel) :
    decodeSymbols src lim b smax fuel sum c = .ok g := by
  induction g generalizing sum fuel c with
  | nil =>
    obtain ⟨f, rfl⟩ : ∃ f, fuel = f + 1 := ⟨fuel - 1, by omega⟩
    have := (restIsPad_ahead h hl).2 ⟨by simpa [streamOf] using hpl, by simpa [streamOf] using hpad⟩
    exact if_pos ⟨this, by simpa using hs⟩
  | cons v g ih =>
    obtain ⟨f, rfl⟩ : ∃ f, fuel = f + 1 := ⟨fuel - 1, by omega⟩
    have hgo : ¬ (restIsPad src lim c = true ∧ sum % 8 = 0) := by
      rintro ⟨h1, h2⟩
      obtain ⟨h3, h4⟩ := (restIsPad_ahead h hl).1 h1
      rw [List.length_append] at h3
      have := rest_not_pad hb hg (fun x hx => h4 x (List.mem_append_left _ hx)) (by omega) (by omega)
      simp at this
    have hv := hg v (by simp)
    have hg' : ∀ w ∈ g, 1 ≤ w := fun w hw => hg w (List.mem_cons_of_mem _ hw)
    rw [streamOf_cons, List.append_assoc] at h hl
    obtain ⟨c1, h1, h2, h3⟩ := decodeSymbol_ahead hv hb h
    simp only [List.sum_cons, List.length_cons] at hs hm hf
    simp only [List.length_append] at hl
    have hrec := ih (sum := sum + v) (fuel := f) (c := c1) hg' h2
      (by simp only [List.length_append]; omega) (by omega) (by omega) (by omega)
    simp only [decodeSymbols, if_neg hgo, h1, if_neg (show ¬ smax < sum + v by omega), hrec]

/-- `GrDecodeCore` (R173) on the packed stream of a sequence whose sum is a multiple of 8, within the
bound, gives the sequence back (R172, R177). -/
theorem grDecodeCore_stream (maxLen : Nat) {b : Nat} (hb : 1 ≤ b) {g : List Nat} (hg : ∀ v ∈ g, 1 ≤ v)
    (hs : g.sum % 8 = 0) (hm : g.sum ≤ 8 * (maxLen + 1)) :
    grDecodeCore maxLen b (packBits (streamOf b g)) = .ok g := by
  set bits := streamOf b g with hbits
  set lim := 8 * (packBits bits).length with hlim
  have hlen : lim = 8 * ((bits.length + 7) / 8) := by rw [hlim, length_packBits]
  have hahead : Ahead (packBits bits) lim Cursor.start (bits ++ List.replicate (lim - bits.length) false) := by
    refine ⟨Nat.zero_lt_succ 7, ?_, fun t ht => ?_⟩
    · simp only [List.length_append, List.length_replicate, Cursor.pos, Cursor.start]; omega
    · rw [streamBit_packBits, show Cursor.start.pos = 0 from rfl, Nat.zero_add, List.getD_eq_getElem?_getD]
      simp only [List.length_append, List.length_replicate] at ht
      rcases Nat.lt_or_ge t bits.length with h | h
      · rw [List.getElem?_append_left h, List.getElem?_eq_getElem h]; rfl
      · rw [List.getElem?_append_right h, List.getElem?_eq_none (l := bits) h, List.getElem?_replicate,
          if_pos (by omega)]
        rfl
  have hglen : g.length ≤ bits.length := by
    rw [hbits]
    clear_value bits
    clear hahead hlen hlim lim hbits bits hs hm
    induction g with
    | nil => simp
    | cons v g ih =>
      have := length_symbolCode_pos b v
      have := ih fun w hw => hg w (List.mem_cons_of_mem _ hw)
      rw [streamOf_cons, List.length_append, List.length_cons]; omega
  exact decodeSymbols_ahead hb (by simp) (by simp only [List.length_replicate]; omega) hg hahead
    (by simp only [← hbits, List.length_append, List.length_replicate, Cursor.pos, Cursor.start]; omega)
    (by simpa using hs) (by simpa using hm) (by omega)

/-! ### The decoder's bounds (R175, R176) -/

/-- Every decoded value is at least 1. -/
theorem decodeSymbol_pos {src : List Byte} {lim b v : Nat} {c c' : Cursor}
    (h : decodeSymbol src lim b c = .ok (v, c')) : 1 ≤ v := by
  simp only [decodeSymbol] at h
  split at h
  · cases h
  · split at h
    · cases h; omega
    · split at h
      · cases h
      · split at h
        · split at h
          · cases h
          · cases h; omega
        · cases h; omega

/-- What a successful decode has decoded: values of at least 1, with a total that is a multiple of 8 and
within the bound. -/
theorem decodeSymbols_bounds {src : List Byte} {lim b smax : Nat} {fuel sum : Nat} {c : Cursor} {out : List Nat}
    (h : decodeSymbols src lim b smax fuel sum c = .ok out) (hs : sum ≤ smax) :
    (∀ v ∈ out, 1 ≤ v) ∧ sum + out.sum ≤ smax ∧ (sum + out.sum) % 8 = 0 := by
  induction fuel generalizing sum c out with
  | zero => cases h
  | succ fuel ih =>
    simp only [decodeSymbols] at h
    split at h
    · rename_i hstop
      cases h
      exact ⟨by simp, by simpa using hs, by simpa using hstop.2⟩
    · split at h
      · cases h
      · rename_i v c1 hv
        split at h
        · cases h
        · split at h
          · cases h
          · rename_i out' hout
            cases h
            obtain ⟨h1, h2, h3⟩ := ih hout (by omega)
            have := decodeSymbol_pos hv
            refine ⟨fun w hw => ?_, ?_, ?_⟩
            · rcases List.mem_cons.1 hw with rfl | hw
              · exact this
              · exact h1 w hw
            · simp only [List.sum_cons]; omega
            · simp only [List.sum_cons]; omega

/-- The bounds of R176 on a successful `GrDecodeCore`. -/
theorem grDecodeCore_bounds {maxLen b : Nat} {src : List Byte} {out : List Nat}
    (h : grDecodeCore maxLen b src = .ok out) :
    (∀ v ∈ out, 1 ≤ v) ∧ out.sum ≤ 8 * (maxLen + 1) ∧ out.sum % 8 = 0 := by
  simpa using decodeSymbols_bounds h (Nat.zero_le _)

end Sys2Proof.Laws
end

