-- ==== Sys2Proof/Laws/PerInstr.lean ====
section
/-! SUPPORT. Facts about every command as syntax, one lemma per constructor. -/

namespace Sys2Proof.Laws.RowWord

/-- The word of a well-formed command is matched by the command's own row of opcode_table.json (R82); the
word of an illegal command is matched by none (R83). -/
def Statement (i : Instr) : Prop :=
  i.wellFormed = true →
    match i.matchMask with
    | some (m, k) => encode i &&& k = m
    | none => encode i &&& 0xFFFF00FF ≠ 0x00000001 ∧ ∀ m ∈ [2, 3, 4, 5, 6, 7, 8], encode i ≠ BitVec.ofNat 32 m

theorem rltLookup (arg : Byte) : Statement (.rltLookup arg) := by
  intro _
  have : ∀ v : Byte, ((v.setWidth 32 <<< 8) ||| 0x1) &&& 0xFFFF00FF = 0x00000001#32 := by decide
  exact this arg

theorem rleEnc : Statement .rleEnc := fun _ => rfl

theorem rleDec : Statement .rleDec := fun _ => rfl

theorem density : Statement .density := fun _ => rfl

theorem grEnc : Statement .grEnc := fun _ => rfl

theorem grDec : Statement .grDec := fun _ => rfl

theorem golombEnc : Statement .golombEnc := fun _ => rfl

theorem golombDec : Statement .golombDec := fun _ => rfl

/-- A mask that keeps the bits of a field does not change the field. -/
theorem extract_and {w k : Word} {a n : Nat} (h : ∀ i < n, k.getLsbD (a + i) = true) :
    (w &&& k).extractLsb' a n = w.extractLsb' a n := by
  apply BitVec.eq_of_getLsbD_eq
  intro i hi
  simp [hi, h i hi]

theorem illegal (w : Word) : Statement (.illegal w) := by
  intro h
  have h : wordIsIllegal w = true := h
  refine ⟨fun he => ?_, fun m hm he => ?_⟩
  · have he : w &&& 0xFFFF00FF = 1 := he
    have h0 : w.extractLsb' 0 4 = 1 := by
      rw [← extract_and (k := 0xFFFF00FF) (by decide), he]; decide
    have h1 : w.extractLsb' 4 4 = 0 := by
      rw [← extract_and (k := 0xFFFF00FF) (by decide), he]; decide
    have h2 : w.extractLsb' 16 16 = 0 := by
      rw [← extract_and (k := 0xFFFF00FF) (by decide), he]; decide
    simp [wordIsIllegal, h0, h1, h2] at h
  · have he : w = BitVec.ofNat 32 m := he
    subst he
    revert h
    revert m
    decide

end Sys2Proof.Laws.RowWord
end

