-- ==== Sys2Proof/Laws/RunLength.lean ====
section
/-! SUPPORT. What the run-length encoder and decoder compute: the closed forms of R134 and R143. -/

namespace Sys2Proof.Laws

open Sys2Proof.Machine Sys2Proof.Claims

/-! ### Scanning a bit list with a running count -/

/-- The gaps that end inside `bits`, when `run` zeros came before. -/
def gapScan (run : Nat) : List Bool → List Nat
  | [] => []
  | true :: bs => (run + 1) :: gapScan 0 bs
  | false :: bs => gapScan (run + 1) bs

/-- The zeros at the end of `bits`, with the `run` zeros before it if it has no 1. -/
def trailRun (run : Nat) : List Bool → Nat
  | [] => run
  | true :: bs => trailRun 0 bs
  | false :: bs => trailRun (run + 1) bs

theorem gapScan_append (run : Nat) (bs cs : List Bool) :
    gapScan run (bs ++ cs) = gapScan run bs ++ gapScan (trailRun run bs) cs := by
  induction bs generalizing run with
  | nil => rfl
  | cons b bs ih => cases b <;> simp [gapScan, trailRun, ih]

theorem trailRun_append (run : Nat) (bs cs : List Bool) :
    trailRun run (bs ++ cs) = trailRun (trailRun run bs) cs := by
  induction bs generalizing run with
  | nil => rfl
  | cons b bs ih => cases b <;> simp [trailRun, ih]

theorem gapScan_pos (run : Nat) (bs : List Bool) : ∀ v ∈ gapScan run bs, 1 ≤ v := by
  induction bs generalizing run with
  | nil => simp [gapScan]
  | cons b bs ih =>
    cases b
    · exact ih _
    · intro v hv
      rcases List.mem_cons.1 hv with rfl | hv
      · omega
      · exact ih _ v hv

theorem sum_gapScan (run : Nat) (bs : List Bool) :
    (gapScan run bs).sum + trailRun run bs = run + bs.length := by
  induction bs generalizing run with
  | nil => simp [gapScan, trailRun]
  | cons b bs ih =>
    cases b
    · have := ih (run + 1)
      simp only [gapScan, trailRun, List.length_cons]; omega
    · have := ih 0
      simp only [gapScan, trailRun, List.length_cons, List.sum_cons]; omega

theorem length_gapScan (run : Nat) (bs : List Bool) : (gapScan run bs).length = bs.count true := by
  induction bs generalizing run with
  | nil => rfl
  | cons b bs ih => cases b <;> simp [gapScan, ih]

/-! ### The closed form is the scan -/

/-- The positions of the 1 bits, counted on from `p`. -/
def onesFrom (p : Nat) : List Bool → List Nat
  | [] => []
  | b :: bs => if b then (p + 1) :: onesFrom (p + 1) bs else onesFrom (p + 1) bs

theorem map_filter_range_eq_onesFrom (p : Nat) (bs : List Bool) :
    ((List.range bs.length).filter fun t => bs.getD t false).map (p + · + 1) = onesFrom p bs := by
  induction bs generalizing p with
  | nil => rfl
  | cons b bs ih =>
    rw [List.length_cons, List.range_succ_eq_map]
    have key : ((List.map Nat.succ (List.range bs.length)).filter fun t => (b :: bs).getD t false).map (p + · + 1)
        = onesFrom (p + 1) bs := by
      rw [← ih, List.filter_map, List.map_map]
      congr 1
      · funext t; simp only [Function.comp]; omega
    cases b
    · rw [List.filter_cons_of_neg (by simp)]
      simpa [onesFrom] using key
    · rw [List.filter_cons_of_pos (by simp), List.map_cons, key]
      simp [onesFrom]

theorem onePositions_eq (bs : List Bool) : onePositions bs = onesFrom 0 bs := by
  rw [← map_filter_range_eq_onesFrom]
  simp [onePositions]

theorem zipWith_onesFrom (p q : Nat) (bs : List Bool) (h : q ≤ p) :
    List.zipWith (· - ·) (onesFrom p bs) (q :: onesFrom p bs) = gapScan (p - q) bs := by
  induction bs generalizing p q with
  | nil => rfl
  | cons b bs ih =>
    cases b
    · have := ih (p + 1) q (by omega)
      simpa [onesFrom, gapScan, show p + 1 - q = p - q + 1 by omega] using this
    · have := ih (p + 1) (p + 1) (Nat.le_refl _)
      simp only [onesFrom, if_true, List.zipWith_cons_cons, gapScan]
      rw [this, Nat.sub_self, show p + 1 - q = p - q + 1 by omega]

theorem differences_onePositions (bs : List Bool) : differences (onePositions bs) = gapScan 0 bs := by
  rw [onePositions_eq, differences, zipWith_onesFrom 0 0 bs (Nat.le_refl _)]

/-! ### One byte's entry and its splice (R100, R132) -/

/-- R100 in terms of the scan: the gaps inside the byte, then the unterminated run and the flag. -/
theorem rltScan_eq (run : Nat) (bs : List Bool) :
    rltScan run bs = gapScan run bs ++ (if 0 < trailRun run bs then [trailRun run bs, 0] else []) := by
  induction bs generalizing run with
  | nil => rfl
  | cons b bs ih =>
    cases b
    · exact ih (run + 1)
    · exact congrArg ((run + 1) :: ·) (ih 0)

/-- A run before the byte adds to the byte's first entry, and to nothing else. -/
theorem rltScan_run (run : Nat) (b : Bool) (bs : List Bool) :
    rltScan run (b :: bs) = (run + (rltScan 0 (b :: bs)).headD 0) :: (rltScan 0 (b :: bs)).tail := by
  suffices h : ∀ k, rltScan (run + k + 1) bs = (run + (rltScan (k + 1) bs).headD 0) :: (rltScan (k + 1) bs).tail by
    cases b
    · simpa [rltScan] using h 0
    · simp [rltScan]
  induction bs with
  | nil => intro k; simp [rltScan]; omega
  | cons b bs ih =>
    intro k
    cases b
    · simpa [rltScan, Nat.add_assoc] using ih (k + 1)
    · simp [rltScan]; omega

theorem appendEntries_pos (out : List Nat) (pend : Bool) (e : List Nat) (h : ∀ v ∈ e, 1 ≤ v) (e' : List Nat) :
    appendEntries out pend (e ++ e') = appendEntries (out ++ e) pend e' := by
  induction e generalizing out with
  | nil => simp
  | cons x e ih =>
    have hx : x ≠ 0 := by have := h x (by simp); omega
    simp only [List.cons_append, appendEntries, if_neg hx]
    rw [ih _ fun v hv => h v (List.mem_cons_of_mem _ hv)]
    simp

/-- The output list and flag for finished gaps `g` and `run` zeros since the last 1 bit (R132). -/
def splicePair (g : List Nat) (run : Nat) : List Nat × Bool :=
  if 0 < run then (g ++ [run], true) else (g, false)

theorem appendEntries_rltScan (g : List Nat) (run : Nat) (bs : List Bool) :
    appendEntries g false (rltScan run bs) = splicePair (g ++ gapScan run bs) (trailRun run bs) := by
  rw [rltScan_eq, appendEntries_pos _ _ _ (gapScan_pos run bs), splicePair]
  split
  · rename_i h
    simp [appendEntries, Nat.pos_iff_ne_zero.1 h]
  · rfl

theorem addToLast_append (v : Nat) (g : List Nat) (x : Nat) : addToLast v (g ++ [x]) = g ++ [x + v] := by
  induction g with
  | nil => rfl
  | cons y g ih =>
    cases g with
    | nil => rfl
    | cons z g => simp only [List.cons_append, addToLast, List.cons.injEq, true_and]; simpa using ih

/-- `SpliceAppend` (R132) continues the scan over the byte's bits. -/
theorem spliceAppend_eq (g : List Nat) (run : Nat) (v : Byte) :
    spliceAppend (splicePair g run).1 (splicePair g run).2 (rlt v)
      = splicePair (g ++ gapScan run (byteBits v)) (trailRun run (byteBits v)) := by
  rw [← appendEntries_rltScan]
  obtain ⟨b, bs, hb⟩ : ∃ b bs, byteBits v = b :: bs := by
    cases h : byteBits v with
    | nil => have := length_byteBits v; simp [h] at this
    | cons b bs => exact ⟨b, bs, rfl⟩
  simp only [rlt, hb]
  by_cases hr : 0 < run
  · have hne : run + (rltScan 0 (b :: bs)).headD 0 ≠ 0 := by omega
    simp only [splicePair, if_pos hr, spliceAppend, if_true, addToLast_append]
    rw [rltScan_run run b bs]
    simp only [appendEntries, if_neg hne]
  · have : run = 0 := by omega
    subst this
    simp [splicePair, spliceAppend]

theorem rleLoop_eq (g : List Nat) (run : Nat) (vs : List Byte) :
    rleLoop (splicePair g run).1 (splicePair g run).2 vs
      = splicePair (g ++ gapScan run (bitsOf vs)) (trailRun run (bitsOf vs)) := by
  induction vs generalizing g run with
  | nil => simp [rleLoop, gapScan, trailRun]
  | cons v vs ih =>
    simp only [rleLoop, spliceAppend_eq, ih, bitsOf_cons, gapScan_append, trailRun_append, List.append_assoc]

theorem trailRun_sentinel (run : Nat) : trailRun run (bitsOf [0xFF]) = 0 := by
  have : bitsOf [0xFF] = [true, true, true, true, true, true, true, true] := by decide
  rw [this]; rfl

/-- The encoder's output has the closed form of R134. -/
theorem rleEncode_eq_gapsOf (src : List Byte) : rleEncode src = gapsOf src := by
  have h := rleLoop_eq [] 0 (src ++ [0xFF])
  simp only [splicePair, Nat.lt_irrefl, if_false, List.nil_append] at h
  rw [rleEncode, h, bitsOf_append, trailRun_append, trailRun_sentinel]
  simp [gapsOf, differences_onePositions, bitsOf_append]

/-! ### The consequences of R134 -/

theorem gapsOf_eq_gapScan (src : List Byte) : gapsOf src = gapScan 0 (bitsOf (src ++ [0xFF])) :=
  differences_onePositions _

theorem gapsOf_pos (src : List Byte) : ∀ v ∈ gapsOf src, 1 ≤ v := by
  rw [gapsOf_eq_gapScan]; exact gapScan_pos _ _

theorem sum_gapsOf (src : List Byte) : (gapsOf src).sum = 8 * (src.length + 1) := by
  have h := sum_gapScan 0 (bitsOf (src ++ [0xFF]))
  have ht : trailRun 0 (bitsOf (src ++ [0xFF])) = 0 := by
    rw [bitsOf_append, trailRun_append, trailRun_sentinel]
  rw [gapsOf_eq_gapScan]
  simp only [ht, length_bitsOf, List.length_append, List.length_singleton] at h
  omega

theorem length_gapsOf (src : List Byte) : (gapsOf src).length = (src.map popcount).sum + 8 := by
  rw [gapsOf_eq_gapScan, length_gapScan, count_true_bitsOf]
  have : popcount 0xFF = 8 := by decide
  rw [List.map_append, List.sum_append, List.map_singleton, List.sum_singleton, this]

theorem length_le_sum {g : List Nat} (h : ∀ v ∈ g, 1 ≤ v) : g.length ≤ g.sum := by
  induction g with
  | nil => simp
  | cons v g ih =>
    have := h v (by simp)
    have := ih fun w hw => h w (List.mem_cons_of_mem _ hw)
    simp only [List.length_cons, List.sum_cons]; omega

theorem length_gapsOf_le (src : List Byte) : (gapsOf src).length ≤ 8 * src.length + 8 := by
  have := length_le_sum (gapsOf_pos src)
  rw [sum_gapsOf] at this
  omega

theorem le_sum_of_mem {g : List Nat} {v : Nat} (h : v ∈ g) : v ≤ g.sum := by
  induction g with
  | nil => simp at h
  | cons w g ih =>
    rcases List.mem_cons.1 h with rfl | h
    · simp
    · have := ih h
      simp only [List.sum_cons]; omega

/-- The cumulative positions of the scanned gaps are the positions of the 1 bits. -/
theorem positionsFrom_gapScan (p run : Nat) (bs : List Bool) :
    positionsFrom p (gapScan run bs) = onesFrom (p + run) bs := by
  induction bs generalizing p run with
  | nil => rfl
  | cons b bs ih =>
    cases b
    · simpa [gapScan, onesFrom, Nat.add_assoc] using ih p (run + 1)
    · simpa [gapScan, onesFrom, positionsFrom, Nat.add_assoc] using ih (p + (run + 1)) 0

/-- A position is that of a 1 bit exactly when the bit there is 1. -/
theorem mem_onesFrom (p t : Nat) (bs : List Bool) : p + t + 1 ∈ onesFrom p bs ↔ bs.getD t false = true := by
  induction bs generalizing p t with
  | nil => simp [onesFrom]
  | cons b bs ih =>
    have low : ∀ (q : Nat) (cs : List Bool), ∀ x ∈ onesFrom q cs, q < x := by
      intro q cs
      induction cs generalizing q with
      | nil => simp [onesFrom]
      | cons c cs ih =>
        intro x hx
        cases c
        · have := ih (q + 1) x (by simpa [onesFrom] using hx); omega
        · simp only [onesFrom, if_true, List.mem_cons] at hx
          rcases hx with rfl | hx
          · omega
          · have := ih (q + 1) x hx; omega
    cases t with
    | zero =>
      cases b
      · simp only [onesFrom, Bool.false_eq_true, if_false, List.getD_cons_zero, iff_false]
        intro h
        have := low (p + 1) bs _ h
        omega
      · simp [onesFrom]
    | succ t =>
      have := ih (p + 1) t
      rw [show p + 1 + t + 1 = p + (t + 1) + 1 by omega] at this
      cases b
      · simpa [onesFrom] using this
      · simp only [onesFrom, if_true, List.mem_cons, List.getD_cons_succ]
        rw [this]
        simp

/-! ### The decoder's working buffer (R143) -/

/-- Setting a position sets that bit and no other. -/
theorem bit_setPosition (buf : Mem 8) (p i j : Nat) (hp : 1 ≤ p) (hj : j < 8) :
    (bufByte (setPosition buf p) i).getLsbD (7 - j)
      = ((bufByte buf i).getLsbD (7 - j) || decide (8 * i + j + 1 = p)) := by
  simp only [setPosition, bufByte, Mem.read_write]
  by_cases hi : i = (p - 1) / 8
  · subst hi
    have h1 : ∀ a, a < 8 → ((1#8 <<< (7 - a)).getLsbD (7 - j)) = decide (j = a) := by
      intro a ha
      have : ∀ a < 8, ∀ j < 8, ((1#8 <<< (7 - a)).getLsbD (7 - j)) = decide (j = a) := by decide
      exact this a ha j hj
    simp only [if_true, Option.getD_some, BitVec.getLsbD_or]
    rw [h1 _ (Nat.mod_lt _ (by omega))]
    congr 1
    simp only [decide_eq_decide]
    omega
  · have : ¬ 8 * i + j + 1 = p := by omega
    simp [hi, this]

theorem bit_rleDecodeLoop (pmax : Nat) (g : List Nat) (p : Nat) (buf : Mem 8)
    (hg : ∀ v ∈ g, 1 ≤ v) (hs : p + g.sum ≤ pmax) :
    ∃ buf', rleDecodeLoop pmax p buf g = .ok (p + g.sum, buf') ∧
      ∀ i j, j < 8 → (bufByte buf' i).getLsbD (7 - j)
        = ((bufByte buf i).getLsbD (7 - j) || decide (8 * i + j + 1 ∈ positionsFrom p g)) := by
  induction g generalizing p buf with
  | nil => exact ⟨buf, by simp [rleDecodeLoop], by simp [positionsFrom]⟩
  | cons v g ih =>
    have hv : 1 ≤ v := hg v (by simp)
    simp only [List.sum_cons] at hs
    obtain ⟨buf', h1, h2⟩ := ih (p + v) (setPosition buf (p + v))
      (fun w hw => hg w (List.mem_cons_of_mem _ hw)) (by omega)
    refine ⟨buf', ?_, fun i j hj => ?_⟩
    · simp only [rleDecodeLoop, if_neg (show ¬ v = 0 by omega), if_neg (show ¬ pmax < p + v by omega), h1,
        List.sum_cons]
      congr 2; omega
    · rw [h2 i j hj, bit_setPosition _ _ _ _ (by omega) hj, Bool.or_assoc]
      congr 1
      simp [positionsFrom]

/-- A 0 entry, or a sum over the bound, is MalformedStream (R142, R145). -/
theorem rleDecodeLoop_error (pmax : Nat) (g : List Nat) (p : Nat) (buf : Mem 8)
    (h : ¬ ((∀ v ∈ g, 1 ≤ v) ∧ p + g.sum ≤ pmax)) (hp : p ≤ pmax) :
    rleDecodeLoop pmax p buf g = .error .malformedStream := by
  induction g generalizing p buf with
  | nil => simp at h; omega
  | cons v g ih =>
    simp only [rleDecodeLoop]
    split
    · rfl
    · split
      · rfl
      · refine ih _ _ (fun h' => h ⟨fun w hw => ?_, ?_⟩) (by omega)
        · rcases List.mem_cons.1 hw with rfl | hw
          · omega
          · exact h'.1 w hw
        · simp only [List.sum_cons]; omega

/-- `RleDecodeCore` (R143): the bytes of a decodable sequence, and MalformedStream for any other. -/
theorem rleDecodeCore_eq (maxLen : Nat) (g : List Nat) :
    rleDecodeCore maxLen g
      = if Decodable maxLen g then .ok (bytesOf g) else .error .malformedStream := by
  by_cases h : (∀ v ∈ g, 1 ≤ v) ∧ 0 + g.sum ≤ 8 * (maxLen + 1)
  · obtain ⟨buf, h1, h2⟩ := bit_rleDecodeLoop (8 * (maxLen + 1)) g 0 [] h.1 h.2
    have h2 : ∀ i j, j < 8 → (bufByte buf i).getLsbD (7 - j) = decide (8 * i + j + 1 ∈ positionsOf g) := by
      intro i j hj
      rw [h2 i j hj, show bufByte [] i = 0#8 from rfl, BitVec.getLsbD_zero, Bool.false_or]
      rfl
    simp only [rleDecodeCore, h1, Nat.zero_add]
    by_cases hm : g.sum % 8 = 0
    · have hnb : (g.sum + 7) / 8 = g.sum / 8 := by omega
      rw [hnb]
      have hff : bufByte buf (g.sum / 8 - 1) = 0xFF ↔
          ∀ j < 8, 8 * (g.sum / 8 - 1) + j + 1 ∈ positionsOf g := by
        have hall : ∀ j < 8, (0xFF : Byte).getLsbD (7 - j) = true := by decide
        constructor
        · intro he j hj
          have := h2 (g.sum / 8 - 1) j hj
          rw [he, hall j hj] at this
          simpa using this.symm
        · intro he
          refine byte_ext fun j hj => ?_
          rw [h2 _ j hj, hall j hj]
          simpa using he j hj
      by_cases hg : g = []
      · subst hg
        have hz : bufByte buf 0 ≠ 0xFF := by
          have := hff.not.2 (by
            intro h'
            have := h' 0 (by omega)
            simp [positionsOf, positionsFrom] at this)
          simpa using this
        exact (if_pos (Or.inr hz)).trans (if_neg fun h' => h'.1 rfl).symm
      · have hlen := length_le_sum h.1
        have hpos : 0 < g.length := List.length_pos_iff.2 hg
        have hlast : (∀ j < 8, 8 * (g.sum / 8 - 1) + j + 1 ∈ positionsOf g) ↔ ∀ j < 8, g.sum - j ∈ positionsOf g := by
          constructor
          · intro h' j hj
            have := h' (7 - j) (by omega)
            rwa [show 8 * (g.sum / 8 - 1) + (7 - j) + 1 = g.sum - j by omega] at this
          · intro h' j hj
            have := h' (7 - j) (by omega)
            rwa [show g.sum - (7 - j) = 8 * (g.sum / 8 - 1) + j + 1 by omega] at this
        by_cases hd : ∀ j < 8, g.sum - j ∈ positionsOf g
        · have hdec : Decodable maxLen g := ⟨hg, h.1, by omega, hm, hd⟩
          rw [if_pos hdec, if_neg (by
            have := hff.2 (hlast.2 hd)
            rintro (h' | h')
            · exact h' hm
            · exact h' this)]
          congr 1
          simp only [bytesOf, packBits, List.length_map, List.length_range]
          rw [show (g.sum - 8 + 7) / 8 = g.sum / 8 - 1 by omega]
          refine List.map_congr_left fun i hi => eq_byteAt fun j hj => ?_
          rw [List.mem_range] at hi
          rw [h2 i j hj, List.getD_eq_getElem?_getD, List.getElem?_map, List.getElem?_range (by omega)]
          rfl
        · have hdec : ¬ Decodable maxLen g := fun h' => hd h'.2.2.2.2
          rw [if_neg hdec, if_pos (Or.inr fun h' => hd (hlast.1 (hff.1 h')))]
    · have hdec : ¬ Decodable maxLen g := fun h' => hm h'.2.2.2.1
      rw [if_neg hdec, if_pos (Or.inl hm)]
  · have hdec : ¬ Decodable maxLen g := fun h' => h ⟨h'.2.1, by have := h'.2.2.1; omega⟩
    rw [if_neg hdec, rleDecodeCore, rleDecodeLoop_error _ _ _ _ h (by omega)]

end Sys2Proof.Laws
end

