-- ==== Sys2Proof/Machine/HostProgram.lean ====
section
/-! DEFINITION. Host programs (R85 to R87): each line of the host syntax as the moves it stands for. -/

namespace Sys2Proof.Machine

/-- A line of a host program (R85 to R87). -/
inductive HostLine where
  /-- `wr <REG>, <imm32>` -/
  | wr (r : Reg) (v : Word)
  /-- `rd <REG>` -/
  | rd (r : Reg)
  /-- `wb BYTES[<i>], <imm8>` -/
  | wbBytes (i : Nat) (v : Byte)
  /-- `rb BYTES[<i>]` -/
  | rbBytes (i : Nat)
  /-- `wb PACKED[<i>], <imm8>` -/
  | wbPacked (i : Nat) (v : Byte)
  /-- `rb PACKED[<i>]` -/
  | rbPacked (i : Nat)
  /-- `wg GAPS[<j>], <imm32>` -/
  | wg (j : Nat) (v : Word)
  /-- `rg GAPS[<j>]` -/
  | rg (j : Nat)
  /-- `cmd <MNEMONIC>[, <imm8>]` -/
  | cmd (i : Instr)
  /-- `cmd RAW, <imm32>`: any word, which may be illegal -/
  | cmdRaw (w : Word)
  /-- `wait` -/
  | wait
  /-- `run <MNEMONIC>[, <imm8>]` -/
  | run (i : Instr)
  /-- `loadb BYTES, [...]` -/
  | loadb (bs : List Byte)
  /-- `loadg GAPS, [...]` -/
  | loadg (gs : List Word)
  /-- `loadp PACKED, [...]` -/
  | loadp (ps : List Byte)
deriving DecidableEq, Repr

/-- `wr <REG>, <imm32>` (R85). -/
def wrMove (r : Reg) (v : Word) : Move := .access (.write32 (BitVec.ofNat 32 r.offset) v)

/-- `wb BYTES[<i>], <imm8>` (R85). DESIGN CHOICE (log entry 24): an address that passes `2^32` wraps. -/
def wbBytesMove (i : Nat) (v : Byte) : Move := .access (.write8 (BitVec.ofNat 32 (bytesBase + i)) v)

/-- `wb PACKED[<i>], <imm8>` (R85). DESIGN CHOICE (log entry 24): an address that passes `2^32` wraps. -/
def wbPackedMove (i : Nat) (v : Byte) : Move := .access (.write8 (BitVec.ofNat 32 (packedBase + i)) v)

/-- `wg GAPS[<j>], <imm32>` (R85). DESIGN CHOICE (log entry 24): an address that passes `2^32` wraps. -/
def wgMove (j : Nat) (v : Word) : Move := .access (.write32 (BitVec.ofNat 32 (gapsBase + 4 * j)) v)

/-- `cmd` (R86): the write of the command's word to `CMD`. -/
def cmdMove (i : Instr) : Move := wrMove .cmd (encode i)

/-- The moves of a line (R85 to R87). DESIGN CHOICE, where the spec is silent: in `rb` and `rg` too an
address that passes `2^32` wraps (log entry 24), and `loadb`, `loadg` and `loadp` of `2^32` entries or
more write the length modulo `2^32` (log entry 25). -/
def HostLine.moves : HostLine → List Move
  | .wr r v => [wrMove r v]
  | .rd r => [.access (.read32 (BitVec.ofNat 32 r.offset))]
  | .wbBytes i v => [wbBytesMove i v]
  | .rbBytes i => [.access (.read8 (BitVec.ofNat 32 (bytesBase + i)))]
  | .wbPacked i v => [wbPackedMove i v]
  | .rbPacked i => [.access (.read8 (BitVec.ofNat 32 (packedBase + i)))]
  | .wg j v => [wgMove j v]
  | .rg j => [.access (.read32 (BitVec.ofNat 32 (gapsBase + 4 * j)))]
  | .cmd i => [cmdMove i]
  | .cmdRaw w => [wrMove .cmd w]
  | .wait => [.wait]
  | .run i => [cmdMove i, .wait]
  | .loadb bs =>
    bs.mapIdx (fun i v => wbBytesMove i v) ++ [wrMove .byteLen (BitVec.ofNat 32 bs.length)]
  | .loadg gs =>
    gs.mapIdx (fun j v => wgMove j v) ++ [wrMove .gapCount (BitVec.ofNat 32 gs.length)]
  | .loadp ps =>
    ps.mapIdx (fun i v => wbPackedMove i v) ++ [wrMove .packLen (BitVec.ofNat 32 ps.length)]

/-- The moves of a host program (R85): those of its lines, in order. -/
def programMoves (p : List HostLine) : List Move := p.flatMap HostLine.moves

/-- The state in which a host program is about to run. -/
def State.withProgram (s : State) (p : List HostLine) : State := s.withMoves (programMoves p)

end Sys2Proof.Machine
end

