-- ==== Sys2Proof/Tests/Slice0.lean ====
section
/-! SUPPORT. The model's own tests: well-formedness, decoding, one command each, and states that meet the hypotheses of every statement. -/

namespace Sys2Proof.Tests

open Sys2Proof.Machine Sys2Proof.Claims

/-! ### Small states -/

/-- A core with MAX_LEN = 4, PACK_CAP = 16 and so GAP_CAP = 40 (R6 to R8). -/
def core4 : State := { State.reset with cfg := { maxLen := 4, packCap := 16 } }

/-- The core with MAX_LEN = 1, PACK_CAP = 16 of the spec's boundary vectors B1 and B2. -/
def core1 : State := { State.reset with cfg := { maxLen := 1, packCap := 16 } }

/-- `s` with a byte buffer and its length. -/
def withBytes (s : State) (src : List Byte) : State :=
  { s with bytes := Mem.writeList [] 0 src, byteLen := BitVec.ofNat 32 src.length }

/-- `s` with a gap sequence, its count, and `b`. -/
def withGaps (s : State) (b : Nat) (g : List Nat) : State :=
  { s with gaps := Mem.writeList [] 0 (words g), gapCount := BitVec.ofNat 32 g.length, bParam := BitVec.ofNat 32 b }

/-- `s` with a packed stream, its length, and `b`. -/
def withPacked (s : State) (b : Nat) (ps : List Byte) : State :=
  { s with packed := Mem.writeList [] 0 ps, packLen := BitVec.ofNat 32 ps.length, bParam := BitVec.ofNat 32 b }

/-- `s` with a command pending. -/
def busyWith (s : State) (w : Word) (ms : List Move) : State := (s.start w).withMoves ms

/-- Whether the outcome is a next state with the property. -/
def after (o : Host.Outcome State Fault Refusal) (p : State → Bool) : Bool :=
  match o with
  | .next t => p t
  | .fault _ => false
  | .refused _ => false

theorem exists_of_after {o : Host.Outcome State Fault Refusal} {p : State → Bool} (h : after o p = true) :
    ∃ t, o = .next t ∧ p t = true := by
  cases o with
  | next t => exact ⟨t, rfl, h⟩
  | fault r => cases h
  | refused r => cases h

/-- The cells of `GAPS` below `GAP_COUNT`. -/
def gapList (s : State) : List (Option Word) := (List.range s.gapCount.toNat).map (Mem.read s.gaps)

/-- The cells of `BYTES` below `BYTE_LEN`. -/
def byteList (s : State) : List (Option Byte) := (List.range s.byteLen.toNat).map (Mem.read s.bytes)

/-- The cells of `PACKED` below `PACK_LEN`. -/
def packList (s : State) : List (Option Byte) := (List.range s.packLen.toNat).map (Mem.read s.packed)

/-! ### Well-formedness: `illegal` stands only for an illegal word (R83) -/

/-- The word 0x2 is RLE_ENC, so the term is refused; one illegal word for each case of R83. -/
theorem test_wellFormed_illegal :
    Instr.wellFormed (.illegal 0x00000002) = false ∧ Instr.wellFormed (.illegal 0x0000FE01) = false ∧
    Instr.wellFormed (.illegal 0x00000000) = true ∧ Instr.wellFormed (.illegal 0x00000009) = true ∧
    Instr.wellFormed (.illegal 0x00000011) = true ∧ Instr.wellFormed (.illegal 0x00010001) = true ∧
    Instr.wellFormed (.illegal 0x00000103) = true := by decide

/-- Every term of the eight commands is a command. -/
theorem test_wellFormed_commands :
    Instr.wellFormed (.rltLookup 0xFF) = true ∧ Instr.wellFormed .rleEnc = true ∧
    Instr.wellFormed .rleDec = true ∧ Instr.wellFormed .density = true ∧ Instr.wellFormed .grEnc = true ∧
    Instr.wellFormed .grDec = true ∧ Instr.wellFormed .golombEnc = true ∧
    Instr.wellFormed .golombDec = true := by decide

/-! ### Decoding: words written bit by bit from R80's fields RSV1 (16), ARG (8), RSV0 (4), OP (4) -/

/-- OP 0x1 with ARG 0xA5 and 0x00. -/
theorem test_decode_rltLookup :
    decode 0b0000000000000000_10100101_0000_0001 = .rltLookup 0xA5 ∧
    decode 0b0000000000000000_00000000_0000_0001 = .rltLookup 0x00 := by decide

/-- OP 0x2 and OP 0x3. -/
theorem test_decode_runLength :
    decode 0b0000000000000000_00000000_0000_0010 = .rleEnc ∧
    decode 0b0000000000000000_00000000_0000_0011 = .rleDec := by decide

/-- OP 0x4. -/
theorem test_decode_density : decode 0b0000000000000000_00000000_0000_0100 = .density := by decide

/-- OP 0x5 and OP 0x6. -/
theorem test_decode_golombRice :
    decode 0b0000000000000000_00000000_0000_0101 = .grEnc ∧
    decode 0b0000000000000000_00000000_0000_0110 = .grDec := by decide

/-- OP 0x7 and OP 0x8. -/
theorem test_decode_composite :
    decode 0b0000000000000000_00000000_0000_0111 = .golombEnc ∧
    decode 0b0000000000000000_00000000_0000_1000 = .golombDec := by decide

/-- R83: OP 0x0, OP 0xF, RSV0 not 0, RSV1 not 0, ARG not 0 beside an OP other than 0x1. -/
theorem test_decode_illegal :
    decode 0b0000000000000000_00000000_0000_0000 = .illegal 0 ∧
    decode 0b0000000000000000_00000000_0000_1111 = .illegal 0xF ∧
    decode 0b0000000000000000_00000101_0001_0001 = .illegal 0x511 ∧
    decode 0b1000000000000000_00000101_0000_0001 = .illegal 0x80000501 ∧
    decode 0b0000000000000000_00000001_0000_0101 = .illegal 0x105 := by decide

/-! ### One command each; expected values from spec/95_test_vectors.md -/

/-- Vector T3: `RLT_LOOKUP 0x04` gives 6, 2, 0. -/
theorem test_rltLookup_flag :
    after (exec (.rltLookup 0x04) core4) (fun t => gapList t == [some 6, some 2, some 0] &&
      t.status.toWord == 0x2) = true := by decide

/-- The table's row 0xFE: seven entries 1, then 1 and the flag. -/
theorem test_rltLookup_longest :
    after (exec (.rltLookup 0xFE) core4) (fun t =>
      gapList t == [some 1, some 1, some 1, some 1, some 1, some 1, some 1, some 1, some 0]) = true := by decide

/-- Source example S7: 01 05 04 05. -/
theorem test_rleEnc_example :
    after (exec .rleEnc (withBytes core4 [0x01, 0x05, 0x04, 0x05])) (fun t =>
      gapList t == [some 8, some 6, some 2, some 6, some 8, some 2, some 1, some 1, some 1, some 1, some 1,
        some 1, some 1, some 1] && t.status.toWord == 0x2) = true := by decide

/-- Source example S4, corrected by the spec: 00 80 gives the merged gap of 9. -/
theorem test_rleEnc_splice :
    after (exec .rleEnc (withBytes core4 [0x00, 0x80])) (fun t =>
      gapList t == [some 9, some 8, some 1, some 1, some 1, some 1, some 1, some 1, some 1]) = true := by decide

/-- R140's corner case: 9, seven times 1 gives 00. -/
theorem test_rleDec_zero_byte :
    after (exec .rleDec (withGaps core4 0 [9, 1, 1, 1, 1, 1, 1, 1])) (fun t =>
      byteList t == [some 0x00] && t.status.toWord == 0x2) = true := by decide

/-- R142: an entry 0 is MalformedStream, and R203 clears `BYTES`. -/
theorem test_rleDec_zero_entry :
    after (exec .rleDec (withGaps (withBytes core4 [0x12]) 0 [9, 0, 1, 1, 1, 1, 1, 1])) (fun t =>
      t.bytes == [] && t.byteLen == 0 && t.status.toWord == 0x46) = true := by decide

/-- Source example S7: Z = 26, b = 4. -/
theorem test_density_example :
    after (exec .density (withBytes core4 [0x01, 0x05, 0x04, 0x05])) (fun t =>
      t.bParam == 4 && t.zeroCount == 26 && t.status.toWord == 0x2) = true := by decide

/-- Source example S9: a buffer with no 1 bit is DegenerateDensity. -/
theorem test_density_degenerate :
    after (exec .density (withBytes core4 [0x00])) (fun t =>
      t.bParam == 0 && t.zeroCount == 0 && t.status.toWord == 0x36) = true := by decide

/-- R160's worked example. -/
theorem test_grEnc_example :
    after (exec .grEnc (withGaps core4 4 [8, 6, 2, 6, 8, 2, 1, 1, 1, 1, 1, 1, 1, 1])) (fun t =>
      packList t == [some 0xB9, some 0x33, some 0x64, some 0x00, some 0x00, some 0x00] &&
      t.packBits == 46 && t.status.toWord == 0x2) = true := by decide

/-- Source example S6: for b = 3 the remainders 1, 2, 3 are 0, 10, 11, so 00 010 011 and a 0 pad. -/
theorem test_grEnc_three :
    after (exec .grEnc (withGaps core4 3 [1, 2, 3])) (fun t =>
      packList t == [some 0b00010011] && t.packBits == 8) = true := by decide

/-- R170's worked example. -/
theorem test_grDec_example :
    after (exec .grDec (withPacked core4 4 [0xB9, 0x33, 0x64, 0x00, 0x00, 0x00])) (fun t =>
      gapList t == [some 8, some 6, some 2, some 6, some 8, some 2, some 1, some 1, some 1, some 1, some 1,
        some 1, some 1, some 1] && t.status.toWord == 0x2) = true := by decide

/-- R117: a stream of 1 bits has no symbol. -/
theorem test_grDec_ones :
    after (exec .grDec (withPacked core4 4 [0xFF])) (fun t =>
      t.gaps == [] && t.gapCount == 0 && t.status.toWord == 0x46) = true := by decide

/-- Source example S7: 01 05 04 05 compresses to 46 bits with b = 4, Z = 26. -/
theorem test_golombEnc_example :
    after (exec .golombEnc (withBytes core4 [0x01, 0x05, 0x04, 0x05])) (fun t =>
      packList t == [some 0xB9, some 0x33, some 0x64, some 0x00, some 0x00, some 0x00] &&
      t.packBits == 46 && t.bParam == 4 && t.zeroCount == 26 && t.gapCount == 14) = true := by decide

/-- Source example S8: with MAX_LEN = 1, two bytes are InputTooLarge. -/
theorem test_golombEnc_too_large :
    after (exec .golombEnc { core1 with byteLen := 2 }) (fun t => t.status.toWord == 0x26) = true := by decide

/-- Source example S7, decoded back. -/
theorem test_golombDec_example :
    after (exec .golombDec (withPacked core4 4 [0xB9, 0x33, 0x64, 0x00, 0x00, 0x00])) (fun t =>
      byteList t == [some 0x01, some 0x05, some 0x04, some 0x05] && t.gapCount == 14 &&
      t.status.toWord == 0x2) = true := by decide

/-- R171: `B_PARAM = 0` is BadParameter. -/
theorem test_golombDec_bad_parameter :
    after (exec .golombDec (withPacked core4 0 [0xB9])) (fun t => t.status.toWord == 0x56) = true := by decide

/-- R182: IllegalCommand, and nothing is cleared. -/
theorem test_illegal_status :
    after (exec (.illegal 0x9) (withBytes core4 [0x12])) (fun t =>
      byteList t == [some 0x12] && t.status.toWord == 0x66) = true := by decide

/-! ### The step -/

/-- R200: a legal `CMD` write sets `STATUS` to 0x1 and latches the word. -/
theorem test_step_command_write :
    after (step { core4 with moves := [wrMove .cmd 0x2] }) (fun t =>
      t.status.toWord == 0x1 && t.cmd == 0x2 && t.latch == some 0x2) = true := by decide

/-- `State.withFetchWord` puts the word of the opcode table where the next step runs it. -/
theorem test_withFetchWord :
    after (step (State.withFetchWord State.reset 32 0x0000FE01)) (fun t =>
      t.gapCount == 9 && t.status.toWord == 0x2 && t.cmd == 0xFE01) = true := by decide

/-! ### Witnesses: for every statement with hypotheses, states and operands that meet them all -/

/-! Command words. -/

theorem wit_DecodeOfEncode :
    Instr.wellFormed (.rltLookup 0xFF) = true ∧ Instr.wellFormed .golombDec = true ∧
    Instr.wellFormed (.illegal 0xFFFFFFFF) = true := by and_intros <;> decide

/-- Both sides of each boundary of R83's cases, and the state of the clause on steps. -/
theorem wit_IllegalWordsReportIllegalCommand :
    (IllegalWord 0x0 ∧ ¬ IllegalWord 0x1 ∧ ¬ IllegalWord 0x8 ∧ IllegalWord 0x9 ∧ IllegalWord 0xF ∧
      IllegalWord 0x11 ∧ IllegalWord 0x10001 ∧ ¬ IllegalWord 0xFF01 ∧ IllegalWord 0x102) ∧
    core4.status.busy = false ∧
    { core4 with moves := [.access (.write32 0x00000000 0x9), .engine] }.moves
      = .access (.write32 0x00000000 0x9) :: .engine :: [] := by and_intros <;> decide

/-! Steps of the engine. -/

theorem wit_StepRunsTheLatchedCommand :
    (busyWith core4 0x2 []).status.busy = true ∧ (busyWith core4 0x2 []).latch = some 0x2 ∧
    (busyWith core4 0x2 []).moves = [] ∧
    (busyWith core4 0x2 [.wait]).status.busy = true ∧ (busyWith core4 0x2 [.wait]).latch = some 0x2 ∧
    (busyWith core4 0x2 [.wait]).moves = .wait :: [] ∧
    (busyWith core4 0x9 [.engine, .wait]).status.busy = true ∧
    (busyWith core4 0x9 [.engine, .wait]).latch = some 0x9 ∧
    (busyWith core4 0x9 [.engine, .wait]).moves = .engine :: [.wait] := by and_intros <;> decide

theorem wit_IdleEngineHasNoStep :
    core4.status.busy = false ∧ core4.moves = [] ∧
    { core4 with moves := [.engine, .reset] }.status.busy = false ∧
    { core4 with moves := [.engine, .reset] }.moves = .engine :: [.reset] := by and_intros <;> decide

theorem wit_CommandWriteStartsCommand :
    { core4 with moves := [.access (.write32 0x00000000 0x4), .engine] }.status.busy = false ∧
    { core4 with moves := [.access (.write32 0x00000000 0x4), .engine] }.moves
      = .access (.write32 0x00000000 0x4) :: [.engine] ∧
    [Move.engine] = .engine :: [] := by and_intros <;> decide

/-- An error of each code, with a command that may end with it. -/
theorem wit_ErrorsClearTheDestinationsOnly :
    (∃ t, exec .grEnc (withGaps core4 1 [129]) = .next t ∧ (t.status.err && t.status.errCode == 1) = true) ∧
    (∃ t, exec .rleEnc { core4 with byteLen := 5 } = .next t ∧ (t.status.err && t.status.errCode == 2) = true) ∧
    (∃ t, exec .density core4 = .next t ∧ (t.status.err && t.status.errCode == 3) = true) ∧
    (∃ t, exec .rleDec core4 = .next t ∧ (t.status.err && t.status.errCode == 4) = true) ∧
    (∃ t, exec .grDec core4 = .next t ∧ (t.status.err && t.status.errCode == 5) = true) ∧
    (∃ t, exec (.illegal 0x0) core4 = .next t ∧ (t.status.err && t.status.errCode == 6) = true) :=
  ⟨exists_of_after (by decide), exists_of_after (by decide), exists_of_after (by decide),
    exists_of_after (by decide), exists_of_after (by decide), exists_of_after (by decide)⟩

/-- A success and an error. -/
theorem wit_ErrorCodesStayWithTheirCommands :
    (∃ t, exec .rleEnc core4 = .next t ∧ (t.status == succeeded) = true) ∧
    (∃ t, exec .golombEnc core4 = .next t ∧ (t.status == failedWith 3) = true) :=
  ⟨exists_of_after (by decide), exists_of_after (by decide)⟩

/-- The composite commands, which write the most and the fewest kinds of destination. -/
theorem wit_CommandsWriteOnlyTheirRow :
    (∃ t, exec .golombEnc (withBytes core4 [0x01]) = .next t ∧ (t.status == succeeded) = true) ∧
    (∃ t, exec (.illegal 0x0) core4 = .next t ∧ (t.status == failedWith 6) = true) :=
  ⟨exists_of_after (by decide), exists_of_after (by decide)⟩

/-- Two states that differ in what RLE_ENC does not read. -/
theorem wit_CommandsReadOnlyTheirSources :
    AgreeOnSources (withBytes core4 [0x01]) { withGaps (withBytes core4 [0x01]) 7 [3] with cmd := 5 } .rleEnc ∧
    (∃ t, exec .rleEnc (withBytes core4 [0x01]) = .next t ∧ (t.status == succeeded) = true) ∧
    (∃ t, exec .rleEnc { withGaps (withBytes core4 [0x01]) 7 [3] with cmd := 5 } = .next t ∧
      (t.status == succeeded) = true) :=
  ⟨by simp only [AgreeOnSources]; decide, exists_of_after (by decide), exists_of_after (by decide)⟩

/-- A success of each destination memory, and an error. -/
theorem wit_SuccessWritesBelowTheNewLength :
    core4.cfg.Wf ∧
    (∃ t, exec .rleDec (withGaps core4 0 [9, 1, 1, 1, 1, 1, 1, 1]) = .next t ∧
      (!t.status.err && t.byteLen == 1) = true) ∧
    (∃ t, exec .rleEnc core4 = .next t ∧ (!t.status.err && t.gapCount == 8) = true) ∧
    (∃ t, exec .grEnc (withGaps core4 3 [1, 2, 3]) = .next t ∧ (!t.status.err && t.packLen == 1) = true) ∧
    (∃ t, exec .golombDec (withPacked (withBytes core4 [1]) 4 [0xFF]) = .next t ∧ t.status.err = true) :=
  ⟨by decide, exists_of_after (by decide), exists_of_after (by decide), exists_of_after (by decide),
    exists_of_after (by decide)⟩

/-- A read of an unwritten cell, and none: all source cells written, or a length check failed first. -/
theorem wit_UnwrittenSourceIsRecorded :
    (ReadsUnwritten { core4 with byteLen := 1 } .rleEnc ∧ ∃ t, exec .rleEnc { core4 with byteLen := 1 } = .next t) ∧
    (¬ ReadsUnwritten (withBytes core4 [0x01]) .rleEnc ∧ ∃ t, exec .rleEnc (withBytes core4 [0x01]) = .next t) ∧
    (¬ ReadsUnwritten { core4 with byteLen := 5 } .rleEnc ∧ ∃ t, exec .rleEnc { core4 with byteLen := 5 } = .next t) := by
  refine ⟨⟨by simp only [ReadsUnwritten]; decide, ?_⟩, ⟨by simp only [ReadsUnwritten]; decide, ?_⟩,
    ⟨by simp only [ReadsUnwritten]; decide, ?_⟩⟩ <;>
  · obtain ⟨t, -, h, -⟩ := Laws.exec_ends .rleEnc _
    exact ⟨t, h⟩

/-! Invariants. -/

/-- A state with a command pending, bytes and gaps written, and a move to come. -/
theorem wit_EveryStepKeepsTheInvariant :
    (busyWith (withGaps (withBytes core4 [0x01, 0x80]) 3 [1, 2, 3]) 0x5 [.engine, .reset]).Inv ∧
    ∃ t, step (busyWith (withGaps (withBytes core4 [0x01, 0x80]) 3 [1, 2, 3]) 0x5 [.engine, .reset]) = .next t ∧
      (t.packLen == 1) = true :=
  ⟨by decide, exists_of_after (by decide)⟩

theorem wit_FaultRecordNeverShrinks :
    ({ core4 with faults := core4.faults.add .hostBusError, moves := [.reset] }).faults.has .hostBusError = true ∧
    ∃ t, step { core4 with faults := core4.faults.add .hostBusError, moves := [.reset] } = .next t ∧
      (t.moves == []) = true :=
  ⟨by decide, exists_of_after (by decide)⟩

theorem wit_CapabilitiesAreConstant :
    (∃ t, step { core4 with moves := [.reset] } = .next t ∧ (t.moves == []) = true) ∧
    core4.status.busy = false ∧
    { core4 with moves := [.access (.read32 0x00000020)] }.moves = .access (.read32 0x00000020) :: [] ∧
    { core4 with moves := [.access (.read32 0x00000024)] }.moves = .access (.read32 0x00000024) :: [] ∧
    { core4 with moves := [.access (.read32 0x00000028)] }.moves = .access (.read32 0x00000028) :: [] ∧
    { core4 with moves := [.access (.write32 0x28 7)] }.moves = .access (.write32 0x28 7) :: [] :=
  ⟨exists_of_after (by decide), by decide⟩

/-! Host accesses and reset. -/

/-- The `STATUS` read; a read of the next register, a `CMD` write, and an 8-bit read of the same address; and
a `CMD` write that opens the window. -/
theorem wit_BusyWindowAllowsOnlyStatusReads :
    (busyWith core4 0x2 [.access (.read32 0x00000004)]).status.busy = true ∧
    (busyWith core4 0x2 [.access (.read32 0x00000004)]).moves = .access (.read32 0x00000004) :: [] ∧
    (busyWith core4 0x2 [.access (.read32 0x00000008)]).moves = .access (.read32 0x00000008) :: [] ∧
    HostOp.read32 0x00000008 ≠ .read32 0x00000004 ∧ HostOp.write32 0x00000000 2 ≠ .read32 0x00000004 ∧
    HostOp.read8 0x00000004 ≠ .read32 0x00000004 ∧
    core4.status.busy = false ∧
    { core4 with moves := [.access (.write32 0x00000000 2)] }.moves = .access (.write32 0x00000000 2) :: [] := by and_intros <;> decide

/-- Both sides of each boundary of R61 and R64, for MAX_LEN = 4, PACK_CAP = 16, GAP_CAP = 40. -/
theorem wit_IllegalAccessIsABusError :
    (core4.status.busy = false ∧
      { core4 with moves := [.access (.read8 0)] }.moves = .access (.read8 0) :: []) ∧
    BadAccess core4.cfg (.read8 0x00000004) ∧ BadAccess core4.cfg (.read8 0x0FFFFFFF) ∧
    ¬ BadAccess core4.cfg (.read8 0x10000000) ∧ ¬ BadAccess core4.cfg (.write8 0x10000003 0) ∧
    BadAccess core4.cfg (.write8 0x10000004 0) ∧ ¬ BadAccess core4.cfg (.read8 0x2000000F) ∧
    BadAccess core4.cfg (.read8 0x20000010) ∧ BadAccess core4.cfg (.read8 0x40000000) ∧
    ¬ BadAccess core4.cfg (.read32 0x00000028) ∧ BadAccess core4.cfg (.read32 0x0000002C) ∧
    BadAccess core4.cfg (.read32 0x00000006) ∧ BadAccess core4.cfg (.read32 0x10000000) ∧
    ¬ BadAccess core4.cfg (.read32 0x4000009C) ∧ BadAccess core4.cfg (.read32 0x400000A0) ∧
    BadAccess core4.cfg (.write32 0x00000004 0) ∧ ¬ BadAccess core4.cfg (.write32 0x00000014 0) ∧
    BadAccess core4.cfg (.write32 0x00000018 0) := by
  simp only [BadAccess]; and_intros <;> decide

/-- The first and the last cell of each memory. -/
theorem wit_CellWriteReadsBack :
    core4.cfg.Wf ∧ core4.status.busy = false ∧ 3 < core4.cfg.maxLen ∧ 15 < core4.cfg.packCap ∧
    39 < core4.cfg.gapCap ∧
    { core4 with moves := [.access (.write8 0x10000003 0x5A), .access (.read8 0x10000003)] }.moves
      = .access (.write8 (BitVec.ofNat 32 (0x10000000 + 3)) 0x5A) ::
          .access (.read8 (BitVec.ofNat 32 (0x10000000 + 3))) :: [] ∧
    { core4 with moves := [.access (.write8 0x2000000F 0x5A), .access (.read8 0x2000000F)] }.moves
      = .access (.write8 (BitVec.ofNat 32 (0x20000000 + 15)) 0x5A) ::
          .access (.read8 (BitVec.ofNat 32 (0x20000000 + 15))) :: [] ∧
    { core4 with moves := [.access (.write32 0x4000009C 0x5A), .access (.read32 0x4000009C)] }.moves
      = .access (.write32 (BitVec.ofNat 32 (0x40000000 + 4 * 39)) 0x5A) ::
          .access (.read32 (BitVec.ofNat 32 (0x40000000 + 4 * 39))) :: [] := by and_intros <;> decide

theorem wit_UnwrittenCellReadIsUninitRead :
    core4.cfg.Wf ∧ core4.status.busy = false ∧
    (3 < core4.cfg.maxLen ∧ Mem.read core4.bytes 3 = none ∧
      { core4 with moves := [.access (.read8 0x10000003)] }.moves
        = .access (.read8 (BitVec.ofNat 32 (0x10000000 + 3))) :: []) ∧
    (15 < core4.cfg.packCap ∧ Mem.read core4.packed 15 = none ∧
      { core4 with moves := [.access (.read8 0x2000000F)] }.moves
        = .access (.read8 (BitVec.ofNat 32 (0x20000000 + 15))) :: []) ∧
    (39 < core4.cfg.gapCap ∧ Mem.read core4.gaps 39 = none ∧
      { core4 with moves := [.access (.read32 0x4000009C)] }.moves
        = .access (.read32 (BitVec.ofNat 32 (0x40000000 + 4 * 39))) :: []) := by and_intros <;> decide

theorem wit_RegisterWindowReadsAndWrites :
    core4.status.busy = false ∧
    { core4 with moves := [.access (.read32 0x1C)] }.moves = .access (.read32 (0x1C, core4.packBits).1) :: [] ∧
    { core4 with moves := [.access (.write32 0x08 0xFFFFFFFF)] }.moves = .access (.write32 0x08 0xFFFFFFFF) :: [] ∧
    { core4 with moves := [.access (.write32 0x0C 1)] }.moves = .access (.write32 0x0C 1) :: [] ∧
    { core4 with moves := [.access (.write32 0x10 1)] }.moves = .access (.write32 0x10 1) :: [] ∧
    { core4 with moves := [.access (.write32 0x14 1)] }.moves = .access (.write32 0x14 1) :: [] := by and_intros <;> decide

theorem wit_RepeatedAccessIsIdempotent :
    ¬ IsCmdWrite (.write8 0x10000000 0x5A) ∧ ¬ IsCmdWrite (.write32 0x00000004 0) ∧
    { core4 with moves := [.access (.write8 0x10000000 0x5A), .access (.write8 0x10000000 0x5A)] }.moves
      = .access (.write8 0x10000000 0x5A) :: .access (.write8 0x10000000 0x5A) :: [] := by
  simp only [IsCmdWrite]; and_intros <;> decide

/-- Reset in the busy window too. -/
theorem wit_ResetInputClearsTheCore :
    { core4 with moves := [.reset] }.moves = .reset :: [] ∧
    (busyWith core4 0x2 [.reset]).moves = .reset :: [] := by and_intros <;> decide

theorem wit_WaitEndsAfterTheCommand :
    (busyWith core4 0x4 [.wait]).status.busy = true ∧ (busyWith core4 0x4 [.wait]).latch = some 0x4 ∧
    (busyWith core4 0x4 [.wait]).moves = .wait :: [] := by and_intros <;> decide

/-! The run-length commands. -/

/-- The empty buffer and a full one. -/
theorem wit_RleEncWritesTheGapsOfTheOnes :
    HoldsBytes core4 [] ∧ HoldsBytes (withBytes core4 [1, 5, 4, 5]) [1, 5, 4, 5] ∧
    [1, 5, 4, 5].length ≤ core4.cfg.maxLen := by and_intros <;> decide

theorem wit_GapSequenceClosedForm :
    core4.cfg.Wf ∧ ([] : List Byte).length ≤ core4.cfg.maxLen ∧
    ([1, 5, 4, 5] : List Byte).length ≤ core4.cfg.maxLen := by and_intros <;> decide

theorem wit_ZeroBufferIsOneLongGap :
    HoldsBytes core4 (List.replicate 0 0x00) ∧ 0 ≤ core4.cfg.maxLen ∧
    HoldsBytes (withBytes core4 [0, 0, 0, 0]) (List.replicate 4 0x00) ∧ 4 ≤ core4.cfg.maxLen := by and_intros <;> decide

theorem wit_ByteLengthOverTheBoundIsRejected :
    ({ core4 with byteLen := 5 }).cfg.maxLen < ({ core4 with byteLen := 5 }).byteLen.toNat := by decide

/-- The first count over GAP_CAP, and the count 0. -/
theorem wit_RleDecChecksTheCountFirst :
    ({ core4 with gapCount := 41 }).cfg.gapCap < ({ core4 with gapCount := 41 }).gapCount.toNat ∧
    (¬ core4.cfg.gapCap < core4.gapCount.toNat ∧ core4.gapCount = 0) := by and_intros <;> decide

/-- A full buffer decodes; each reason of R142, R144 and R145 for which a sequence does not. -/
theorem wit_RleDecRebuildsOrRejects :
    (HoldsGaps (withGaps core4 0 [8, 6, 2, 6, 8, 2, 1, 1, 1, 1, 1, 1, 1, 1]) [8, 6, 2, 6, 8, 2, 1, 1, 1, 1, 1, 1, 1, 1] ∧
      [8, 6, 2, 6, 8, 2, 1, 1, 1, 1, 1, 1, 1, 1].length ≤ core4.cfg.gapCap ∧
      Decodable core4.cfg.maxLen [8, 6, 2, 6, 8, 2, 1, 1, 1, 1, 1, 1, 1, 1]) ∧
    (HoldsGaps (withGaps core4 0 [41]) [41] ∧ ¬ Decodable core4.cfg.maxLen [41]) ∧
    ¬ Decodable core4.cfg.maxLen [] ∧ ¬ Decodable core4.cfg.maxLen [8, 0] ∧
    ¬ Decodable core4.cfg.maxLen [7] ∧ ¬ Decodable core4.cfg.maxLen [8] ∧
    ¬ Decodable core4.cfg.maxLen [41, 1, 1, 1, 1, 1, 1, 1] ∧
    Decodable core4.cfg.maxLen [33, 1, 1, 1, 1, 1, 1, 1] ∧
    Decodable core4.cfg.maxLen [1, 1, 1, 1, 1, 1, 1, 1] := by and_intros <;> decide

theorem wit_RunLengthRoundTrip :
    core4.cfg.Wf ∧ HoldsBytes (withBytes core4 [0xFF, 0, 0x80, 1]) [0xFF, 0, 0x80, 1] ∧
    ([0xFF, 0, 0x80, 1] : List Byte).length ≤ core4.cfg.maxLen := by and_intros <;> decide

/-! DENSITY. -/

/-- The fewest and the most 0 bits. -/
theorem wit_DensityWritesTheLeastB :
    core4.cfg.Wf ∧
    (HoldsBytes (withBytes core4 [0xFE]) [0xFE] ∧ ([0xFE] : List Byte).length ≤ core4.cfg.maxLen ∧
      0 < zeroBits [0xFE] ∧ zeroBits [0xFE] < 8 * ([0xFE] : List Byte).length) ∧
    (HoldsBytes (withBytes core4 [0, 0, 0, 1]) [0, 0, 0, 1] ∧ ([0, 0, 0, 1] : List Byte).length ≤ core4.cfg.maxLen ∧
      0 < zeroBits [0, 0, 0, 1] ∧ zeroBits [0, 0, 0, 1] < 8 * ([0, 0, 0, 1] : List Byte).length) := by and_intros <;> decide

/-- Each of R153's three cases. -/
theorem wit_DegenerateBuffersAreReported :
    HoldsBytes core4 [] ∧
    (HoldsBytes (withBytes core4 [0xFF, 0xFF]) [0xFF, 0xFF] ∧ zeroBits [0xFF, 0xFF] = 0) ∧
    (HoldsBytes (withBytes core4 [0, 0, 0, 0]) [0, 0, 0, 0] ∧ ([0, 0, 0, 0] : List Byte).length ≤ core4.cfg.maxLen ∧
      zeroBits [0, 0, 0, 0] = 8 * ([0, 0, 0, 0] : List Byte).length) := by and_intros <;> decide

/-- Source example S7: Z = 26, b = 4. -/
theorem wit_EstimateIsTheCeilingOfTheLogRatio : estimateB [1, 5, 4, 5] = .ok (4, 26) := by rfl

/-- `b = 1` at exactly half of the bits 0, and more. -/
theorem wit_EstimateIsInRange :
    core4.cfg.Wf ∧ ([0x0F] : List Byte).length ≤ core4.cfg.maxLen ∧ estimateB [0x0F] = .ok (1, 4) ∧
    ([1, 5, 4, 5] : List Byte).length ≤ core4.cfg.maxLen ∧ estimateB [1, 5, 4, 5] = .ok (4, 26) :=
  ⟨by decide, by decide, rfl, by decide, rfl⟩

/-! GR_ENC. -/

/-- A stream that fits, and one of exactly `8 * PACK_CAP = 128` bits. -/
theorem wit_GrEncPacksTheSymbols :
    (HoldsGaps (withGaps core4 3 [1, 2, 3]) [1, 2, 3] ∧ [1, 2, 3].length ≤ core4.cfg.gapCap ∧
      (∀ v ∈ [1, 2, 3], 1 ≤ v) ∧ (withGaps core4 3 [1, 2, 3]).bParam ≠ 0 ∧
      (streamOf (withGaps core4 3 [1, 2, 3]).bParam.toNat [1, 2, 3]).length ≤ 8 * core4.cfg.packCap) ∧
    (HoldsGaps (withGaps core4 1 [128]) [128] ∧ (withGaps core4 1 [128]).bParam ≠ 0 ∧
      (streamOf (withGaps core4 1 [128]).bParam.toNat [128]).length ≤ 8 * core4.cfg.packCap) := by and_intros <;> decide +kernel

/-- Each clause, at its boundary. -/
theorem wit_GrEncChecksInOrder :
    ({ core4 with gapCount := 41 }).cfg.gapCap < ({ core4 with gapCount := 41 }).gapCount.toNat ∧
    (¬ ({ core4 with gapCount := 40 }).cfg.gapCap < ({ core4 with gapCount := 40 }).gapCount.toNat ∧
      ({ core4 with gapCount := 40 }).bParam = 0) ∧
    (({ core4 with bParam := 1 }).bParam ≠ 0 ∧ ({ core4 with bParam := 1 }).gapCount = 0) ∧
    ((withGaps core4 1 [128, 0, 9]).bParam ≠ 0 ∧ (∀ v ∈ [128], 1 ≤ v) ∧
      ([128] ++ 0 :: [9]).length ≤ core4.cfg.gapCap ∧ HoldsGaps (withGaps core4 1 [128, 0, 9]) ([128] ++ 0 :: [9]) ∧
      (streamOf (withGaps core4 1 [128, 0, 9]).bParam.toNat [128]).length ≤ 8 * core4.cfg.packCap) ∧
    ((withGaps core4 1 [129, 0]).bParam ≠ 0 ∧ (∀ v ∈ [129], 1 ≤ v) ∧
      ([129] ++ [0]).length ≤ core4.cfg.gapCap ∧ HoldsGaps (withGaps core4 1 [129, 0]) ([129] ++ [0]) ∧
      8 * core4.cfg.packCap < (streamOf (withGaps core4 1 [129, 0]).bParam.toNat [129]).length) := by and_intros <;> decide +kernel

/-- `k = 0` and `k = 2`. -/
theorem wit_PowerOfTwoRemaindersAreFixedWidth :
    (HoldsGaps (withGaps core4 1 [2, 1]) [2, 1] ∧ [2, 1].length ≤ core4.cfg.gapCap ∧ (∀ v ∈ [2, 1], 1 ≤ v) ∧
      (withGaps core4 1 [2, 1]).bParam.toNat = 2 ^ 0 ∧
      ([2, 1].flatMap fun v => List.replicate ((v - 1) / 2 ^ 0) true ++ [false] ++
        fieldBits 0 ((v - 1) % 2 ^ 0)).length ≤ 8 * core4.cfg.packCap) ∧
    (HoldsGaps (withGaps core4 4 [8, 6, 2]) [8, 6, 2] ∧ [8, 6, 2].length ≤ core4.cfg.gapCap ∧
      (∀ v ∈ [8, 6, 2], 1 ≤ v) ∧ (withGaps core4 4 [8, 6, 2]).bParam.toNat = 2 ^ 2 ∧
      ([8, 6, 2].flatMap fun v => List.replicate ((v - 1) / 2 ^ 2) true ++ [false] ++
        fieldBits 2 ((v - 1) % 2 ^ 2)).length ≤ 8 * core4.cfg.packCap) := by and_intros <;> decide

/-- A field of 6 bits from the middle of a byte into the next one. -/
theorem wit_GetBitsReadsBackPutBits :
    0b101101 < 2 ^ 6 ∧ (5 < 8 ∧ Mem.read [(0, 0xC0#8)] 0 = some 0xC0 ∧
      ∀ j < 8, 5 ≤ j → (0xC0#8).getLsbD (7 - j) = false) ∧
    putBits 16 6 0b101101 { cur := { byteOff := 0, bitOff := 5 }, mem := [(0, 0xC0)] }
      = .ok { cur := { byteOff := 1, bitOff := 3 }, mem := [(0, 0xC5), (1, 0xA0)] } ∧
    (∀ i < 2, ([0xC5, 0xA0] : List Byte)[i]? = Mem.read [(0, 0xC5#8), (1, 0xA0#8)] i) ∧
    ({ byteOff := 1, bitOff := 3 } : Cursor).pos ≤ 16 :=
  ⟨by decide, by decide, rfl, by decide, by decide⟩

/-! GR_DEC. -/

theorem wit_DecodersCheckInOrder :
    (Instr.grDec = .grDec ∨ Instr.grDec = .golombDec) ∧ (Instr.golombDec = .grDec ∨ Instr.golombDec = .golombDec) ∧
    ({ core4 with packLen := 17 }).cfg.packCap < ({ core4 with packLen := 17 }).packLen.toNat ∧
    (¬ ({ core4 with packLen := 16 }).cfg.packCap < ({ core4 with packLen := 16 }).packLen.toNat ∧
      ({ core4 with packLen := 16 }).bParam = 0) ∧
    (({ core4 with bParam := 1 }).bParam ≠ 0 ∧ ({ core4 with bParam := 1 }).packLen = 0) := by and_intros <;> decide

/-- A sum of 8 with a full last byte, and the largest sum, `8 * (MAX_LEN + 1) = 40`. -/
theorem wit_GrDecReadsTheSymbolsBack :
    ((∀ v ∈ [1, 7], 1 ≤ v) ∧ [1, 7].sum % 8 = 0 ∧ [1, 7].sum ≤ 8 * (core4.cfg.maxLen + 1) ∧
      (withPacked core4 1 (packBits (streamOf 1 [1, 7]))).bParam ≠ 0 ∧
      HoldsPacked (withPacked core4 1 (packBits (streamOf 1 [1, 7])))
        (packBits (streamOf (withPacked core4 1 (packBits (streamOf 1 [1, 7]))).bParam.toNat [1, 7])) ∧
      (packBits (streamOf 1 [1, 7])).length ≤ core4.cfg.packCap) ∧
    ([39, 1].sum % 8 = 0 ∧ [39, 1].sum ≤ 8 * (core4.cfg.maxLen + 1) ∧
      HoldsPacked (withPacked core4 5 (packBits (streamOf 5 [39, 1])))
        (packBits (streamOf (withPacked core4 5 (packBits (streamOf 5 [39, 1]))).bParam.toNat [39, 1]))) := by and_intros <;> decide

/-- A byte of 1 bits is no stream of symbols: the decoder, which reads every such stream back, rejects it. -/
theorem wit_GrDecRejectsEveryOtherStream :
    HoldsPacked (withPacked core4 1 [0xFF]) [0xFF] ∧ ([0xFF] : List Byte).length ≤ core4.cfg.packCap ∧
    (withPacked core4 1 [0xFF]).bParam ≠ 0 ∧
    ¬ ∃ g : List Nat, g ≠ [] ∧ (∀ v ∈ g, 1 ≤ v) ∧ g.sum % 8 = 0 ∧ g.sum ≤ 8 * (core4.cfg.maxLen + 1) ∧
      [0xFF] = packBits (streamOf (withPacked core4 1 [0xFF]).bParam.toNat g) := by
  refine ⟨by decide, by decide, by decide, ?_⟩
  rintro ⟨g, -, h1, h2, h3, h⟩
  have hd := Laws.grDecodeCore_stream core4.cfg.maxLen (b := 1) (by decide) h1 h2 h3
  have h0 : grDecodeCore core4.cfg.maxLen 1 [0xFF] = .error .malformedStream := rfl
  have h : [0xFF] = packBits (streamOf 1 g) := h
  rw [← h, h0] at hd
  cases hd

theorem wit_GrDecOutputIsBounded :
    core4.cfg.Wf ∧ ∃ t, exec .grDec (withPacked core4 4 [0xB9, 0x33, 0x64, 0x00, 0x00, 0x00]) = .next t ∧
      (t.status.err == false) = true :=
  ⟨by decide, exists_of_after (by decide)⟩

theorem wit_GolombRiceRoundTrip :
    core4.cfg.Wf ∧ HoldsGaps (withGaps core4 5 [39, 1]) [39, 1] ∧ (∀ v ∈ [39, 1], 1 ≤ v) ∧ [39, 1].sum % 8 = 0 ∧
    [39, 1].sum ≤ 8 * (core4.cfg.maxLen + 1) ∧
    ∃ t, exec .grEnc (withGaps core4 5 [39, 1]) = .next t ∧ (t.status.err == false) = true :=
  ⟨by decide, by decide, by decide, by decide, by decide, exists_of_after (by decide)⟩

/-- One byte, and a full `PACKED`. -/
theorem wit_UnaryRunToTheLimitIsMalformed :
    (1 ≤ 1 ∧ 1 ≤ core4.cfg.packCap ∧ HoldsPacked (withPacked core4 1 [0xFF]) (List.replicate 1 0xFF) ∧
      (withPacked core4 1 [0xFF]).bParam ≠ 0) ∧
    (1 ≤ 16 ∧ 16 ≤ core4.cfg.packCap ∧
      HoldsPacked (withPacked core4 0xFFFFFFFF (List.replicate 16 0xFF)) (List.replicate 16 0xFF) ∧
      (withPacked core4 0xFFFFFFFF (List.replicate 16 0xFF)).bParam ≠ 0) := by and_intros <;> decide

/-! GOLOMB_ENC and GOLOMB_DEC. -/

/-- A core with MAX_LEN = 40, PACK_CAP = 16. -/
def core40 : State := { State.reset with cfg := { maxLen := 40, packCap := 16 } }

/-- Nineteen bytes with every second bit set: `b = 1`, and a stream of 160 bits. -/
def manyBytes : List Byte := List.replicate 19 0xAA

/-- A buffer that fits, and one whose symbols do not. -/
theorem wit_GolombEncCompresses :
    (core4.cfg.Wf ∧ HoldsBytes (withBytes core4 [1, 5, 4, 5]) [1, 5, 4, 5] ∧
      ([1, 5, 4, 5] : List Byte).length ≤ core4.cfg.maxLen ∧ 0 < zeroBits [1, 5, 4, 5] ∧
      zeroBits [1, 5, 4, 5] < 8 * ([1, 5, 4, 5] : List Byte).length ∧
      IsLeastB (8 * ([1, 5, 4, 5] : List Byte).length) (zeroBits [1, 5, 4, 5]) 4 ∧
      (streamOf 4 (gapsOf [1, 5, 4, 5])).length ≤ 8 * core4.cfg.packCap) ∧
    (core40.cfg.Wf ∧ HoldsBytes (withBytes core40 manyBytes) manyBytes ∧ manyBytes.length ≤ core40.cfg.maxLen ∧
      0 < zeroBits manyBytes ∧ zeroBits manyBytes < 8 * manyBytes.length ∧
      2 * zeroBits manyBytes ^ 1 ≤ (8 * manyBytes.length) ^ 1 ∧
      8 * core40.cfg.packCap < (streamOf 1 (gapsOf manyBytes)).length) := by
  refine ⟨⟨by decide, by decide, by decide, by decide, by decide, ⟨by decide, by decide, ?_⟩, by decide⟩,
    by and_intros <;> decide +kernel⟩
  have h : ∀ c < 4, 1 ≤ c → (8 * ([1, 5, 4, 5] : List Byte).length) ^ c < 2 * zeroBits [1, 5, 4, 5] ^ c := by decide
  exact fun c h1 h2 => h c h2 h1

/-- A stream whose sequence the run-length stage decodes, and one whose sequence lacks the sentinel. -/
theorem wit_GolombDecDecompressesOrRejects :
    ((∀ v ∈ [9, 1, 1, 1, 1, 1, 1, 1], 1 ≤ v) ∧ [9, 1, 1, 1, 1, 1, 1, 1].sum % 8 = 0 ∧
      [9, 1, 1, 1, 1, 1, 1, 1].sum ≤ 8 * (core4.cfg.maxLen + 1) ∧
      HoldsPacked (withPacked core4 3 (packBits (streamOf 3 [9, 1, 1, 1, 1, 1, 1, 1])))
        (packBits (streamOf (withPacked core4 3 (packBits (streamOf 3 [9, 1, 1, 1, 1, 1, 1, 1]))).bParam.toNat
          [9, 1, 1, 1, 1, 1, 1, 1])) ∧
      (packBits (streamOf 3 [9, 1, 1, 1, 1, 1, 1, 1])).length ≤ core4.cfg.packCap ∧
      Decodable core4.cfg.maxLen [9, 1, 1, 1, 1, 1, 1, 1]) ∧
    (HoldsPacked (withPacked core4 3 (packBits (streamOf 3 [8])))
        (packBits (streamOf (withPacked core4 3 (packBits (streamOf 3 [8]))).bParam.toNat [8])) ∧
      ¬ Decodable core4.cfg.maxLen [8]) := by and_intros <;> decide

theorem wit_GolombRoundTrip :
    core4.cfg.Wf ∧ HoldsBytes (withBytes core4 [1, 5, 4, 5]) [1, 5, 4, 5] ∧
    ∃ t, exec .golombEnc (withBytes core4 [1, 5, 4, 5]) = .next t ∧ (t.status.err == false) = true :=
  ⟨by decide, by decide, exists_of_after (by decide)⟩

/-- A buffer that compresses, one too long, one degenerate, one whose symbols do not fit. -/
theorem wit_GolombEncIsItsThreeStages :
    core4.cfg.Wf ∧ core40.cfg.Wf ∧ HoldsBytes (withBytes core4 [1, 5, 4, 5]) [1, 5, 4, 5] ∧
    HoldsBytes (withBytes core4 [1, 2, 3, 4, 5]) [1, 2, 3, 4, 5] ∧ HoldsBytes (withBytes core4 [0]) [0] ∧
    HoldsBytes (withBytes core40 manyBytes) manyBytes ∧
    (∃ t, exec .golombEnc (withBytes core4 [1, 5, 4, 5]) = .next t ∧ (t.status.err == false) = true) ∧
    (∃ t, exec .golombEnc (withBytes core4 [1, 2, 3, 4, 5]) = .next t ∧ t.status.err = true) ∧
    (∃ t, exec .golombEnc (withBytes core40 manyBytes) = .next t ∧ (t.status == failedWith 1) = true) :=
  ⟨by decide, by decide, by decide, by decide, by decide, by decide, exists_of_after (by decide),
    exists_of_after (by decide), exists_of_after (by decide)⟩

/-- A stream that decompresses, one the first stage rejects, one the second stage rejects. -/
theorem wit_GolombDecIsItsTwoStages :
    core4.cfg.Wf ∧ HoldsPacked (withPacked core4 4 [0xB9, 0x33, 0x64, 0, 0, 0]) [0xB9, 0x33, 0x64, 0, 0, 0] ∧
    HoldsPacked (withPacked core4 4 [0xFF]) [0xFF] ∧
    HoldsPacked (withPacked core4 3 (packBits (streamOf 3 [8]))) (packBits (streamOf 3 [8])) ∧
    (∃ t, exec .golombDec (withPacked core4 4 [0xB9, 0x33, 0x64, 0, 0, 0]) = .next t ∧
      (t.status.err == false) = true) ∧
    (∃ t, exec .grDec (withPacked core4 4 [0xFF]) = .next t ∧ t.status.err = true) ∧
    (∃ t, exec .golombDec (withPacked core4 3 (packBits (streamOf 3 [8]))) = .next t ∧ t.status.err = true) :=
  ⟨by decide, by decide, by decide, by decide, exists_of_after (by decide), exists_of_after (by decide),
    exists_of_after (by decide)⟩

end Sys2Proof.Tests
end

section
/-! PROOFS. The turns of the two agents, and what the engine's reads of unwritten cells record (R15, R19,
R67, R87, R200, R205). -/

namespace Sys2Proof.Proofs

open Sys2Proof.Machine Sys2Proof.Claims

/-! ### One step, by the next move (R19, R220) -/

theorem step_of_no_move {s : State} (h : s.moves = []) : step s = engineStep s := by
  simp only [step, h]

theorem step_of_engine {s : State} {ms : List Move} (h : s.moves = .engine :: ms) :
    step s = engineStep (s.withMoves ms) := by
  simp only [step, h]

theorem step_of_access {s : State} {op : HostOp} {ms : List Move} (h : s.moves = .access op :: ms) :
    step s = .next ((s.withMoves ms).hostAccess op) := by
  simp only [step, h]

theorem step_of_reset {s : State} {ms : List Move} (h : s.moves = .reset :: ms) :
    step s = .next (s.withMoves ms).hostReset := by
  simp only [step, h]

/-- While `BUSY = 1` a waiting host stays, and the engine has the turn (R87). -/
theorem step_of_wait_busy {s : State} {ms : List Move} (h : s.moves = .wait :: ms) (hb : s.status.busy = true) :
    step s = engineStep s := by
  simp only [step, h, hb, if_true]

theorem step_of_wait_idle {s : State} {ms : List Move} (h : s.moves = .wait :: ms) (hb : s.status.busy = false) :
    step s = .next ((s.withMoves ms).hostAccess statusRead) := by
  simp only [step, h, hb, Bool.false_eq_true, if_false]

theorem engineStep_answers_next (s : State) : ∃ t, engineStep s = .next t := by
  unfold engineStep
  split
  next w _ =>
    obtain ⟨t, _, ht, _⟩ := Laws.exec_ends (decode w) s
    exact ⟨t, ht⟩
  next => exact ⟨s, rfl⟩

/-- Settles O6: the step laws give the engine the turn, and its turn runs the pending word. -/
theorem stepRunsTheLatchedCommand : Obligations.StepRunsTheLatchedCommand := by
  intro s w hb hl
  have hp : s.pending = some w := Laws.pending_of_busy hb hl
  refine ⟨fun h => ?_, fun ms h => ?_, fun ms h => ?_⟩
  · rw [step_of_no_move h, Laws.engineStep_pending hp]
  · rw [step_of_wait_busy h hb, Laws.engineStep_pending hp]
  · rw [step_of_engine h]
    exact Laws.engineStep_pending (s := s.withMoves ms) hp

/-- Settles O7: an idle engine's turn answers the state it is given. -/
theorem idleEngineHasNoStep : Obligations.IdleEngineHasNoStep := by
  intro s hb
  refine ⟨fun h => ?_, fun ms h => ?_⟩
  · rw [step_of_no_move h, Laws.engineStep_idle hb]
  · rw [step_of_engine h]
    exact Laws.engineStep_idle (s := s.withMoves ms) hb

/-- Settles O19, by the next move: a host's move answers one state, and so does every turn of the engine. -/
theorem everyStepAnswersANextState : Obligations.EveryStepAnswersANextState := by
  intro s
  rcases h : s.moves with _ | ⟨op | _ | _ | _, ms⟩
  case nil => simpa only [step_of_no_move h] using engineStep_answers_next s
  case cons.access => exact ⟨_, step_of_access h⟩
  case cons.wait =>
    cases hb : s.status.busy with
    | true => simpa only [step_of_wait_busy h hb] using engineStep_answers_next s
    | false => exact ⟨_, step_of_wait_idle h hb⟩
  case cons.reset => exact ⟨_, step_of_reset h⟩
  case cons.engine => simpa only [step_of_engine h] using engineStep_answers_next (s.withMoves ms)

/-! ### Which reads are noted (R15, R67, R205) -/

/-- Whether a command's reads meet written cells only: so it is where it fails a check before it reads. -/
def readsWritten (s : State) : Instr → Bool
  | .rltLookup _ | .illegal _ => true
  | .rleEnc | .density | .golombEnc => s.byteLenTooLarge || s.srcBytesWritten
  | .rleDec => s.gapCountTooLarge || s.srcGapsWritten
  | .grEnc => s.gapCountTooLarge || s.b = 0 || s.srcGapsWritten
  | .grDec | .golombDec => s.packLenTooLarge || s.b = 0 || s.srcPackedWritten

theorem written_eq_false_iff {n : Nat} (m : Mem n) (len : Nat) :
    Mem.written m len = false ↔ ∃ j < len, Mem.read m j = none := by
  rw [← Bool.not_eq_true, Mem.written_iff]
  simp only [not_forall, exists_prop, Option.not_isSome_iff_eq_none]

theorem b_eq_zero_iff (s : State) : s.b = 0 ↔ s.bParam = 0 := by
  simp [State.b, ← BitVec.toNat_inj]

/-- `readsWritten` is the complement of the claims' `ReadsUnwritten`. -/
theorem readsWritten_eq_false_iff (s : State) (i : Instr) : readsWritten s i = false ↔ ReadsUnwritten s i := by
  cases i <;>
    simp [readsWritten, ReadsUnwritten, State.byteLenTooLarge, State.gapCountTooLarge, State.packLenTooLarge,
      State.srcBytesWritten, State.srcGapsWritten, State.srcPackedWritten, written_eq_false_iff, b_eq_zero_iff,
      and_assoc]

theorem srcGapsWritten_of_empty {s : State} (h : s.gapCount = 0) : s.srcGapsWritten = true := by
  rw [State.srcGapsWritten, h]; rfl

theorem srcPackedWritten_of_empty {s : State} (h : s.packLen = 0) : s.srcPackedWritten = true := by
  rw [State.srcPackedWritten, h]; rfl

/-- A command leaves in the fault record what its noted reads leave. By command and branch: each is a
check that fails before a read, or an end of the command after its reads. -/
theorem exec_faults {i : Instr} {s t : State} (h : exec i s = .next t) :
    t.faults = (s.noteReads (readsWritten s i)).faults := by
  cases i with
  | rltLookup v => cases h; rfl
  | rleEnc =>
    simp only [exec, execRleEnc] at h
    split_ifs at h with hl
    · cases h; simp [readsWritten, hl]
    · cases h; simp [readsWritten, hl]
  | rleDec =>
    simp only [exec, execRleDec] at h
    split_ifs at h with hl h0
    · cases h; simp [readsWritten, hl]
    · cases h; simp [readsWritten, srcGapsWritten_of_empty h0]
    · split at h <;> cases h <;> simp [readsWritten, hl]
  | density =>
    simp only [exec, execDensity] at h
    split_ifs at h with hl
    · cases h; simp [readsWritten, hl]
    · split at h <;> cases h <;> simp [readsWritten, hl]
  | grEnc =>
    simp only [exec, execGrEnc] at h
    split_ifs at h with hl hb h0
    · cases h; simp [readsWritten, hl]
    · cases h; simp [readsWritten, hb]
    · cases h; simp [readsWritten, srcGapsWritten_of_empty h0]
    · split at h <;> cases h <;> simp [readsWritten, hl, hb]
  | grDec =>
    simp only [exec, execGrDec] at h
    split_ifs at h with hl hb h0
    · cases h; simp [readsWritten, hl]
    · cases h; simp [readsWritten, hb]
    · cases h; simp [readsWritten, srcPackedWritten_of_empty h0]
    · split at h <;> cases h <;> simp [readsWritten, hl, hb]
  | golombEnc =>
    simp only [exec, execGolombEnc] at h
    split_ifs at h with hl
    · cases h; simp [readsWritten, hl]
    · split at h
      · cases h; simp [readsWritten, hl]
      · split at h <;> cases h <;> simp [readsWritten, hl]
  | golombDec =>
    simp only [exec, execGolombDec] at h
    split_ifs at h with hl hb h0
    · cases h; simp [readsWritten, hl]
    · cases h; simp [readsWritten, hb]
    · cases h; simp [readsWritten, srcPackedWritten_of_empty h0]
    · split at h
      · cases h; simp [readsWritten, hl, hb]
      · split at h <;> cases h <;> simp [readsWritten, hl, hb]
  | illegal w => cases h; rfl

/-- Settles O15: `exec_faults`, with `readsWritten` said in the words of the claims. -/
theorem unwrittenSourceIsRecorded : Obligations.UnwrittenSourceIsRecorded := by
  intro i s t h
  rw [exec_faults h, ← readsWritten_eq_false_iff]
  cases readsWritten s i <;> simp

end Sys2Proof.Proofs
end

section
/-! PROOFS. Everything a step and a host access can do, and what follows of the fault record (R39, R210), the
parameters and their registers (R29) and the register window (R20, R64). -/

namespace Sys2Proof.Proofs

open Sys2Proof.Machine Sys2Proof.Claims

/-! ### Everything a host access can do (R62 to R66, R240) -/

theorem target8_bytes {cfg : Config} {a i : Nat} (h : target8 cfg a = some (.bytes i)) : i < cfg.maxLen := by
  unfold target8 at h
  split_ifs at h with hb hp
  · have hi : a - bytesBase = i := by simpa using h
    omega
  · simp at h

theorem target8_packed {cfg : Config} {a i : Nat} (h : target8 cfg a = some (.packed i)) : i < cfg.packCap := by
  unfold target8 at h
  split_ifs at h with hb hp
  · simp at h
  · have hi : a - packedBase = i := by simpa using h
    omega

theorem target32_gaps {cfg : Config} {a j : Nat} (h : target32 cfg a = some (.gaps j)) : j < cfg.gapCap := by
  unfold target32 at h
  split_ifs at h with hm hr hg
  · simp at h
  · have hj : (a - gapsBase) / 4 = j := by simpa using h
    omega

/-- What a host access may leave of `s`: what it returns, a fault in the record, a register written, or one
cell written below its memory's capacity. -/
inductive AccessLeaves (s : State) : State → Prop where
  | returns (d : Option HostData) : AccessLeaves s (s.replied d)
  | records (f : Fault) : AccessLeaves s (s.faultAccess f)
  | writesReg {r : Reg} {v : Word} {t : State} (h : s.writeReg r v = some t) : AccessLeaves s (t.replied none)
  | writesBytes {i : Nat} (v : Byte) (h : i < s.cfg.maxLen) :
      AccessLeaves s (({ s with bytes := Mem.write s.bytes i v }).replied none)
  | writesPacked {i : Nat} (v : Byte) (h : i < s.cfg.packCap) :
      AccessLeaves s (({ s with packed := Mem.write s.packed i v }).replied none)
  | writesGaps {j : Nat} (v : Word) (h : j < s.cfg.gapCap) :
      AccessLeaves s (({ s with gaps := Mem.write s.gaps j v }).replied none)

theorem replyCell_leaves (s : State) (d : Option HostData) : AccessLeaves s (s.replyCell d) := by
  cases d with
  | none => exact .records _
  | some v => exact .returns _

theorem idleAccess_leaves (s : State) (op : HostOp) : AccessLeaves s (s.idleAccess op) := by
  cases op with
  | read8 a =>
    simp only [State.idleAccess, State.hostRead8]
    split
    · exact replyCell_leaves s _
    · exact replyCell_leaves s _
    · exact .records _
  | write8 a v =>
    simp only [State.idleAccess, State.hostWrite8]
    split
    next h => exact .writesBytes v (target8_bytes h)
    next h => exact .writesPacked v (target8_packed h)
    next => exact .records _
  | read32 a =>
    simp only [State.idleAccess, State.hostRead32]
    split
    · exact .returns _
    · exact replyCell_leaves s _
    · exact .records _
  | write32 a v =>
    simp only [State.idleAccess, State.hostWrite32]
    split
    · split
      next h => exact .writesReg h
      next => exact .records _
    next h => exact .writesGaps v (target32_gaps h)
    next => exact .records _

theorem hostAccess_leaves (s : State) (op : HostOp) : AccessLeaves s (s.hostAccess op) := by
  unfold State.hostAccess
  split_ifs
  · exact .returns _
  · exact .records _
  · exact idleAccess_leaves s op

/-! ### Everything a step can do (R19, R220) -/

/-- A turn of the engine is one command, or leaves the state as it is (R19). -/
theorem engineStep_cases {s t : State} (h : engineStep s = .next t) : t = s ∨ ∃ i, exec i s = .next t := by
  unfold engineStep at h
  split at h
  · exact .inr ⟨_, h⟩
  · cases h; exact .inl rfl

/-- The inversion of `step`: the moves advance or stay, and then nothing else, a command, a host access or
the reset input. -/
theorem step_cases {s t : State} (h : step s = .next t) :
    ∃ ms, t = s.withMoves ms ∨ (∃ i, exec i (s.withMoves ms) = .next t) ∨
      (∃ op, t = (s.withMoves ms).hostAccess op) ∨ t = (s.withMoves ms).hostReset := by
  have stay (he : engineStep s = .next t) : t = s.withMoves s.moves ∨ ∃ i, exec i (s.withMoves s.moves) = .next t :=
    engineStep_cases he
  rcases hm : s.moves with _ | ⟨op | _ | _ | _, ms⟩
  case nil =>
    rw [step_of_no_move hm] at h
    exact ⟨s.moves, (stay h).imp_right .inl⟩
  case cons.access =>
    rw [step_of_access hm] at h
    cases h; exact ⟨ms, .inr (.inr (.inl ⟨op, rfl⟩))⟩
  case cons.wait =>
    cases hb : s.status.busy with
    | true =>
      rw [step_of_wait_busy hm hb] at h
      exact ⟨s.moves, (stay h).imp_right .inl⟩
    | false =>
      rw [step_of_wait_idle hm hb] at h
      cases h; exact ⟨ms, .inr (.inr (.inl ⟨statusRead, rfl⟩))⟩
  case cons.reset =>
    rw [step_of_reset hm] at h
    cases h; exact ⟨ms, .inr (.inr (.inr rfl))⟩
  case cons.engine =>
    rw [step_of_engine hm] at h
    exact ⟨ms, (engineStep_cases h).imp_right .inl⟩

/-! ### The fault record (R39, R210) -/

theorem has_add (r : FaultRecord) (f g : Fault) : (r.add g).has f = (r.has f || decide (f = g)) := by
  cases g <;> cases f <;> simp [FaultRecord.add, FaultRecord.has]

theorem writeReg_faults {s t : State} {r : Reg} {v : Word} (h : s.writeReg r v = some t) : t.faults = s.faults := by
  cases r <;> cases h <;> rfl

theorem exec_keeps_fault {i : Instr} {s t : State} {f : Fault} (h : exec i s = .next t)
    (hf : s.faults.has f = true) : t.faults.has f = true := by
  rw [exec_faults h, State.noteReads_faults]
  split_ifs
  · exact hf
  · rw [has_add, hf, Bool.true_or]

theorem AccessLeaves.keeps_fault {s t : State} {f : Fault} (h : AccessLeaves s t) (hf : s.faults.has f = true) :
    t.faults.has f = true := by
  cases h with
  | records g => rw [State.faultAccess_faults, has_add, hf, Bool.true_or]
  | writesReg hr => exact (writeReg_faults hr).symm ▸ hf
  | returns | writesBytes | writesPacked | writesGaps => exact hf

/-- Settles O18, by what a step can do: a command and an access add to the record, a reset keeps it. -/
theorem faultRecordNeverShrinks : Obligations.FaultRecordNeverShrinks := by
  intro s t f h hf
  obtain ⟨ms, rfl | ⟨i, hx⟩ | ⟨op, rfl⟩ | rfl⟩ := step_cases h
  · exact hf
  · exact exec_keeps_fault (s := s.withMoves ms) hx hf
  · exact (hostAccess_leaves (s.withMoves ms) op).keeps_fault hf
  · exact hf

/-! ### The register window (R20, R64) -/

/-- Each register is reached at its offset, whatever the parameters. -/
theorem target32_offset (cfg : Config) (r : Reg) :
    target32 cfg (BitVec.ofNat 32 r.offset).toNat = some (.reg r) := by
  cases r <;> rfl

section
variable {s : State} {ms : List Move} {r : Reg}

/-- While `BUSY = 0` an access is judged by its address and its width alone. -/
theorem step_of_idle_access {op : HostOp} (hb : s.status.busy = false) (h : s.moves = .access op :: ms) :
    step s = .next ((s.withMoves ms).idleAccess op) := by
  rw [step_of_access h, State.hostAccess, State.withMoves_status, hb]
  rfl

theorem step_read_reg (r : Reg) (hb : s.status.busy = false)
    (h : s.moves = .access (.read32 (BitVec.ofNat 32 r.offset)) :: ms) :
    step s = .next ((s.withMoves ms).replied (some (.word (s.readReg r)))) := by
  rw [step_of_idle_access hb h]
  simp only [State.idleAccess, State.hostRead32, target32_offset]
  cases r <;> rfl

theorem step_write_reg {v : Word} {t : State} (hb : s.status.busy = false)
    (h : s.moves = .access (.write32 (BitVec.ofNat 32 r.offset) v) :: ms)
    (hw : (s.withMoves ms).writeReg r v = some t) : step s = .next (t.replied none) := by
  rw [step_of_idle_access hb h]
  simp only [State.idleAccess, State.hostWrite32, target32_offset, hw]

theorem step_write_readOnly {v : Word} (hb : s.status.busy = false)
    (h : s.moves = .access (.write32 (BitVec.ofNat 32 r.offset) v) :: ms)
    (hw : (s.withMoves ms).writeReg r v = none) : step s = .next ((s.withMoves ms).faultAccess .hostBusError) := by
  rw [step_of_idle_access hb h]
  simp only [State.idleAccess, State.hostWrite32, target32_offset, hw]

end

/-- Settles O25: the list of O25 is eight registers with their offsets, and each write is that of its register. -/
theorem registerWindowReadsAndWrites : Obligations.RegisterWindowReadsAndWrites := by
  intro s ms hb
  refine ⟨fun p hp hm => ?_, fun v hm => ?_, fun v hm => ?_, fun v hm => ?_, fun v hm => ?_⟩
  · have hp : p ∈ [Reg.cmd, .status, .byteLen, .gapCount, .packLen, .bParam, .zeroCount, .packBits].map
        fun r => (BitVec.ofNat 32 r.offset, s.readReg r) := hp
    obtain ⟨r, -, rfl⟩ := List.mem_map.1 hp
    exact step_read_reg r hb hm
  · exact step_write_reg (r := .byteLen) hb hm rfl
  · exact step_write_reg (r := .gapCount) hb hm rfl
  · exact step_write_reg (r := .packLen) hb hm rfl
  · exact step_write_reg (r := .bParam) hb hm rfl

/-! ### The parameters (R6, R8, R29) -/

theorem exec_cfg {i : Instr} {s t : State} (h : exec i s = .next t) : t.cfg = s.cfg := by
  obtain ⟨ok, ⟨e, rfl⟩ | hs⟩ := Laws.exec_cases h
  · simp
  · cases i with
    | rltLookup | rleEnc | rleDec | grDec => obtain ⟨vs, rfl⟩ := hs; simp
    | density => obtain ⟨b, z, rfl⟩ := hs; simp
    | grEnc => obtain ⟨m, bits, len, rfl⟩ := hs; simp
    | golombEnc => obtain ⟨vs, b, z, m, bits, len, rfl⟩ := hs; simp
    | golombDec => obtain ⟨vs, bs, rfl⟩ := hs; simp
    | illegal => exact hs.elim

theorem writeReg_cfg {s t : State} {r : Reg} {v : Word} (h : s.writeReg r v = some t) : t.cfg = s.cfg := by
  cases r <;> cases h <;> rfl

theorem AccessLeaves.cfg_eq {s t : State} (h : AccessLeaves s t) : t.cfg = s.cfg := by
  cases h with
  | writesReg hr => exact (writeReg_cfg hr :)
  | returns | records | writesBytes | writesPacked | writesGaps => rfl

theorem step_cfg {s t : State} (h : step s = .next t) : t.cfg = s.cfg := by
  obtain ⟨ms, rfl | ⟨i, hx⟩ | ⟨op, rfl⟩ | rfl⟩ := step_cases h
  · rfl
  · exact exec_cfg (s := s.withMoves ms) hx
  · exact (hostAccess_leaves _ op).cfg_eq
  · rfl

/-- Settles O20: no step changes the parameters, and the capability registers read them and are read-only. -/
theorem capabilitiesAreConstant : Obligations.CapabilitiesAreConstant := by
  refine ⟨fun s t h => step_cfg h, fun s ms hb => ⟨fun hm => ?_, fun hm => ?_, fun hm => ?_, fun a ha v hm => ?_⟩⟩
  · exact step_read_reg .capMaxLen hb hm
  · exact step_read_reg .capGap hb hm
  · exact step_read_reg .capPack hb hm
  · have ha : a ∈ [Reg.capMaxLen, .capGap, .capPack].map fun r => BitVec.ofNat 32 r.offset := ha
    obtain ⟨r, hr, rfl⟩ := List.mem_map.1 ha
    have hro : (s.withMoves ms).writeReg r v = none := by
      simp only [List.mem_cons, List.not_mem_nil, or_false] at hr
      obtain rfl | rfl | rfl := hr <;> rfl
    exact step_write_readOnly hb hm hro

end Sys2Proof.Proofs
end

section
/-! PROOFS. What a command that succeeds stores: as many cells as its length says, within the memory's capacity
(R34, R133, R145, R163, R176). -/

namespace Sys2Proof.Proofs

open Sys2Proof.Machine Sys2Proof.Claims

/-! ### Block stores -/

/-- `m` is `m0` with exactly the cells below `len` written, all within the capacity. -/
structure CellsStored {n : Nat} (cap len : Nat) (m m0 : Mem n) : Prop where
  fits : len ≤ cap
  below : ∀ j < len, (Mem.read m j).isSome
  above : ∀ j, len ≤ j → Mem.read m j = Mem.read m0 j
  wf : Mem.wf m0 cap → Mem.wf m cap

theorem cellsStored_writeList {n cap : Nat} (m0 : Mem n) (vs : List (BitVec n)) (h : vs.length ≤ cap) :
    CellsStored cap vs.length (Mem.writeList m0 0 vs) m0 where
  fits := h
  below j hj := by simp [Mem.read_writeList_zero, hj]
  above j hj := by simp [Mem.read_writeList_zero, hj]
  wf hm := Mem.wf_writeList vs hm (by omega)

theorem cellsStored_toWords {cap : Nat} (m0 : Mem 32) (g : List Nat) (h : g.length ≤ cap) :
    CellsStored cap g.length (Mem.writeList m0 0 (toWords g)) m0 := by
  simpa using cellsStored_writeList m0 (toWords g) (by simpa using h)

/-- A length register holds a length within a capacity below `2^32` as it is (R14). -/
theorem CellsStored.toNat_len {n cap len : Nat} {m m0 : Mem n} (h : CellsStored cap len m m0) (hc : cap < 2 ^ 32) :
    (BitVec.ofNat 32 len).toNat = len := by
  rw [BitVec.toNat_ofNat]
  exact Nat.mod_eq_of_lt (Nat.lt_of_le_of_lt h.fits hc)

/-! ### The lengths of the results -/

theorem length_srcBytes_le {s : State} (h : ¬ s.byteLenTooLarge = true) : s.srcBytes.length ≤ s.cfg.maxLen := by
  simpa [State.srcBytes, State.byteLenTooLarge] using h

/-- A table entry has at most a gap for each bit, the run at its end and the flag (R100); with `MAX_LEN >= 1`
(R6) `GAPS` has room for it. -/
theorem length_rlt_le (v : Byte) {cfg : Config} (h : cfg.Wf) : (rlt v).length ≤ cfg.gapCap := by
  have ones : (Laws.gapScan 0 (byteBits v)).length ≤ 8 := by
    simpa only [Laws.length_gapScan, popcount] using Laws.popcount_le v
  have cells : (rlt v).length ≤ 10 := by
    rw [rlt, Laws.rltScan_eq, List.length_append]
    split_ifs <;> simp only [List.length_cons, List.length_nil] <;> omega
  obtain ⟨⟨hmax, -⟩, -⟩ := h
  rw [Config.gapCap]
  omega

theorem length_rleEncode_le {src : List Byte} {cfg : Config} (h : src.length ≤ cfg.maxLen) :
    (rleEncode src).length ≤ cfg.gapCap := by
  have := Laws.length_gapsOf_le src
  rw [Laws.rleEncode_eq_gapsOf, Config.gapCap]
  omega

theorem rleDecodeCore_length_le {maxLen : Nat} {g : List Nat} {buf : List Byte}
    (h : rleDecodeCore maxLen g = .ok buf) : buf.length ≤ maxLen := by
  rw [Laws.rleDecodeCore_eq] at h
  split_ifs at h with hd
  obtain ⟨-, -, hsum, hmod, -⟩ := hd
  cases h
  simp only [bytesOf, Laws.length_packBits, List.length_map, List.length_range]
  omega

theorem grDecodeCore_length_le {cfg : Config} {b : Nat} {src : List Byte} {out : List Nat}
    (h : grDecodeCore cfg.maxLen b src = .ok out) : out.length ≤ cfg.gapCap := by
  obtain ⟨hpos, hsum, -⟩ := Laws.grDecodeCore_bounds h
  have := Laws.length_le_sum hpos
  rw [Config.gapCap]
  omega

theorem estimateB_zeros_le {src : List Byte} {b z : Nat} (h : estimateB src = .ok (b, z)) : z ≤ 8 * src.length := by
  have := Laws.zeroBits_add_ones src
  rw [Laws.estimateB_eq] at h
  split_ifs at h
  cases h
  omega

/-! ### The packed stream (R112, R163) -/

section
variable {cap : Nat} {w w' : Writer}

theorem putBit_wf {c : Bool} (h : putBit cap c w = .ok w') (hm : Mem.wf w.mem cap) : Mem.wf w'.mem cap := by
  unfold putBit at h
  split_ifs at h with hfull
  all_goals
    have hi : w.cur.byteOff < cap := by
      simp only [Cursor.pos] at hfull
      omega
    cases h
  · exact Mem.wf_write _ (Mem.wf_write _ hm hi) hi
  · exact Mem.wf_write _ hm hi

theorem putBits_wf {n x : Nat} (h : putBits cap n x w = .ok w') (hm : Mem.wf w.mem cap) : Mem.wf w'.mem cap := by
  induction n generalizing w with
  | zero => cases h; exact hm
  | succ n ih =>
    simp only [putBits] at h
    split at h
    · cases h
    next w1 hw => exact ih h (putBit_wf hw hm)

theorem putUnary_wf {q : Nat} (h : putUnary cap q w = .ok w') (hm : Mem.wf w.mem cap) : Mem.wf w'.mem cap := by
  induction q generalizing w with
  | zero => exact putBit_wf h hm
  | succ q ih =>
    simp only [putUnary] at h
    split at h
    · cases h
    next w1 hw => exact ih h (putBit_wf hw hm)

theorem encodeSymbol_wf {v b : Nat} (h : encodeSymbol cap v b w = .ok w') (hm : Mem.wf w.mem cap) :
    Mem.wf w'.mem cap := by
  simp only [encodeSymbol] at h
  split at h
  · cases h
  next w1 hw =>
    split_ifs at h
    · exact putBits_wf h (putUnary_wf hw hm)
    · exact putBits_wf h (putUnary_wf hw hm)

/-- The encoder's loop succeeds on no entry 0 (R161), and writes within `PACKED`. -/
theorem encodeSymbols_ok {b : Nat} {g : List Nat} (h : encodeSymbols cap b g w = .ok w') :
    (∀ v ∈ g, 1 ≤ v) ∧ (Mem.wf w.mem cap → Mem.wf w'.mem cap) := by
  induction g generalizing w with
  | nil => cases h; simp
  | cons v g ih =>
    simp only [encodeSymbols] at h
    split_ifs at h with hv
    split at h
    · cases h
    next w1 hw =>
      obtain ⟨hpos, hwf⟩ := ih h
      exact ⟨List.forall_mem_cons.2 ⟨by omega, hpos⟩, fun hm => hwf (encodeSymbol_wf hw hm)⟩

end

/-- What a successful packing leaves in `PACKED`, with `PACK_LEN` and `PACK_BITS` as `Finish` gives them
(R114). -/
theorem grEncode_ok {cap b : Nat} {g : List Nat} {m : Mem 8} {w : Writer} (h : grEncode cap b g m = .ok w) :
    CellsStored cap w.cur.finish.2 w.mem m ∧ w.cur.finish.1 ≤ 8 * cap := by
  obtain ⟨hpos, hwf⟩ := encodeSymbols_ok h
  obtain ⟨hfits, hfull⟩ := Laws.grEncode_spec cap b hpos m
  have hlen : (streamOf b g).length ≤ 8 * cap := by
    by_contra hlt
    cases h.symm.trans (hfull (by omega))
  obtain ⟨w1, hw, hp, hbit, hread⟩ := hfits hlen
  cases h.symm.trans hw
  rw [Laws.finish_eq hbit, hp]
  refine ⟨⟨by dsimp only; omega, fun j hj => ?_, fun j hj => ?_, hwf⟩, hlen⟩
  · rw [hread, if_pos (by dsimp only at hj; omega), Option.isSome_some]
  · rw [hread, if_neg (by dsimp only at hj; omega)]

/-! ### How a command ends -/

/-- The stores of a command that succeeds from the state `s` on, each within its capacity: `Laws.Stored` with
the bounds. -/
def StoredWithin (s t : State) : Instr → Prop
  | .rltLookup _ | .rleEnc | .grDec =>
    ∃ m len, CellsStored s.cfg.gapCap len m s.gaps ∧ t = (s.putGaps m len).complete
  | .rleDec => ∃ m len, CellsStored s.cfg.maxLen len m s.bytes ∧ t = (s.putBytes m len).complete
  | .density => ∃ b z, z ≤ 8 * s.cfg.maxLen ∧ t = (s.putDensity b z).complete
  | .grEnc => ∃ m bits len, CellsStored s.cfg.packCap len m s.packed ∧ bits ≤ 8 * s.cfg.packCap ∧
      t = (s.putPacked m bits len).complete
  | .golombEnc => ∃ mg count b z mp bits len, CellsStored s.cfg.gapCap count mg s.gaps ∧ z ≤ 8 * s.cfg.maxLen ∧
      CellsStored s.cfg.packCap len mp s.packed ∧ bits ≤ 8 * s.cfg.packCap ∧
      t = (((s.putGaps mg count).putDensity b z).putPacked mp bits len).complete
  | .golombDec => ∃ mg count mb len, CellsStored s.cfg.gapCap count mg s.gaps ∧
      CellsStored s.cfg.maxLen len mb s.bytes ∧ t = ((s.putGaps mg count).putBytes mb len).complete
  | .illegal _ => False

theorem stored_status {i : Instr} {s t : State} (h : Laws.Stored s t i) : t.status = Status.success := by
  cases i with
  | rltLookup | rleEnc | rleDec | grDec => obtain ⟨vs, rfl⟩ := h; rfl
  | density => obtain ⟨b, z, rfl⟩ := h; rfl
  | grEnc => obtain ⟨m, bits, len, rfl⟩ := h; rfl
  | golombEnc => obtain ⟨vs, b, z, m, bits, len, rfl⟩ := h; rfl
  | golombDec => obtain ⟨vs, bs, rfl⟩ := h; rfl
  | illegal => exact h.elim

/-- A command that ends with an error has raised it (R202). -/
theorem exec_failed {i : Instr} {s t : State} (h : exec i s = .next t) (he : t.status.err = true) :
    ∃ ok e, t = (s.noteReads ok).raise i e := by
  obtain ⟨ok, hr | hs⟩ := Laws.exec_cases h
  · exact ⟨ok, hr⟩
  · rw [stored_status hs] at he
    cases he

/-- A command that raises an error does not succeed. -/
theorem raise_not_succeeded {s t : State} {i : Instr} {e : ErrorCode}
    (h : (.next (s.raise i e) : Host.Outcome State Fault Refusal) = .next t) (he : t.status.err = false) : False := by
  cases h
  rw [State.raise_status] at he
  cases he

theorem estimateB_zeros_le_maxLen {s : State} {b z : Nat} (hl : ¬ s.byteLenTooLarge = true)
    (h : estimateB s.srcBytes = .ok (b, z)) : z ≤ 8 * s.cfg.maxLen :=
  Nat.le_trans (estimateB_zeros_le h) (Nat.mul_le_mul_left 8 (length_srcBytes_le hl))

/-- A command that succeeds has stored within the capacities. By command: the branches that raise an error are
no success, and the one left stores a result of bounded length. -/
theorem exec_succeeded {i : Instr} {s t : State} (hc : s.cfg.Wf) (h : exec i s = .next t)
    (he : t.status.err = false) : ∃ ok, StoredWithin (s.noteReads ok) t i := by
  cases i with
  | rltLookup v =>
    cases h
    exact ⟨true, _, _, cellsStored_toWords _ _ (length_rlt_le v hc), rfl⟩
  | rleEnc =>
    simp only [exec, execRleEnc] at h
    split_ifs at h with hl
    · exact (raise_not_succeeded h he).elim
    · cases h
      exact ⟨_, _, _, cellsStored_toWords _ _ (by simpa using length_rleEncode_le (length_srcBytes_le hl)), rfl⟩
  | rleDec =>
    simp only [exec, execRleDec] at h
    split_ifs at h
    any_goals exact (raise_not_succeeded h he).elim
    split at h
    · exact (raise_not_succeeded h he).elim
    next buf hd =>
      cases h
      exact ⟨_, _, _, cellsStored_writeList _ _ (by simpa using rleDecodeCore_length_le hd), rfl⟩
  | density =>
    simp only [exec, execDensity] at h
    split_ifs at h with hl
    · exact (raise_not_succeeded h he).elim
    · split at h
      · exact (raise_not_succeeded h he).elim
      next b z hz =>
        cases h
        exact ⟨_, b, z, by simpa using estimateB_zeros_le_maxLen hl hz, rfl⟩
  | grEnc =>
    simp only [exec, execGrEnc] at h
    split_ifs at h
    any_goals exact (raise_not_succeeded h he).elim
    split at h
    · exact (raise_not_succeeded h he).elim
    next w hw =>
      cases h
      obtain ⟨hcells, hbits⟩ := grEncode_ok hw
      exact ⟨_, _, _, _, by simpa using hcells, by simpa using hbits, rfl⟩
  | grDec =>
    simp only [exec, execGrDec] at h
    split_ifs at h
    any_goals exact (raise_not_succeeded h he).elim
    split at h
    · exact (raise_not_succeeded h he).elim
    next out hd =>
      cases h
      exact ⟨_, _, _, cellsStored_toWords _ _ (by simpa using grDecodeCore_length_le hd), rfl⟩
  | golombEnc =>
    simp only [exec, execGolombEnc] at h
    split_ifs at h with hl
    · exact (raise_not_succeeded h he).elim
    · split at h
      · exact (raise_not_succeeded h he).elim
      next b z hz =>
        split at h
        · exact (raise_not_succeeded h he).elim
        next w hw =>
          cases h
          obtain ⟨hcells, hbits⟩ := grEncode_ok hw
          exact ⟨_, _, _, b, z, _, _, _,
            cellsStored_toWords _ _ (by simpa using length_rleEncode_le (length_srcBytes_le hl)),
            by simpa using estimateB_zeros_le_maxLen hl hz, by simpa using hcells, by simpa using hbits, rfl⟩
  | golombDec =>
    simp only [exec, execGolombDec] at h
    split_ifs at h
    any_goals exact (raise_not_succeeded h he).elim
    split at h
    · exact (raise_not_succeeded h he).elim
    next g hg =>
      split at h
      · exact (raise_not_succeeded h he).elim
      next buf hd =>
        cases h
        exact ⟨_, _, _, _, _, cellsStored_toWords _ _ (by simpa using grDecodeCore_length_le hg),
          cellsStored_writeList _ _ (by simpa using rleDecodeCore_length_le hd), rfl⟩
  | illegal w => exact (raise_not_succeeded h he).elim

/-! ### The cells of the destinations (R34, R203) -/

/-- The capacities are below `2^32` (R6 to R8). -/
theorem capacities_lt {c : Config} (h : c.Wf) : c.maxLen < 2 ^ 32 ∧ c.gapCap < 2 ^ 32 ∧ c.packCap < 2 ^ 32 := by
  obtain ⟨⟨-, hmax⟩, -, hpack⟩ := h
  rw [Config.gapCap]
  omega

/-- The cells of a destination against the length in its register. -/
theorem CellsStored.cells {n cap len : Nat} {m m0 : Mem n} (h : CellsStored cap len m m0) (hc : cap < 2 ^ 32)
    (j : Nat) : (j < (BitVec.ofNat 32 len).toNat → (Mem.read m j).isSome) ∧
      ((BitVec.ofNat 32 len).toNat ≤ j → Mem.read m j = Mem.read m0 j) := by
  rw [h.toNat_len hc]
  exact ⟨h.below j, h.above j⟩

/-- Settles O14: a success stored each destination below its length, and an error cleaned them up. -/
theorem successWritesBelowTheNewLength : Obligations.SuccessWritesBelowTheNewLength := by
  intro i s t hc h
  obtain ⟨hmax, hgap, hpack⟩ := capacities_lt hc
  refine ⟨fun he => ?_, fun he => ?_⟩
  · obtain ⟨ok, hs⟩ := exec_succeeded hc h he
    cases i with
    | rltLookup | rleEnc | grDec =>
      obtain ⟨m, len, hm, rfl⟩ := hs
      simp only [State.noteReads_gaps, State.noteReads_cfg] at hm
      exact ⟨by simp [writesOf], fun _ => hm.cells hgap, by simp [writesOf]⟩
    | rleDec =>
      obtain ⟨m, len, hm, rfl⟩ := hs
      simp only [State.noteReads_bytes, State.noteReads_cfg] at hm
      exact ⟨fun _ => hm.cells hmax, by simp [writesOf], by simp [writesOf]⟩
    | density => simp [writesOf]
    | grEnc =>
      obtain ⟨m, bits, len, hm, -, rfl⟩ := hs
      simp only [State.noteReads_packed, State.noteReads_cfg] at hm
      exact ⟨by simp [writesOf], by simp [writesOf], fun _ => hm.cells hpack⟩
    | golombEnc =>
      obtain ⟨mg, count, b, z, mp, bits, len, hg, -, hp, -, rfl⟩ := hs
      simp only [State.noteReads_gaps, State.noteReads_packed, State.noteReads_cfg] at hg hp
      exact ⟨by simp [writesOf], fun _ => hg.cells hgap, fun _ => hp.cells hpack⟩
    | golombDec =>
      obtain ⟨mg, count, mb, len, hg, hb, rfl⟩ := hs
      simp only [State.noteReads_gaps, State.noteReads_bytes, State.noteReads_cfg] at hg hb
      exact ⟨fun _ => hb.cells hmax, fun _ => hg.cells hgap, by simp [writesOf]⟩
    | illegal => exact hs.elim
  · obtain ⟨ok, e, rfl⟩ := exec_failed h he
    cases i <;> simp [writesOf, State.cleanup]

end Sys2Proof.Proofs
end

section
/-! PROOFS. The invariant of the machine: each operation of the state keeps its part, so every step keeps it
(R22, R27, R28, R32, R37, R200). -/

namespace Sys2Proof.Proofs

open Sys2Proof.Machine Sys2Proof.Claims

/-! ### The invariant's part about memories and result registers -/

/-- The invariant but for `STATUS` and the latch: what the stores of a command have to keep. -/
structure DataOk (s : State) : Prop where
  cfg : s.cfg.Wf
  bytes : Mem.wf s.bytes s.cfg.maxLen
  gaps : Mem.wf s.gaps s.cfg.gapCap
  packed : Mem.wf s.packed s.cfg.packCap
  zeroCount : s.zeroCount.toNat ≤ 8 * s.cfg.maxLen
  packBits : s.packBits.toNat ≤ 8 * s.cfg.packCap

theorem inv_dataOk {s : State} (h : s.Inv) : DataOk s := by
  obtain ⟨hcfg, hbytes, hgaps, hpacked, -, -, hzero, hbits⟩ := h
  exact ⟨hcfg, hbytes, hgaps, hpacked, hzero, hbits⟩

theorem toNat_ofNat_le {n bound : Nat} (h : n ≤ bound) : (BitVec.ofNat 32 n).toNat ≤ bound := by
  rw [BitVec.toNat_ofNat]
  exact Nat.le_trans (Nat.mod_le _ _) h

namespace DataOk

variable {s : State}

theorem putBytes (h : DataOk s) {m : Mem 8} (len : Nat) (hm : Mem.wf m s.cfg.maxLen) : DataOk (s.putBytes m len) :=
  { h with bytes := hm }

theorem putGaps (h : DataOk s) {m : Mem 32} (count : Nat) (hm : Mem.wf m s.cfg.gapCap) :
    DataOk (s.putGaps m count) :=
  { h with gaps := hm }

theorem putPacked (h : DataOk s) {m : Mem 8} {bits : Nat} (len : Nat) (hm : Mem.wf m s.cfg.packCap)
    (hb : bits ≤ 8 * s.cfg.packCap) : DataOk (s.putPacked m bits len) :=
  { h with packed := hm, packBits := toNat_ofNat_le hb }

theorem putDensity (h : DataOk s) (b : Nat) {z : Nat} (hz : z ≤ 8 * s.cfg.maxLen) : DataOk (s.putDensity b z) :=
  { h with zeroCount := toNat_ofNat_le hz }

theorem noteReads (h : DataOk s) (ok : Bool) : DataOk (s.noteReads ok) := by
  cases ok with
  | true => exact h
  | false => exact { h with }

theorem cleanup (h : DataOk s) (i : Instr) : DataOk (s.cleanup i) := by
  have hg := h.putGaps 0 (Mem.wf_nil _)
  cases i with
  | rltLookup | rleEnc | grDec => exact hg
  | rleDec => exact h.putBytes 0 (Mem.wf_nil _)
  | density => exact h.putDensity 0 (Nat.zero_le _)
  | grEnc => exact h.putPacked 0 (Mem.wf_nil _) (Nat.zero_le _)
  | golombEnc => exact (hg.putDensity 0 (Nat.zero_le _)).putPacked 0 (Mem.wf_nil _) (Nat.zero_le _)
  | golombDec => exact hg.putBytes 0 (Mem.wf_nil _)
  | illegal => exact h

/-- The end of a command: with none pending the latch is empty (R37, R202). -/
theorem inv_finish (h : DataOk s) {st : Status} (hst : st.Ok) (hb : st.busy = false) : (s.finish st).Inv := by
  refine ⟨h.cfg, h.bytes, h.gaps, h.packed, hst, ?_, h.zeroCount, h.packBits⟩
  rw [State.finish_latch, State.finish_status, hb]
  rfl

theorem inv_complete (h : DataOk s) : s.complete.Inv := h.inv_finish (by decide) rfl

theorem inv_raise (h : DataOk s) (i : Instr) (e : ErrorCode) : (s.raise i e).Inv :=
  (h.cleanup i).inv_finish (by cases e <;> decide) rfl

theorem inv_start (h : DataOk s) (w : Word) : (s.start w).Inv :=
  ⟨h.cfg, h.bytes, h.gaps, h.packed, show Status.running.Ok by decide, rfl, h.zeroCount, h.packBits⟩

theorem inv_hostReset (h : DataOk s) : s.hostReset.Inv :=
  ⟨h.cfg, Mem.wf_nil _, Mem.wf_nil _, Mem.wf_nil _, show Status.idle.Ok by decide, rfl, Nat.zero_le _, Nat.zero_le _⟩

theorem inv_stored (h : DataOk s) {i : Instr} {t : State} (hs : StoredWithin s t i) : t.Inv := by
  cases i with
  | rltLookup | rleEnc | grDec =>
    obtain ⟨m, len, hm, rfl⟩ := hs
    exact (h.putGaps len (hm.wf h.gaps)).inv_complete
  | rleDec =>
    obtain ⟨m, len, hm, rfl⟩ := hs
    exact (h.putBytes len (hm.wf h.bytes)).inv_complete
  | density =>
    obtain ⟨b, z, hz, rfl⟩ := hs
    exact (h.putDensity b hz).inv_complete
  | grEnc =>
    obtain ⟨m, bits, len, hm, hb, rfl⟩ := hs
    exact (h.putPacked len (hm.wf h.packed) hb).inv_complete
  | golombEnc =>
    obtain ⟨mg, count, b, z, mp, bits, len, hg, hz, hp, hb, rfl⟩ := hs
    exact (((h.putGaps count (hg.wf h.gaps)).putDensity b hz).putPacked len (hp.wf h.packed) hb).inv_complete
  | golombDec =>
    obtain ⟨mg, count, mb, len, hg, hb, rfl⟩ := hs
    exact ((h.putGaps count (hg.wf h.gaps)).putBytes len (hb.wf h.bytes)).inv_complete
  | illegal => exact hs.elim

end DataOk

/-! ### Commands, accesses, steps -/

theorem exec_inv {i : Instr} {s t : State} (h : DataOk s) (hx : exec i s = .next t) : t.Inv := by
  cases he : t.status.err with
  | true =>
    obtain ⟨ok, e, rfl⟩ := exec_failed hx he
    exact (h.noteReads ok).inv_raise i e
  | false =>
    obtain ⟨ok, hs⟩ := exec_succeeded h.cfg hx he
    exact (h.noteReads ok).inv_stored hs

/-- The registers the host writes are bound by no rule of the invariant, but for `CMD`, whose write starts a
command (R200). -/
theorem writeReg_inv {s t : State} {r : Reg} {v : Word} (h : s.Inv) (hw : s.writeReg r v = some t) : t.Inv := by
  cases r with
  | cmd => cases hw; exact (inv_dataOk h).inv_start v
  | byteLen | gapCount | packLen | bParam => cases hw; exact h
  | status | zeroCount | packBits | capMaxLen | capGap | capPack => cases hw

theorem AccessLeaves.inv {s t : State} (ha : AccessLeaves s t) (h : s.Inv) : t.Inv := by
  have ⟨hcfg, hbytes, hgaps, hpacked, hrest⟩ := h
  cases ha with
  | returns | records => exact h
  | writesReg hw => exact (writeReg_inv h hw :)
  | writesBytes v hi => exact ⟨hcfg, Mem.wf_write v hbytes hi, hgaps, hpacked, hrest⟩
  | writesPacked v hi => exact ⟨hcfg, hbytes, hgaps, Mem.wf_write v hpacked hi, hrest⟩
  | writesGaps v hj => exact ⟨hcfg, hbytes, Mem.wf_write v hgaps hj, hpacked, hrest⟩

/-- Settles O16, by what a step can do: a command, a host access and the reset input each keep the invariant. -/
theorem everyStepKeepsTheInvariant : Obligations.EveryStepKeepsTheInvariant := by
  intro s t h hstep
  obtain ⟨ms, rfl | ⟨i, hx⟩ | ⟨op, rfl⟩ | rfl⟩ := step_cases hstep
  · exact h
  · exact exec_inv (s := s.withMoves ms) (inv_dataOk h) hx
  · exact (hostAccess_leaves (s.withMoves ms) op).inv h
  · exact (inv_dataOk (s := s.withMoves ms) h).inv_hostReset

/-- Settles O17: power-on leaves what the reset input leaves of a core with the default parameters. -/
theorem powerOnMeetsTheInvariant : Obligations.PowerOnMeetsTheInvariant := by
  refine ⟨?_, rfl⟩
  have h : DataOk State.reset :=
    ⟨by decide, Mem.wf_nil _, Mem.wf_nil _, Mem.wf_nil _, Nat.zero_le _, Nat.zero_le _⟩
  exact h.inv_hostReset

end Sys2Proof.Proofs
end

section
/-! PROOFS. The address map of the host's accesses (R61, R62), and what it makes of them: the accesses that are not
legal (R64), the written and unwritten cells (R63) and the repeated access (R65). -/

namespace Sys2Proof.Proofs

open Sys2Proof.Machine Sys2Proof.Claims

/-! ### The address map (R61, R62) -/

theorem target8_eq_none_iff {cfg : Config} {a : Nat} :
    target8 cfg a = none ↔
      ¬ (0x10000000 ≤ a ∧ a < 0x10000000 + cfg.maxLen) ∧ ¬ (0x20000000 ≤ a ∧ a < 0x20000000 + cfg.packCap) := by
  unfold target8 bytesBase packedBase
  split_ifs with hb hp
  · exact ⟨nofun, fun h => absurd hb h.1⟩
  · exact ⟨nofun, fun h => absurd hp h.2⟩
  · exact ⟨fun _ => ⟨hb, hp⟩, fun _ => rfl⟩

theorem target8_cases {cfg : Config} {a : Nat} (h : target8 cfg a ≠ none) :
    (∃ i, target8 cfg a = some (.bytes i)) ∨ ∃ i, target8 cfg a = some (.packed i) := by
  unfold target8 at h ⊢
  split_ifs at h ⊢
  · exact .inl ⟨_, rfl⟩
  · exact .inr ⟨_, rfl⟩
  · exact absurd rfl h

/-- The registers stand at the aligned offsets up to 0x28 (R20). -/
theorem ofOffset_eq_none_iff {a : Nat} (h : a % 4 = 0) : Reg.ofOffset a = none ↔ 0x28 < a := by
  constructor
  · intro hn
    by_contra hle
    have ha : a < 0x29 := by omega
    interval_cases a <;> simp [Reg.ofOffset] at h hn
  · intro hlt
    unfold Reg.ofOffset
    split
    case h_12 => rfl
    all_goals omega

theorem offset_of_ofOffset {a : Nat} {r : Reg} (h : Reg.ofOffset a = some r) : a = r.offset := by
  unfold Reg.ofOffset at h
  split at h <;> cases h <;> rfl

theorem target32_eq_none_iff {cfg : Config} {a : Nat} :
    target32 cfg a = none ↔
      a % 4 ≠ 0 ∨ (0x28 < a ∧ ¬ (0x40000000 ≤ a ∧ a < 0x40000000 + 4 * cfg.gapCap)) := by
  unfold target32 gapsBase
  split_ifs with hm hr hg
  · simp only [hm, ne_eq, not_false_eq_true, true_or]
  · rw [Option.map_eq_none_iff, ofOffset_eq_none_iff (by omega)]
    omega
  · simp only [false_iff]
    omega
  · simp only [true_iff]
    omega

theorem target32_eq_reg_iff {cfg : Config} {a : Nat} {r : Reg} : target32 cfg a = some (.reg r) ↔ a = r.offset := by
  constructor
  · intro h
    unfold target32 at h
    split_ifs at h
    · have hr : Reg.ofOffset a = some r := by simpa using h
      exact offset_of_ofOffset hr
    · simp at h
  · rintro rfl
    cases r <;> rfl

theorem target32_cases {cfg : Config} {a : Nat} (h : target32 cfg a ≠ none) :
    (∃ r, target32 cfg a = some (.reg r)) ∨ ∃ j, target32 cfg a = some (.gaps j) := by
  unfold target32 at h ⊢
  split_ifs at h ⊢
  · exact absurd rfl h
  · obtain ⟨r, hr⟩ := Option.ne_none_iff_exists'.1 (mt Option.map_eq_none_iff.2 h)
    exact .inl ⟨r, by rw [hr]; rfl⟩
  · exact .inr ⟨_, rfl⟩
  · exact absurd rfl h

section
variable {cfg : Config} {i : Nat}

theorem target8_bytesCell (hc : cfg.Wf) (hi : i < cfg.maxLen) :
    target8 cfg (BitVec.ofNat 32 (0x10000000 + i)).toNat = some (.bytes i) := by
  have ha : (BitVec.ofNat 32 (0x10000000 + i)).toNat = 0x10000000 + i := by
    rw [BitVec.toNat_ofNat, Nat.mod_eq_of_lt (by omega)]
  rw [ha, target8, bytesBase, if_pos (by omega), Nat.add_sub_cancel_left]

theorem target8_packedCell (hc : cfg.Wf) (hi : i < cfg.packCap) :
    target8 cfg (BitVec.ofNat 32 (0x20000000 + i)).toNat = some (.packed i) := by
  have ha : (BitVec.ofNat 32 (0x20000000 + i)).toNat = 0x20000000 + i := by
    rw [BitVec.toNat_ofNat, Nat.mod_eq_of_lt (by omega)]
  rw [ha, target8, bytesBase, packedBase, if_neg (by omega), if_pos (by omega), Nat.add_sub_cancel_left]

theorem target32_gapsCell (hc : cfg.Wf) (hi : i < cfg.gapCap) :
    target32 cfg (BitVec.ofNat 32 (0x40000000 + 4 * i)).toNat = some (.gaps i) := by
  have hcap : cfg.gapCap ≤ 2 ^ 28 := by rw [Config.gapCap]; omega
  have ha : (BitVec.ofNat 32 (0x40000000 + 4 * i)).toNat = 0x40000000 + 4 * i := by
    rw [BitVec.toNat_ofNat, Nat.mod_eq_of_lt (by omega)]
  rw [ha, target32, gapsBase, if_neg (by omega), if_neg (by omega), if_pos (by omega), Nat.add_sub_cancel_left,
    Nat.mul_div_cancel_left i (by omega)]

end

/-! ### What an access does while `BUSY = 0` (R62 to R66) -/

theorem writeReg_eq_none_iff {s : State} {r : Reg} {v : Word} :
    s.writeReg r v = none ↔ r.offset ∈ [0x04, 0x18, 0x1C, 0x20, 0x24, 0x28] := by
  cases r <;> simp [State.writeReg, Reg.offset]

theorem idleAccess_of_bad {s : State} {op : HostOp} (h : BadAccess s.cfg op) :
    s.idleAccess op = s.faultAccess .hostBusError := by
  cases op with
  | read8 a =>
    have ht : target8 s.cfg a.toNat = none := target8_eq_none_iff.2 h
    simp only [State.idleAccess, State.hostRead8, ht]
  | write8 a v =>
    have ht : target8 s.cfg a.toNat = none := target8_eq_none_iff.2 h
    simp only [State.idleAccess, State.hostWrite8, ht]
  | read32 a =>
    have ht : target32 s.cfg a.toNat = none := target32_eq_none_iff.2 h
    simp only [State.idleAccess, State.hostRead32, ht]
  | write32 a v =>
    obtain ht | hro := or_assoc.2 h
    · have ht : target32 s.cfg a.toNat = none := target32_eq_none_iff.2 ht
      simp only [State.idleAccess, State.hostWrite32, ht]
    · have hro : a.toNat ∈ [Reg.status, .zeroCount, .packBits, .capMaxLen, .capGap, .capPack].map Reg.offset := hro
      obtain ⟨r, -, hr⟩ := List.mem_map.1 hro
      have ht : target32 s.cfg a.toNat = some (.reg r) := target32_eq_reg_iff.2 hr.symm
      have hw : s.writeReg r v = none := writeReg_eq_none_iff.2 (hr ▸ hro)
      simp only [State.idleAccess, State.hostWrite32, ht, hw]

/-- What a write of a register that is not read-only leaves. -/
def registerWritten (s : State) (r : Reg) (v : Word) : State := ((s.writeReg r v).getD s).replied none

/-- A legal access by what it reaches, with its effect `f` on the state. -/
inductive LegalAccess (cfg : Config) : HostOp → (State → State) → Prop where
  | readBytes {a : Word} {i : Nat} (h : target8 cfg a.toNat = some (.bytes i)) :
      LegalAccess cfg (.read8 a) fun s => s.replyCell ((Mem.read s.bytes i).map .byte)
  | readPacked {a : Word} {i : Nat} (h : target8 cfg a.toNat = some (.packed i)) :
      LegalAccess cfg (.read8 a) fun s => s.replyCell ((Mem.read s.packed i).map .byte)
  | readGaps {a : Word} {j : Nat} (h : target32 cfg a.toNat = some (.gaps j)) :
      LegalAccess cfg (.read32 a) fun s => s.replyCell ((Mem.read s.gaps j).map .word)
  | readReg {a : Word} {r : Reg} (h : target32 cfg a.toNat = some (.reg r)) :
      LegalAccess cfg (.read32 a) fun s => s.replied (some (.word (s.readReg r)))
  | writeBytes {a : Word} {i : Nat} (v : Byte) (h : target8 cfg a.toNat = some (.bytes i)) :
      LegalAccess cfg (.write8 a v) fun s => ({ s with bytes := Mem.write s.bytes i v }).replied none
  | writePacked {a : Word} {i : Nat} (v : Byte) (h : target8 cfg a.toNat = some (.packed i)) :
      LegalAccess cfg (.write8 a v) fun s => ({ s with packed := Mem.write s.packed i v }).replied none
  | writeGaps {a : Word} {j : Nat} (v : Word) (h : target32 cfg a.toNat = some (.gaps j)) :
      LegalAccess cfg (.write32 a v) fun s => ({ s with gaps := Mem.write s.gaps j v }).replied none
  | writeReg {a : Word} {r : Reg} (v : Word) (h : target32 cfg a.toNat = some (.reg r))
      (hw : ∀ s : State, s.writeReg r v ≠ none) :
      LegalAccess cfg (.write32 a v) fun s => registerWritten s r v

theorem exists_legalAccess {cfg : Config} {op : HostOp} (h : ¬ BadAccess cfg op) : ∃ f, LegalAccess cfg op f := by
  cases op with
  | read8 a =>
    obtain ⟨i, hi⟩ | ⟨i, hi⟩ := target8_cases (mt target8_eq_none_iff.1 h)
    · exact ⟨_, .readBytes hi⟩
    · exact ⟨_, .readPacked hi⟩
  | write8 a v =>
    obtain ⟨i, hi⟩ | ⟨i, hi⟩ := target8_cases (mt target8_eq_none_iff.1 h)
    · exact ⟨_, .writeBytes v hi⟩
    · exact ⟨_, .writePacked v hi⟩
  | read32 a =>
    obtain ⟨r, hr⟩ | ⟨j, hj⟩ := target32_cases (mt target32_eq_none_iff.1 h)
    · exact ⟨_, .readReg hr⟩
    · exact ⟨_, .readGaps hj⟩
  | write32 a v =>
    obtain ⟨hmap, hro⟩ := not_or.1 (mt or_assoc.1 h)
    obtain ⟨r, hr⟩ | ⟨j, hj⟩ := target32_cases (mt target32_eq_none_iff.1 hmap)
    · exact ⟨_, .writeReg v hr fun s hn => hro (target32_eq_reg_iff.1 hr ▸ writeReg_eq_none_iff.1 hn)⟩
    · exact ⟨_, .writeGaps v hj⟩

namespace LegalAccess

variable {s : State} {op : HostOp} {f : State → State}

theorem idleAccess_eq (h : LegalAccess s.cfg op f) : s.idleAccess op = f s := by
  cases h with
  | readBytes h | readPacked h => simp only [State.idleAccess, State.hostRead8, h]
  | writeBytes v h | writePacked v h => simp only [State.idleAccess, State.hostWrite8, h]
  | readReg h | readGaps h => simp only [State.idleAccess, State.hostRead32, h]
  | writeGaps v h => simp only [State.idleAccess, State.hostWrite32, h]
  | writeReg v h hw =>
    obtain ⟨t, ht⟩ := Option.ne_none_iff_exists'.1 (hw s)
    simp only [State.idleAccess, State.hostWrite32, h, registerWritten, ht, Option.getD_some]

/-- A legal access may find an unwritten cell, and is no bus error. -/
theorem hostBusError_eq {cfg : Config} (h : LegalAccess cfg op f) (s : State) :
    (f s).faults.hostBusError = s.faults.hostBusError := by
  cases h with
  | readBytes | readPacked | readGaps =>
    simp only [State.replyCell_faults]
    split <;> rfl
  | @writeReg _ r => cases r <;> rfl
  | readReg | writeBytes | writePacked | writeGaps => rfl

theorem step_eq (hb : s.status.busy = false) {ms : List Move} (hm : s.moves = .access op :: ms)
    (h : LegalAccess s.cfg op f) : step s = .next (f (s.withMoves ms)) := by
  rw [step_of_idle_access hb hm, h.idleAccess_eq (s := s.withMoves ms)]

end LegalAccess

/-- Settles O22: a bad access is one that faults, and every other has one of the legal effects. -/
theorem illegalAccessIsABusError : Obligations.IllegalAccessIsABusError := by
  intro s op ms hb hm
  refine ⟨fun h => ?_, fun h => ?_⟩
  · rw [step_of_idle_access hb hm, idleAccess_of_bad (s := s.withMoves ms) h]
    rfl
  · obtain ⟨f, hf⟩ := exists_legalAccess h
    exact ⟨_, hf.step_eq hb hm, hf.hostBusError_eq _⟩

/-! ### Cells (R63) -/

/-- Settles O23: the write and the read reach the same cell, and `Mem.read_write` says what the memory holds. -/
theorem cellWriteReadsBack : Obligations.CellWriteReadsBack := by
  intro s i ms hc hb
  refine ⟨fun v hi hm => ?_, fun v hi hm => ?_, fun v hi hm => ?_⟩
  · have ht := target8_bytesCell hc hi
    have hwrite := LegalAccess.step_eq hb hm (.writeBytes v ht)
    have hread := LegalAccess.step_eq
      (s := { s with bytes := Mem.write s.bytes i v, moves := .access (.read8 _) :: ms, reply := none }) hb rfl
      (.readBytes ht)
    rw [State.withMoves_bytes, Mem.read_write_same] at hread
    exact ⟨_, _, hwrite, fun j => Mem.read_write s.bytes i j v, hread⟩
  · have ht := target8_packedCell hc hi
    have hwrite := LegalAccess.step_eq hb hm (.writePacked v ht)
    have hread := LegalAccess.step_eq
      (s := { s with packed := Mem.write s.packed i v, moves := .access (.read8 _) :: ms, reply := none }) hb rfl
      (.readPacked ht)
    rw [State.withMoves_packed, Mem.read_write_same] at hread
    exact ⟨_, _, hwrite, fun j => Mem.read_write s.packed i j v, hread⟩
  · have ht := target32_gapsCell hc hi
    have hwrite := LegalAccess.step_eq hb hm (.writeGaps v ht)
    have hread := LegalAccess.step_eq
      (s := { s with gaps := Mem.write s.gaps i v, moves := .access (.read32 _) :: ms, reply := none }) hb rfl
      (.readGaps ht)
    rw [State.withMoves_gaps, Mem.read_write_same] at hread
    exact ⟨_, _, hwrite, fun j => Mem.read_write s.gaps i j v, hread⟩

/-- Settles O24: the read reaches the cell, and finds no value in it. -/
theorem unwrittenCellReadIsUninitRead : Obligations.UnwrittenCellReadIsUninitRead := by
  intro s i ms hc hb
  refine ⟨fun hi hn hm => ?_, fun hi hn hm => ?_, fun hi hn hm => ?_⟩
  · rw [(LegalAccess.readBytes (target8_bytesCell hc hi)).step_eq hb hm, State.withMoves_bytes, hn]
    rfl
  · rw [(LegalAccess.readPacked (target8_packedCell hc hi)).step_eq hb hm, State.withMoves_packed, hn]
    rfl
  · rw [(LegalAccess.readGaps (target32_gapsCell hc hi)).step_eq hb hm, State.withMoves_gaps, hn]
    rfl

/-! ### An access made twice (R65) -/

theorem mem_write_write_same {n : Nat} (m : Mem n) (i : Nat) (v : BitVec n) :
    Mem.write (Mem.write m i v) i v = Mem.write m i v := by
  induction m with
  | nil => simp [Mem.write]
  | cons p m ih =>
    obtain ⟨a, u⟩ := p
    rcases Nat.lt_trichotomy i a with h | h | h
    · simp [Mem.write, h]
    · simp [Mem.write, h]
    · simp [Mem.write, h.not_gt, h.ne', ih]

theorem replyCell_again (s : State) (d : Option HostData) (ms : List Move) :
    ((s.replyCell d).withMoves ms).replyCell d = (s.replyCell d).withMoves ms := by
  cases d <;> rfl

theorem faultAccess_again (s : State) (f : Fault) (ms : List Move) :
    ((s.faultAccess f).withMoves ms).faultAccess f = (s.faultAccess f).withMoves ms := by
  cases f <;> rfl

/-- A register other than `CMD` takes the value that it is given and starts nothing, or is read-only. -/
theorem registerWritten_again {r : Reg} (hr : r ≠ .cmd) (s : State) (v : Word) (ms : List Move) :
    registerWritten ((registerWritten s r v).withMoves ms) r v = (registerWritten s r v).withMoves ms := by
  cases r with
  | cmd => exact absurd rfl hr
  | _ => rfl

theorem registerWritten_status {r : Reg} (hr : r ≠ .cmd) (s : State) (v : Word) :
    (registerWritten s r v).status = s.status := by
  cases r with
  | cmd => exact absurd rfl hr
  | _ => rfl

/-- `CMD` stands at the address 0 alone (R20). -/
theorem ne_cmd_of_not_isCmdWrite {cfg : Config} {a v : Word} {r : Reg} (hn : ¬ IsCmdWrite (.write32 a v))
    (h : target32 cfg a.toNat = some (.reg r)) : r ≠ .cmd := by
  rintro rfl
  exact hn (BitVec.eq_of_toNat_eq (target32_eq_reg_iff.1 h))

namespace LegalAccess

variable {cfg : Config} {op : HostOp} {f : State → State}

theorem status_eq (h : LegalAccess cfg op f) (hn : ¬ IsCmdWrite op) (s : State) : (f s).status = s.status := by
  cases h with
  | readBytes | readPacked | readGaps => exact State.replyCell_status s _
  | readReg | writeBytes | writePacked | writeGaps => rfl
  | writeReg v h => exact registerWritten_status (ne_cmd_of_not_isCmdWrite hn h) s v

theorem again (h : LegalAccess cfg op f) (hn : ¬ IsCmdWrite op) (s : State) (ms : List Move) :
    f ((f s).withMoves ms) = (f s).withMoves ms := by
  cases h with
  | readBytes | readPacked | readGaps =>
    simp only [State.withMoves_bytes, State.withMoves_packed, State.withMoves_gaps, State.replyCell_bytes,
      State.replyCell_packed, State.replyCell_gaps, replyCell_again]
  | @readReg _ r => cases r <;> rfl
  | @writeBytes _ i v =>
    exact congrArg (fun m => { s with bytes := m, moves := ms, reply := none }) (mem_write_write_same s.bytes i v)
  | @writePacked _ i v =>
    exact congrArg (fun m => { s with packed := m, moves := ms, reply := none }) (mem_write_write_same s.packed i v)
  | @writeGaps _ j v =>
    exact congrArg (fun m => { s with gaps := m, moves := ms, reply := none }) (mem_write_write_same s.gaps j v)
  | writeReg v h => exact registerWritten_again (ne_cmd_of_not_isCmdWrite hn h) s v ms

end LegalAccess

theorem idleAccess_status {op : HostOp} (hn : ¬ IsCmdWrite op) (s : State) : (s.idleAccess op).status = s.status := by
  by_cases h : BadAccess s.cfg op
  · rw [idleAccess_of_bad h, State.faultAccess_status]
  · obtain ⟨f, hf⟩ := exists_legalAccess h
    rw [hf.idleAccess_eq, hf.status_eq hn]

theorem idleAccess_again {op : HostOp} (hn : ¬ IsCmdWrite op) (s : State) (ms : List Move) :
    ((s.idleAccess op).withMoves ms).idleAccess op = (s.idleAccess op).withMoves ms := by
  have hcfg : ((s.idleAccess op).withMoves ms).cfg = s.cfg := (idleAccess_leaves s op).cfg_eq
  by_cases h : BadAccess s.cfg op
  · rw [idleAccess_of_bad (hcfg ▸ h), idleAccess_of_bad h, faultAccess_again]
  · obtain ⟨f, hf⟩ := exists_legalAccess h
    rw [LegalAccess.idleAccess_eq (hcfg ▸ hf), hf.idleAccess_eq, hf.again hn]

theorem hostAccess_again {op : HostOp} (hn : ¬ IsCmdWrite op) (s : State) (ms : List Move) :
    ((s.hostAccess op).withMoves ms).hostAccess op = (s.hostAccess op).withMoves ms := by
  cases hb : s.status.busy with
  | false =>
    simp only [State.hostAccess, hb, Bool.false_eq_true, if_false, State.withMoves_status, idleAccess_status hn,
      idleAccess_again hn]
  | true =>
    by_cases hop : op = statusRead
    · simp only [State.hostAccess, hb, hop, if_true, State.withMoves_status, State.replied_status]
      rfl
    · simp only [State.hostAccess, hb, hop, if_true, if_false, State.withMoves_status, State.faultAccess_status,
        faultAccess_again]

theorem writeReg_moves {s t : State} {r : Reg} {v : Word} (h : s.writeReg r v = some t) : t.moves = s.moves := by
  cases r <;> cases h <;> rfl

theorem AccessLeaves.moves_eq {s t : State} (h : AccessLeaves s t) : t.moves = s.moves := by
  cases h with
  | writesReg hr => exact (writeReg_moves hr :)
  | returns | records | writesBytes | writesPacked | writesGaps => rfl

/-- Settles O26: the second access finds the state that the first left, and leaves it as it is. -/
theorem repeatedAccessIsIdempotent : Obligations.RepeatedAccessIsIdempotent := by
  intro s op ms hn hm
  have hmoves := (hostAccess_leaves (s.withMoves (.access op :: ms)) op).moves_eq
  refine ⟨_, step_of_access hm, hmoves, ?_⟩
  rw [step_of_access hmoves, hostAccess_again hn]
  rfl

end Sys2Proof.Proofs
end

section
/-! PROOFS. The encoding of the commands: the decoder against the encoder, the opcode map and the illegal words
(R80 to R84, R182). -/

namespace Sys2Proof.Proofs

open Sys2Proof.Machine Sys2Proof.Claims

/-! ### The fields of a word (R80) -/

theorem toNat_eq_fields (w : Word) :
    w.toNat = (fieldOp w).toNat + 2 ^ 4 * (fieldRsv0 w).toNat + 2 ^ 8 * (fieldArg w).toNat
      + 2 ^ 16 * (fieldRsv1 w).toNat := by
  simp only [fieldOp, fieldRsv0, fieldArg, fieldRsv1, BitVec.extractLsb'_toNat, Nat.shiftRight_eq_div_pow]
  omega

/-- A word is its four fields. -/
theorem word_eq_of_fields {w w' : Word} (hop : fieldOp w = fieldOp w') (h0 : fieldRsv0 w = fieldRsv0 w')
    (harg : fieldArg w = fieldArg w') (h1 : fieldRsv1 w = fieldRsv1 w') : w = w' := by
  apply BitVec.eq_of_toNat_eq
  rw [toNat_eq_fields w, toNat_eq_fields w', hop, h0, harg, h1]

/-- The fields of the word of RLT_LOOKUP: its byte stands in ARG, OP is 1, and the others are 0 (R82). -/
theorem fields_encode_rltLookup (v : Byte) :
    fieldOp (encode (.rltLookup v)) = 1 ∧ fieldRsv0 (encode (.rltLookup v)) = 0 ∧
      fieldArg (encode (.rltLookup v)) = v ∧ fieldRsv1 (encode (.rltLookup v)) = 0 := by
  revert v
  decide

/-! ### The illegal words (R83) -/

/-- The model's check of a word is R83's three cases. -/
theorem wordIsIllegal_iff (w : Word) : wordIsIllegal w = true ↔ IllegalWord w := by
  simp [wordIsIllegal, IllegalWord, BitVec.le_def, or_assoc]

theorem decodePlain_of_op {w : Word} (h : (fieldOp w).toNat < 2 ∨ 9 ≤ (fieldOp w).toNat) :
    decodePlain w = .illegal w := by
  unfold decodePlain
  split
  any_goals omega
  rfl

/-- Each of R83's cases fails the conditions of both of R82's steps, or leaves `decodePlain` no command. -/
theorem decode_of_illegalWord {w : Word} (h : IllegalWord w) : decode w = .illegal w := by
  obtain hop | hrsv | ⟨hop, harg⟩ := h
  · have hop : fieldOp w = 0 ∨ 9 ≤ (fieldOp w).toNat := hop
    have hplain : decodePlain w = .illegal w := decodePlain_of_op (hop.imp_left fun h => by rw [h]; decide)
    have hne : fieldOp w ≠ 1 := by
      intro h
      simp [h] at hop
    rw [decode, if_neg fun h => hne h.2.2, hplain, ite_self]
  · have hrsv : fieldRsv0 w ≠ 0 ∨ fieldRsv1 w ≠ 0 := hrsv
    rw [decode, if_neg (by tauto), if_neg (by tauto)]
  · rw [decode, if_neg fun h => hop h.2.2, if_neg fun h => harg h.2.1]

/-! ### The decoder inverts the encoder (R82, R86) -/

/-- Settles O2, by the command: the fields of an RLT_LOOKUP, the word of a plain command, a word of R83's. -/
theorem decodeOfEncode : Obligations.DecodeOfEncode := by
  intro i h
  cases i with
  | rltLookup v =>
    obtain ⟨hop, h0, harg, h1⟩ := fields_encode_rltLookup v
    rw [decode, if_pos ⟨h1, h0, hop⟩, harg]
  | rleEnc | rleDec | density | grEnc | grDec | golombEnc | golombDec => rfl
  | illegal w => exact decode_of_illegalWord ((wordIsIllegal_iff w).1 h)

/-- The word of a plain command is its OP (R82). -/
theorem encode_decodePlain (op : BitVec 4) (h0 : op ≠ 0) (h1 : op ≠ 1) (h9 : ¬ 9 ≤ op.toNat) :
    (decodePlain (op.setWidth 32)).wellFormed = true ∧
      encode (decodePlain (op.setWidth 32)) = op.setWidth 32 := by
  revert op
  decide

/-- Every word that R83 does not call illegal is the word of a command of the opcode map. -/
theorem exists_encode_of_legal {w : Word} (h : ¬ IllegalWord w) : ∃ i, i.wellFormed = true ∧ encode i = w := by
  simp only [IllegalWord, not_or, not_and, not_not] at h
  obtain ⟨⟨hop0, hop9⟩, ⟨h0, h1⟩, harg⟩ := h
  by_cases hop : fieldOp w = 1
  · obtain ⟨eop, e0, earg, e1⟩ := fields_encode_rltLookup (fieldArg w)
    exact ⟨.rltLookup (fieldArg w), rfl,
      word_eq_of_fields (eop.trans hop.symm) (e0.trans h0.symm) earg (e1.trans h1.symm)⟩
  · have hw : (fieldOp w).setWidth 32 = w := by
      apply BitVec.eq_of_toNat_eq
      rw [toNat_eq_fields w, show fieldRsv0 w = 0 from h0, show fieldRsv1 w = 0 from h1,
        show fieldArg w = 0 from harg hop, BitVec.toNat_setWidth_of_le (by decide)]
      rfl
    have hplain := encode_decodePlain (fieldOp w) hop0 hop hop9
    rw [hw] at hplain
    exact ⟨decodePlain w, hplain⟩

theorem exists_encode (w : Word) : ∃ i, i.wellFormed = true ∧ encode i = w := by
  by_cases h : IllegalWord w
  · exact ⟨.illegal w, (wordIsIllegal_iff w).2 h, rfl⟩
  · exact exists_encode_of_legal h

/-- Settles O3: the word is that of some command, and the decoder reads that command back. -/
theorem everyWordIsACommand : Obligations.EveryWordIsACommand := by
  intro w
  obtain ⟨i, hi, rfl⟩ := exists_encode w
  rw [decodeOfEncode i hi]
  exact ⟨hi, rfl⟩

/-- Settles O1: the decoder runs on the fifteen words. -/
theorem specWordsDecode : Obligations.SpecWordsDecode := by
  and_intros <;> decide

/-! ### The opcode map (R82) -/

theorem decode_eq_iff {w : Word} {i : Instr} (h : i.wellFormed = true) : decode w = i ↔ w = encode i := by
  refine ⟨?_, ?_⟩
  · rintro rfl
    exact (everyWordIsACommand w).2.symm
  · rintro rfl
    exact decodeOfEncode i h

/-- The match and mask of RLT_LOOKUP match its words and those of no other command. -/
theorem encode_matches_rltLookup_iff {i : Instr} (h : i.wellFormed = true) :
    encode i &&& 0xFFFF00FF = 0x00000001 ↔ ∃ v, i = .rltLookup v := by
  cases i with
  | rltLookup v => exact iff_of_true (Laws.RowWord.rltLookup v h) ⟨v, rfl⟩
  | illegal w => exact iff_of_false (Laws.RowWord.illegal w h).1 (by simp)
  | rleEnc | rleDec | density | grEnc | grDec | golombEnc | golombDec => exact iff_of_false (by decide) (by simp)

/-- No word of R83's is that of a plain command. -/
theorem not_plain_of_illegal {w : Word} (h : (Instr.illegal w).wellFormed = true) :
    ¬ (2 ≤ w.toNat ∧ w.toNat ≤ 8) := by
  intro hr
  have hm : w.toNat ∈ [2, 3, 4, 5, 6, 7, 8] := by
    simp only [List.mem_cons, List.not_mem_nil, or_false]
    omega
  exact (Laws.RowWord.illegal w h).2 _ hm ((BitVec.ofNat_toNat 32 w).trans w.setWidth_eq).symm

/-- A word is illegal exactly where neither form of R82's rule matches it. -/
theorem encode_illegal_iff {i : Instr} (h : i.wellFormed = true) (u : Word) :
    i = .illegal u ↔
      u = encode i ∧ encode i &&& 0xFFFF00FF ≠ 0x00000001 ∧ ¬ (2 ≤ (encode i).toNat ∧ (encode i).toNat ≤ 8) := by
  cases i with
  | rltLookup v => exact iff_of_false (by simp) fun hu => hu.2.1 (Laws.RowWord.rltLookup v h)
  | rleEnc | rleDec | density | grEnc | grDec | golombEnc | golombDec => simp [encode]
  | illegal w =>
    refine ⟨?_, ?_⟩
    · rintro ⟨⟩
      exact ⟨rfl, (Laws.RowWord.illegal _ h).1, not_plain_of_illegal h⟩
    · rintro ⟨rfl, -⟩
      rfl

/-- Settles O4: the decoder answers `i` exactly for the word of `i`, which is matched by the row of `i` alone. -/
theorem decodeFollowsMatchAndMask : Obligations.DecodeFollowsMatchAndMask := by
  intro w
  refine ⟨fun v => ?_, decode_eq_iff rfl, decode_eq_iff rfl, decode_eq_iff rfl, decode_eq_iff rfl,
    decode_eq_iff rfl, decode_eq_iff rfl, decode_eq_iff rfl, fun u => ?_⟩
  all_goals
    obtain ⟨i, hi, rfl⟩ := exists_encode w
    rw [decodeOfEncode i hi]
  · rw [encode_matches_rltLookup_iff hi]
    refine ⟨?_, ?_⟩
    · rintro rfl
      obtain ⟨-, -, harg, -⟩ := fields_encode_rltLookup v
      exact ⟨⟨v, rfl⟩, harg.symm⟩
    · rintro ⟨⟨v', rfl⟩, rfl⟩
      obtain ⟨-, -, harg, -⟩ := fields_encode_rltLookup v'
      exact congrArg Instr.rltLookup harg.symm
  · exact encode_illegal_iff hi u

/-! ### The illegal words as commands (R83, R182) -/

theorem decode_illegal_iff {w : Word} : decode w = .illegal w ↔ IllegalWord w := by
  refine ⟨fun h => (wordIsIllegal_iff w).1 ?_, decode_of_illegalWord⟩
  have hwf := (everyWordIsACommand w).1
  rwa [h] at hwf

/-- The command of an illegal word clears nothing, so its error is seen in `STATUS` alone (R182). -/
theorem exec_decode_of_illegalWord {w : Word} (h : IllegalWord w) (s : State) :
    exec (decode w) s = .next { s with status := failedWith 6, latch := none } := by
  rw [decode_of_illegalWord h]
  rfl

/-- Settles O5: the `CMD` write latches the word, and the engine's turn runs its command. -/
theorem illegalWordsReportIllegalCommand : Obligations.IllegalWordsReportIllegalCommand := by
  refine fun w => ⟨decode_illegal_iff, fun hw s => ⟨exec_decode_of_illegalWord hw s, by decide, fun ms hb hm => ?_⟩⟩
  refine ⟨_, step_write_reg (r := .cmd) hb hm rfl, rfl, ?_⟩
  rw [step_of_engine rfl, Laws.engineStep_pending (Laws.pending_of_busy rfl rfl), exec_decode_of_illegalWord hw]
  rfl

end Sys2Proof.Proofs
end

section
/-! PROOFS. The frame of the commands (R81, R67), and the host that waits for one (R87). -/

namespace Sys2Proof.Proofs

open Sys2Proof.Machine Sys2Proof.Claims

/-! ### What a command leaves unchanged (R30, R67, R81) -/

/-- `t` is as `s` but for the command's row of R81, `STATUS`, the latch and what its reads note. -/
structure CommandFrame (i : Instr) (s t : State) : Prop where
  outside : SameOutside (writesOf i) s t
  cmd : t.cmd = s.cmd
  moves : t.moves = s.moves
  reply : t.reply = s.reply
  latch : t.latch = none

theorem commandFrame_raise (s : State) (i : Instr) (e : ErrorCode) : CommandFrame i s (s.raise i e) := by
  refine ⟨?_, by simp, by simp, by simp, by simp⟩
  cases i <;> simp [SameOutside, writesOf, State.cleanup]

theorem commandFrame_stored {i : Instr} {s t : State} (h : Laws.Stored s t i) : CommandFrame i s t := by
  cases i with
  | rltLookup | rleEnc | rleDec | grDec => obtain ⟨vs, rfl⟩ := h; constructor <;> simp [SameOutside, writesOf]
  | density => obtain ⟨b, z, rfl⟩ := h; constructor <;> simp [SameOutside, writesOf]
  | grEnc => obtain ⟨m, bits, len, rfl⟩ := h; constructor <;> simp [SameOutside, writesOf]
  | golombEnc => obtain ⟨vs, b, z, m, bits, len, rfl⟩ := h; constructor <;> simp [SameOutside, writesOf]
  | golombDec => obtain ⟨vs, bs, rfl⟩ := h; constructor <;> simp [SameOutside, writesOf]
  | illegal => exact h.elim

/-- What the reads note is in the fault record and the free values' counter, which the frame leaves open. -/
theorem exec_frame {i : Instr} {s t : State} (h : exec i s = .next t) : CommandFrame i s t := by
  obtain ⟨ok, ⟨e, rfl⟩ | hs⟩ := Laws.exec_cases h
  · cases ok <;> exact { commandFrame_raise _ i e with }
  · cases ok <;> exact { commandFrame_stored hs with }

/-- Settles O12: an error and a success keep the frame, and the reads note UninitRead alone. -/
theorem commandsWriteOnlyTheirRow : Obligations.CommandsWriteOnlyTheirRow := by
  intro i s t h
  have hf := exec_frame h
  refine ⟨hf.outside, hf.cmd, exec_cfg h, hf.moves, hf.reply, hf.latch, ?_⟩
  rw [exec_faults h, State.noteReads_faults]
  split_ifs <;> exact ⟨rfl, rfl⟩

/-! ### The host's wait (R87) -/

theorem exec_not_busy {i : Instr} {s t : State} (h : exec i s = .next t) : t.status.busy = false := by
  obtain ⟨ok, ⟨e, rfl⟩ | hs⟩ := Laws.exec_cases h
  · rw [State.raise_status]; rfl
  · rw [stored_status hs]; rfl

/-- `BUSY` is bit 0 of `STATUS` (R22). -/
theorem getLsbD_zero_toWord (st : Status) : st.toWord.getLsbD 0 = st.busy := by
  simp [Status.toWord]

/-- Settles O28: the command completes in the engine's turn and keeps the moves, so `wait` then reads `STATUS`. -/
theorem waitEndsAfterTheCommand : Obligations.WaitEndsAfterTheCommand := by
  intro s w ms hb hl hm
  obtain ⟨t, -, hx, -⟩ := Laws.exec_ends (decode w) s
  have hidle : t.status.busy = false := exec_not_busy hx
  have hmoves : t.moves = .wait :: ms := (exec_frame hx).moves.trans hm
  refine ⟨t, ?_, hx, hidle, (getLsbD_zero_toWord _).trans hidle, ?_⟩
  · rw [step_of_wait_busy hm hb, Laws.engineStep_pending (Laws.pending_of_busy hb hl), hx]
  · rw [step_of_wait_idle hmoves hidle, State.hostAccess, State.withMoves_status, hidle]
    rfl

end Sys2Proof.Proofs
end

section
/-! PROOFS. What a command reads (R33, R67, R81): two states that agree on its sources take the same branch of its
meaning and store the same results. -/

namespace Sys2Proof.Proofs

open Sys2Proof.Machine Sys2Proof.Claims

/-! ### The same sources -/

/-- A run from `s'` checks and reads the byte buffer that a run from `s` does (R33, R131). -/
structure SameBytes (s s' : State) : Prop where
  tooLarge : s'.byteLenTooLarge = s.byteLenTooLarge
  src : s'.srcBytes = s.srcBytes

/-- A run from `s'` checks and reads the gap sequence that a run from `s` does (R33, R141). -/
structure SameGaps (s s' : State) : Prop where
  tooLarge : s'.gapCountTooLarge = s.gapCountTooLarge
  count : s'.gapCount = s.gapCount
  src : s'.srcGaps = s.srcGaps

/-- A run from `s'` checks and reads the packed bytes that a run from `s` does (R33, R171). -/
structure SamePacked (s s' : State) : Prop where
  tooLarge : s'.packLenTooLarge = s.packLenTooLarge
  len : s'.packLen = s.packLen
  src : s'.srcPacked = s.srcPacked

section
variable {s s' : State} (hcfg : s.cfg = s'.cfg) (hseed : s.freeSeed = s'.freeSeed)
include hcfg hseed

theorem sameBytes (hlen : s.byteLen = s'.byteLen)
    (hmem : ∀ j < s.byteLen.toNat, Mem.read s.bytes j = Mem.read s'.bytes j) : SameBytes s s' where
  tooLarge := by simp only [State.byteLenTooLarge, hcfg, hlen]
  src := by
    simp only [State.srcBytes, ← hseed, ← hlen]
    exact Mem.prefixOr_congr fun j hj => by rw [hmem j hj]

theorem sameGaps (hcount : s.gapCount = s'.gapCount)
    (hmem : ∀ j < s.gapCount.toNat, Mem.read s.gaps j = Mem.read s'.gaps j) : SameGaps s s' where
  tooLarge := by simp only [State.gapCountTooLarge, hcfg, hcount]
  count := hcount.symm
  src := by
    simp only [State.srcGaps, ← hseed, ← hcount]
    exact congrArg _ (Mem.prefixOr_congr fun j hj => by rw [hmem j hj])

theorem samePacked (hlen : s.packLen = s'.packLen)
    (hmem : ∀ j < s.packLen.toNat, Mem.read s.packed j = Mem.read s'.packed j) : SamePacked s s' where
  tooLarge := by simp only [State.packLenTooLarge, hcfg, hlen]
  len := hlen.symm
  src := by
    simp only [State.srcPacked, ← hseed, ← hlen]
    exact Mem.prefixOr_congr fun j hj => by rw [hmem j hj]

end

/-! ### The packing, whatever `PACKED` held (R112, R160) -/

/-- Whether the packing fits or fails, and how, depends on the entries alone; where it fits, so do the bits it
leaves. By the first entry 0: the entries before it fit or not, and are all there is where there is none. -/
theorem grEncode_outcome (cap b : Nat) (g : List Nat) :
    (∃ e, ∀ m, grEncode cap b g m = .error e) ∨
      ∃ bits, ∀ m, ∃ w, grEncode cap b g m = .ok w ∧ Laws.Holds w m bits := by
  by_cases hz : 0 ∈ g
  · obtain ⟨g1, g2, rfl, hg1⟩ := List.eq_append_cons_of_mem hz
    have hpos : ∀ v ∈ g1, 1 ≤ v := fun v hv => Nat.pos_of_ne_zero fun h => hg1 (h ▸ hv)
    rcases Nat.lt_or_ge (8 * cap) (streamOf b g1).length with hl | hl
    · exact .inl ⟨_, fun m => Laws.grEncode_full cap b hpos m hl⟩
    · exact .inl ⟨_, fun m => Laws.grEncode_zero cap b hpos m hl⟩
  · have hpos : ∀ v ∈ g, 1 ≤ v := fun v hv => Nat.pos_of_ne_zero fun h => hz (h ▸ hv)
    rcases Nat.lt_or_ge (8 * cap) (streamOf b g).length with hl | hl
    · exact .inl ⟨_, fun m => (Laws.grEncode_spec cap b hpos m).2 hl⟩
    · exact .inr ⟨_, fun m => (Laws.grEncode_spec cap b hpos m).1 hl⟩

/-! ### The same results -/

/-- Two memories read the same below the length that a register holds. -/
def SameBelow {n : Nat} (len : Nat) (m m' : Mem n) : Prop :=
  ∀ j < (BitVec.ofNat 32 len).toNat, Mem.read m j = Mem.read m' j

theorem sameBelow_writeList {n : Nat} (vs : List (BitVec n)) (m m' : Mem n) :
    SameBelow vs.length (Mem.writeList m 0 vs) (Mem.writeList m' 0 vs) := by
  intro j hj
  have hj : j < vs.length := Nat.lt_of_lt_of_le hj (toNat_ofNat_le (Nat.le_refl _))
  simp [Mem.read_writeList_zero, hj]

theorem sameBelow_toWords (g : List Nat) (m m' : Mem 32) :
    SameBelow g.length (Mem.writeList m 0 (toWords g)) (Mem.writeList m' 0 (toWords g)) := by
  simpa using sameBelow_writeList (toWords g) m m'

/-- Writers that have put the same bits into their memories agree on every cell the bits touch. -/
theorem sameBelow_holds {w w' : Writer} {m m' : Mem 8} {bits : List Bool} (h : Laws.Holds w m bits)
    (h' : Laws.Holds w' m' bits) : w'.cur.finish = w.cur.finish ∧ SameBelow w.cur.finish.2 w.mem w'.mem := by
  obtain ⟨hp, hb, hm⟩ := h
  obtain ⟨hp', hb', hm'⟩ := h'
  rw [Laws.finish_eq hb, Laws.finish_eq hb', hp, hp']
  refine ⟨rfl, fun j hj => ?_⟩
  have hj : j < (bits.length + 7) / 8 := Nat.lt_of_lt_of_le hj (toNat_ofNat_le (Nat.le_refl _))
  rw [hm, hm', if_pos (by omega), if_pos (by omega)]

/-- Two packings of the same entries fail alike, or leave the same bits. -/
theorem grEncode_alike (cap b : Nat) (g : List Nat) (m m' : Mem 8) :
    (∃ e, grEncode cap b g m = .error e ∧ grEncode cap b g m' = .error e) ∨
      ∃ w w', grEncode cap b g m = .ok w ∧ grEncode cap b g m' = .ok w' ∧
        w'.cur.finish = w.cur.finish ∧ SameBelow w.cur.finish.2 w.mem w'.mem := by
  obtain ⟨e, he⟩ | ⟨bits, hok⟩ := grEncode_outcome cap b g
  · exact .inl ⟨e, he m, he m'⟩
  · obtain ⟨w, hw, hholds⟩ := hok m
    obtain ⟨w', hw', hholds'⟩ := hok m'
    exact .inr ⟨w, w', hw, hw', sameBelow_holds hholds hholds'⟩

section
variable (s s' : State)

/-- The same error leaves the same results: the destinations are cleared (R203). -/
theorem agreeOnResults_raise (i : Instr) (e : ErrorCode) :
    AgreeOnResults (s.raise i e) (s'.raise i e) (writesOf i) := by
  cases i <;> simp [AgreeOnResults, writesOf, State.cleanup]

variable {s s'}

/-- Two runs that raise the same error. -/
theorem agreeOnResults_of_raised {t t' : State} {i : Instr} {e : ErrorCode}
    (h : (.next (s.raise i e) : Host.Outcome State Fault Refusal) = .next t)
    (h' : (.next (s'.raise i e) : Host.Outcome State Fault Refusal) = .next t') :
    AgreeOnResults t t' (writesOf i) := by
  cases h; cases h'
  exact agreeOnResults_raise s s' i e

theorem agreeOnResults_putGaps {m m' : Mem 32} {count : Nat} (h : SameBelow count m m') :
    AgreeOnResults (s.putGaps m count).complete (s'.putGaps m' count).complete [.gaps, .gapCount] := by
  simpa [AgreeOnResults, SameBelow] using h

end

/-- Settles O13. By command and branch of its meaning: the sources decide each check, so both runs take the same
branch, raise the same error or store what they compute from the same sources. -/
theorem commandsReadOnlyTheirSources : Obligations.CommandsReadOnlyTheirSources := by
  intro i s s' t t' hagree h h'
  obtain ⟨hcfg, hseed, hagree⟩ := hagree
  cases i with
  | rltLookup v =>
    cases h; cases h'
    exact agreeOnResults_putGaps (sameBelow_toWords (rlt v) _ _)
  | rleEnc =>
    obtain ⟨hlen, hmem⟩ := hagree
    have hs := sameBytes hcfg hseed hlen hmem
    simp only [exec, execRleEnc, hs.tooLarge, hs.src] at h h'
    split_ifs at h h'
    · exact agreeOnResults_of_raised h h'
    · cases h; cases h'
      exact agreeOnResults_putGaps (sameBelow_toWords _ _ _)
  | rleDec =>
    obtain ⟨hcount, hmem⟩ := hagree
    have hs := sameGaps hcfg hseed hcount hmem
    simp only [exec, execRleDec, hs.tooLarge, hs.count, hs.src, ← hcfg] at h h'
    split_ifs at h h'
    any_goals exact agreeOnResults_of_raised h h'
    cases hd : rleDecodeCore s.cfg.maxLen s.srcGaps <;> simp only [hd] at h h'
    case error e => exact agreeOnResults_of_raised h h'
    case ok buf =>
      have hbytes := sameBelow_writeList buf s.bytes s'.bytes
      cases h; cases h'
      simpa [AgreeOnResults, writesOf, SameBelow] using hbytes
  | density =>
    obtain ⟨hlen, hmem⟩ := hagree
    have hs := sameBytes hcfg hseed hlen hmem
    simp only [exec, execDensity, hs.tooLarge, hs.src] at h h'
    split_ifs at h h'
    · exact agreeOnResults_of_raised h h'
    cases hd : estimateB s.srcBytes <;> simp only [hd] at h h'
    case error e => exact agreeOnResults_of_raised h h'
    case ok bz =>
      cases h; cases h'
      simp [AgreeOnResults, writesOf]
  | grEnc =>
    obtain ⟨hb, hcount, hmem⟩ := hagree
    have hs := sameGaps hcfg hseed hcount hmem
    have hb : s'.b = s.b := congrArg BitVec.toNat hb.symm
    simp only [exec, execGrEnc, hs.tooLarge, hs.count, hs.src, hb, ← hcfg] at h h'
    split_ifs at h h'
    any_goals exact agreeOnResults_of_raised h h'
    obtain ⟨e, he, he'⟩ | ⟨w, w', hw, hw', hfin, hpacked⟩ :=
      grEncode_alike s.cfg.packCap s.b s.srcGaps s.packed s'.packed
    · simp only [he, he'] at h h'
      exact agreeOnResults_of_raised h h'
    · simp only [hw, hw', hfin] at h h'
      cases h; cases h'
      simpa [AgreeOnResults, writesOf, SameBelow] using hpacked
  | grDec =>
    obtain ⟨hb, hlen, hmem⟩ := hagree
    have hs := samePacked hcfg hseed hlen hmem
    have hb : s'.b = s.b := congrArg BitVec.toNat hb.symm
    simp only [exec, execGrDec, hs.tooLarge, hs.len, hs.src, hb, ← hcfg] at h h'
    split_ifs at h h'
    any_goals exact agreeOnResults_of_raised h h'
    cases hd : grDecodeCore s.cfg.maxLen s.b s.srcPacked <;> simp only [hd] at h h'
    case error e => exact agreeOnResults_of_raised h h'
    case ok out =>
      cases h; cases h'
      exact agreeOnResults_putGaps (sameBelow_toWords _ _ _)
  | golombEnc =>
    obtain ⟨hlen, hmem⟩ := hagree
    have hs := sameBytes hcfg hseed hlen hmem
    simp only [exec, execGolombEnc, hs.tooLarge, hs.src, ← hcfg] at h h'
    split_ifs at h h'
    · exact agreeOnResults_of_raised h h'
    cases hd : estimateB s.srcBytes <;> simp only [hd] at h h'
    case error e => exact agreeOnResults_of_raised h h'
    case ok bz =>
      obtain ⟨e, he, he'⟩ | ⟨w, w', hw, hw', hfin, hpacked⟩ :=
        grEncode_alike s.cfg.packCap bz.1 (rleEncode s.srcBytes) s.packed s'.packed
      · simp only [he, he'] at h h'
        exact agreeOnResults_of_raised h h'
      · have hgaps := sameBelow_toWords (rleEncode s.srcBytes) s.gaps s'.gaps
        simp only [hw, hw', hfin] at h h'
        cases h; cases h'
        simpa [AgreeOnResults, writesOf, SameBelow] using And.intro hgaps hpacked
  | golombDec =>
    obtain ⟨hb, hlen, hmem⟩ := hagree
    have hs := samePacked hcfg hseed hlen hmem
    have hb : s'.b = s.b := congrArg BitVec.toNat hb.symm
    simp only [exec, execGolombDec, hs.tooLarge, hs.len, hs.src, hb, ← hcfg] at h h'
    split_ifs at h h'
    any_goals exact agreeOnResults_of_raised h h'
    cases hd : grDecodeCore s.cfg.maxLen s.b s.srcPacked <;> simp only [hd] at h h'
    case error e => exact agreeOnResults_of_raised h h'
    case ok g =>
      cases hr : rleDecodeCore s.cfg.maxLen g <;> simp only [hr] at h h'
      case error e => exact agreeOnResults_of_raised h h'
      case ok buf =>
        have hgaps := sameBelow_toWords g s.gaps s'.gaps
        have hbytes := sameBelow_writeList buf s.bytes s'.bytes
        cases h; cases h'
        simpa [AgreeOnResults, writesOf, SameBelow] using And.intro hbytes hgaps
  | illegal w => exact agreeOnResults_of_raised h h'

end Sys2Proof.Proofs
end

section
/-! PROOFS. RLT_LOOKUP and the table entry of a byte (R100 to R102): the entry is the byte's runs, all positive and
with the sum 8, then the flag 0 where the byte ends in a 0 bit. -/

namespace Sys2Proof.Proofs

open Sys2Proof.Machine Sys2Proof.Claims

/-! ### The runs of a bit list (R100) -/

/-- The lengths of the runs of a bit list: those that a 1 bit closes, then that of the zeros left open at the end. -/
def runsOf (bs : List Bool) : List Nat :=
  Laws.gapScan 0 bs ++ if 0 < Laws.trailRun 0 bs then [Laws.trailRun 0 bs] else []

theorem rltScan_eq_runsOf (bs : List Bool) :
    rltScan 0 bs = runsOf bs ++ if 0 < Laws.trailRun 0 bs then [0] else [] := by
  rw [Laws.rltScan_eq, runsOf]
  split_ifs <;> simp

theorem runsOf_pos (bs : List Bool) : ∀ x ∈ runsOf bs, 1 ≤ x := by
  intro x hx
  rcases List.mem_append.1 hx with hx | hx
  · exact Laws.gapScan_pos 0 bs x hx
  · split_ifs at hx with ht
    · rwa [List.mem_singleton.1 hx]
    · exact absurd hx List.not_mem_nil

/-- Every bit is in one run. -/
theorem sum_runsOf (bs : List Bool) : (runsOf bs).sum = bs.length := by
  have := Laws.sum_gapScan 0 bs
  rw [runsOf, List.sum_append]
  split_ifs
  · rw [List.sum_singleton]; omega
  · rw [List.sum_nil]; omega

theorem length_runsOf (bs : List Bool) :
    (runsOf bs).length = bs.count true + if 0 < Laws.trailRun 0 bs then 1 else 0 := by
  rw [runsOf, List.length_append, Laws.length_gapScan]
  split_ifs <;> rfl

/-- The zeros at the end are the bits after the last 1 bit, counted from `q` while there is none. -/
theorem trailRun_eq_sub_getLastD (p q : Nat) (bs : List Bool) (h : q ≤ p) :
    Laws.trailRun (p - q) bs = p + bs.length - (Laws.onesFrom p bs).getLastD q := by
  induction bs generalizing p q with
  | nil => rfl
  | cons b bs ih =>
    rw [List.length_cons, show p + (bs.length + 1) = p + 1 + bs.length by omega]
    cases b with
    | false => simpa [Laws.trailRun, Laws.onesFrom, Nat.succ_sub h] using ih (p + 1) q (by omega)
    | true =>
      simp only [Laws.trailRun, Laws.onesFrom, if_true, List.getLastD_cons, ← ih (p + 1) (p + 1) le_rfl, Nat.sub_self]

/-! ### The entry of a byte (R100) -/

@[simp] theorem bitsOf_singleton (v : Byte) : bitsOf [v] = byteBits v := by
  rw [Laws.bitsOf_cons, Laws.bitsOf_nil, List.append_nil]

/-- A byte ends in a zero run exactly when its last bit is 0. -/
theorem trailRun_byteBits_pos (v : Byte) : 0 < Laws.trailRun 0 (byteBits v) ↔ v.getLsbD 0 = false := by
  have hlast : byteBits v = (List.range 7).map (fun j => v.getLsbD (7 - j)) ++ [v.getLsbD 0] := by
    rw [byteBits, List.range_succ, List.map_append]; rfl
  rw [hlast, Laws.trailRun_append]
  cases v.getLsbD 0 <;> simp [Laws.trailRun]

/-- The entry of a byte: its runs, then the flag where its last bit is 0. -/
theorem rlt_eq_runsOf (v : Byte) : rlt v = runsOf (byteBits v) ++ if v.getLsbD 0 then [] else [0] := by
  rw [rlt, rltScan_eq_runsOf]
  simp only [trailRun_byteBits_pos]
  cases v.getLsbD 0 <;> rfl

/-- The scan of the machine computes the entry that the claims write from the positions of the 1 bits. -/
theorem tableEntry_eq_rlt (v : Byte) : tableEntry v = rlt v := by
  have htrail := trailRun_eq_sub_getLastD 0 0 (byteBits v) le_rfl
  rw [Nat.zero_add, Laws.length_byteBits] at htrail
  rw [tableEntry, rlt, Laws.rltScan_eq, Laws.differences_onePositions, Laws.onePositions_eq, bitsOf_singleton,
    ← htrail]
  simp only [trailRun_byteBits_pos]
  cases v.getLsbD 0 <;> rfl

theorem tableEntry_eq_runsOf (v : Byte) :
    tableEntry v = runsOf (byteBits v) ++ if v.getLsbD 0 then [] else [0] :=
  (tableEntry_eq_rlt v).trans (rlt_eq_runsOf v)

/-! ### The properties of the entry (R102) -/

/-- R102 (a). -/
theorem sum_tableEntry (v : Byte) : (tableEntry v).sum = 8 := by
  rw [tableEntry_eq_runsOf, List.sum_append, sum_runsOf, Laws.length_byteBits]
  split_ifs <;> rfl

/-- R102 (b). -/
theorem length_tableEntry (v : Byte) :
    (tableEntry v).length = (byteBits v).count true + 2 * (1 - (v.getLsbD 0).toNat) := by
  rw [tableEntry_eq_runsOf, List.length_append, length_runsOf]
  simp only [trailRun_byteBits_pos]
  cases v.getLsbD 0 <;> rfl

/-- The runs are not empty: the entry starts with one. -/
theorem headD_tableEntry_pos (v : Byte) : 1 ≤ (tableEntry v).headD 0 := by
  have hpos := runsOf_pos (byteBits v)
  have hsum := sum_runsOf (byteBits v)
  rw [tableEntry_eq_runsOf]
  cases hr : runsOf (byteBits v) with
  | nil => simp [hr] at hsum
  | cons x xs => exact hpos x (by simp [hr])

theorem length_tableEntry_pos (v : Byte) : 1 ≤ (tableEntry v).length := by
  cases h : tableEntry v with
  | nil => exact absurd (sum_tableEntry v) (by simp [h])
  | cons x xs => simp

theorem length_tableEntry_le (v : Byte) : (tableEntry v).length ≤ 9 := by
  have hruns := Laws.length_le_sum (runsOf_pos (byteBits v))
  rw [sum_runsOf, Laws.length_byteBits] at hruns
  rw [tableEntry_eq_runsOf, List.length_append]
  split_ifs <;> simp <;> omega

/-- R102 (c): the flag is the one entry 0, and it stands last. -/
theorem getElem?_tableEntry_eq_zero_iff (v : Byte) (j : Nat) :
    (tableEntry v)[j]? = some 0 ↔ v.getLsbD 0 = false ∧ j + 1 = (tableEntry v).length := by
  have hruns : (runsOf (byteBits v))[j]? ≠ some 0 := fun h =>
    absurd (runsOf_pos _ 0 (List.mem_of_getElem? h)) (by decide)
  rw [tableEntry_eq_runsOf]
  cases v.getLsbD 0 with
  | true => simpa using hruns
  | false =>
    simp only [Bool.false_eq_true, if_false, true_and, List.length_append, List.length_singleton]
    rcases Nat.lt_or_ge j (runsOf (byteBits v)).length with hj | hj
    · rw [List.getElem?_append_left hj]
      exact iff_of_false hruns (by omega)
    · rw [List.getElem?_append_right hj, List.getElem?_singleton]
      split_ifs <;> simp <;> omega

theorem length_tableEntry_eq_nine_iff (v : Byte) : (tableEntry v).length = 9 ↔ v = 0xFE := by
  rw [length_tableEntry]
  revert v
  decide

theorem popcount_eq_eight_iff (v : Byte) : popcount v = 8 ↔ v = 0xFF := by
  revert v
  decide

/-- Entries all 1 have no flag among them, so they are eight runs: every bit closes one. -/
theorem tableEntry_all_one_iff (v : Byte) : (∀ x ∈ tableEntry v, x = 1) ↔ v = 0xFF := by
  refine ⟨fun h => ?_, fun h => by subst h; decide⟩
  have hsum := sum_tableEntry v
  rw [List.eq_replicate_of_mem h, List.sum_replicate, smul_eq_mul, mul_one, length_tableEntry] at hsum
  have hbit : v.getLsbD 0 = true := by
    by_contra hb
    have h0 : 0 ∈ tableEntry v := by rw [tableEntry_eq_runsOf, if_neg hb]; simp
    exact absurd (h 0 h0) (by decide)
  rw [hbit] at hsum
  exact (popcount_eq_eight_iff v).1 hsum

/-! ### The command (R101) -/

theorem exec_rltLookup (v : Byte) (s : State) :
    exec (.rltLookup v) s = .next
      { s with gaps := Mem.writeList s.gaps 0 (words (tableEntry v)),
               gapCount := BitVec.ofNat 32 (tableEntry v).length, status := succeeded, latch := none } := by
  rw [tableEntry_eq_rlt]
  rfl

/-- Settles O29: the command stores the machine's scan of the byte, which is the entry; R102's properties are those
of the byte's runs. -/
theorem rltLookupCopiesTheTableEntry : Obligations.RltLookupCopiesTheTableEntry := by
  intro v s e
  refine ⟨⟨_, exec_rltLookup v s, Laws.wrote_writeList _ _⟩, sum_tableEntry v, length_tableEntry_pos v,
    length_tableEntry_le v, ?_, getElem?_tableEntry_eq_zero_iff v, fun x hx => ?_, headD_tableEntry_pos v,
    length_tableEntry_eq_nine_iff v, tableEntry_all_one_iff v⟩
  · rw [bitsOf_singleton]
    exact length_tableEntry v
  · exact (Laws.le_sum_of_mem hx).trans_eq (sum_tableEntry v)

end Sys2Proof.Proofs
end

section
/-! PROOFS. The bit cursor over `PACKED` (R110 to R117): the bits that a write has left are those that a read gets back,
and a read that runs to the limit is MalformedStream. -/

namespace Sys2Proof.Proofs

open Sys2Proof.Machine Sys2Proof.Claims

/-! ### The position names the cursor (R110) -/

theorem cursor_eq_of_pos {c c' : Cursor} (hb : c.bitOff < 8) (hb' : c'.bitOff < 8) (h : c.pos = c'.pos) : c = c' := by
  obtain ⟨i, j⟩ := c
  obtain ⟨i', j'⟩ := c'
  simp only [Cursor.pos] at h hb hb'
  rw [Cursor.mk.injEq]
  omega

/-! ### The bits of a memory (R12) -/

/-- The bit with stream index `t` of a memory, 0 in an unwritten cell. -/
def cellBit (m : Mem 8) (t : Nat) : Bool := ((Mem.read m (t / 8)).getD 0).getLsbD (7 - t % 8)

/-- Bytes that agree with the memory's cell have its bits. -/
theorem streamBit_eq_cellBit {src : List Byte} {m : Mem 8} {t : Nat} (h : src[t / 8]? = Mem.read m (t / 8)) :
    streamBit src t = cellBit m t := by
  rw [streamBit, cellBit, List.getD_eq_getElem?_getD, h]

/-! ### Writing in the middle of a byte (R112, R113) -/

section
variable {cap : Nat} {w w' : Writer}

theorem getLsbD_shiftedBit : ∀ (c : Bool), ∀ k < 8, ∀ j < 8,
    ((BitVec.ofBool c).setWidth 8 <<< (7 - k)).getLsbD (7 - j) = (decide (j = k) && c) := by
  decide

theorem putBit_cur {c : Bool} (h : putBit cap c w = .ok w') : w'.cur = w.cur.advance := by
  simp only [putBit] at h
  split at h <;> cases h
  rfl

/-- `PutBit` changes the byte at the cursor only: a byte first entered is zeroed, and `c` is ORed in. -/
theorem cellBit_putBit {c : Bool} (hb : w.cur.bitOff < 8) (h : putBit cap c w = .ok w') (t : Nat) :
    cellBit w'.mem t = if t / 8 = w.cur.byteOff
      then (decide (w.cur.bitOff ≠ 0) && cellBit w.mem t) || (decide (t = w.cur.pos) && c)
      else cellBit w.mem t := by
  simp only [putBit] at h
  split at h <;> cases h
  by_cases ht : t / 8 = w.cur.byteOff
  · have hpos : decide (t % 8 = w.cur.bitOff) = decide (t = w.cur.pos) := by
      rw [decide_eq_decide, Cursor.pos]
      omega
    rw [if_pos ht, cellBit, ht, Mem.read_write_same, Option.getD_some, BitVec.getLsbD_or,
      getLsbD_shiftedBit c _ hb _ (Nat.mod_lt _ (by decide)), hpos]
    by_cases h0 : w.cur.bitOff = 0 <;> simp [h0, cellBit, ht]
  · rw [if_neg ht, cellBit, Mem.read_write_ne _ _ ht, cellBit]
    split_ifs
    · rw [Mem.read_write_ne _ _ ht]
    · rfl

/-- In the byte that the cursor stands in, nothing is set at or after the cursor. -/
def RestBlank (w : Writer) : Prop :=
  w.cur.bitOff < 8 ∧ (w.cur.bitOff ≠ 0 → ∀ t, w.cur.pos ≤ t → t / 8 = w.cur.byteOff → cellBit w.mem t = false)

/-- `PutBit` at a blank rest writes its bit, keeps the bits before it, and leaves a blank rest. -/
theorem putBit_restBlank {c : Bool} (hw : RestBlank w) (h : putBit cap c w = .ok w') :
    RestBlank w' ∧ w'.cur.pos = w.cur.pos + 1 ∧ cellBit w'.mem w.cur.pos = c ∧
      ∀ t < w.cur.pos, cellBit w'.mem t = cellBit w.mem t := by
  obtain ⟨hb, hblank⟩ := hw
  have hcell := cellBit_putBit hb h
  have hcur := putBit_cur h
  obtain ⟨hpos, hb'⟩ := Laws.advance_pos hb
  rw [← hcur] at hpos hb'
  have hbyte : w.cur.pos / 8 = w.cur.byteOff := by simp only [Cursor.pos]; omega
  refine ⟨⟨hb', fun h0 t ht hbt => ?_⟩, hpos, ?_, fun t ht => ?_⟩
  · have hsame : w'.cur.byteOff = w.cur.byteOff := by simp only [Cursor.pos] at hpos; omega
    rw [hcell, if_pos (by omega), decide_eq_false (show t ≠ w.cur.pos by omega), Bool.false_and, Bool.or_false]
    by_cases hz : w.cur.bitOff = 0
    · simp [hz]
    · rw [hblank hz t (by omega) (by omega), Bool.and_false]
  · rw [hcell, if_pos hbyte]
    by_cases hz : w.cur.bitOff = 0
    · simp [hz]
    · simp [hblank hz _ le_rfl hbyte]
  · rw [hcell]
    split_ifs with hbt
    · have hz : w.cur.bitOff ≠ 0 := by simp only [Cursor.pos] at ht; omega
      simp [hz, ht.ne]
    · rfl

/-- `PutBits` at a blank rest writes the field and keeps the bits before it. -/
theorem putBits_restBlank {n x : Nat} (hw : RestBlank w) (h : putBits cap n x w = .ok w') :
    RestBlank w' ∧ w'.cur.pos = w.cur.pos + n ∧ (∀ t < w.cur.pos, cellBit w'.mem t = cellBit w.mem t) ∧
      ∀ t < n, (fieldBits n x)[t]? = some (cellBit w'.mem (w.cur.pos + t)) := by
  induction n generalizing w with
  | zero =>
    cases h
    exact ⟨hw, rfl, fun _ _ => rfl, fun t ht => absurd ht (Nat.not_lt_zero t)⟩
  | succ n ih =>
    simp only [putBits] at h
    split at h
    · cases h
    next w1 h1 =>
      obtain ⟨hw1, hpos1, hbit, hkeep1⟩ := putBit_restBlank hw h1
      obtain ⟨hw', hpos, hkeep, hfield⟩ := ih hw1 h
      refine ⟨hw', by omega, fun t ht => ?_, fun t ht => ?_⟩
      · rw [hkeep t (by omega), hkeep1 t ht]
      · rw [Laws.fieldBits_succ]
        cases t with
        | zero => rw [List.getElem?_cons_zero, Nat.add_zero, hkeep _ (by omega), hbit]
        | succ t => rw [List.getElem?_cons_succ, hfield t (by omega), hpos1, Nat.add_assoc, Nat.add_comm 1 t]

end

/-- Settles O44: the written field stands ahead of the cursor it was written at, so GetBits reads it back, and both
end at one position. -/
theorem getBitsReadsBackPutBits : Obligations.GetBitsReadsBackPutBits := by
  intro cap n x lim w w' src hx hb hstart hput hsrc hlim
  have hw : RestBlank w := by
    refine ⟨hb, fun h0 t ht hbt => ?_⟩
    obtain ⟨v, hv, hblank⟩ := hstart h0
    rw [cellBit, hbt, hv]
    simp only [Cursor.pos] at ht
    exact hblank _ (by omega) (by omega)
  obtain ⟨⟨hb', -⟩, hpos, -, hfield⟩ := putBits_restBlank hw hput
  have hahead : Laws.Ahead src lim w.cur (fieldBits n x ++ []) := by
    rw [List.append_nil]
    refine ⟨hb, by rw [Laws.length_fieldBits]; omega, fun t ht => ?_⟩
    rw [Laws.length_fieldBits] at ht
    rw [hfield t ht, streamBit_eq_cellBit]
    exact hsrc _ (by omega) (by simp only [Cursor.pos]; omega)
  obtain ⟨c', hget, ⟨hbc, -⟩, hposc⟩ := Laws.getBits_ahead hahead hx
  rw [hget, cursor_eq_of_pos hbc hb' (by omega)]

/-! ### Reading to the limit (R115, R117) -/

section
variable {src : List Byte} {lim : Nat}

/-- A unary number whose ones do not end before the limit is MalformedStream. -/
theorem getUnaryFrom_ones (hones : ∀ t < lim, streamBit src t = true) (fuel q : Nat) {c : Cursor} (hb : c.bitOff < 8) :
    getUnaryFrom src lim fuel q c = .error .malformedStream := by
  induction fuel generalizing q c with
  | zero => rfl
  | succ fuel ih =>
    rw [getUnaryFrom, Laws.getBit_eq src lim hb]
    by_cases hl : lim ≤ c.pos
    · rw [if_pos hl]
    · rw [if_neg hl, hones _ (by omega)]
      exact ih (q + 1) (Laws.advance_pos hb).2

theorem decodeSymbol_ones (hones : ∀ t < lim, streamBit src t = true) (b : Nat) {c : Cursor} (hb : c.bitOff < 8) :
    decodeSymbol src lim b c = .error .malformedStream := by
  rw [decodeSymbol, getUnary, getUnaryFrom_ones hones _ _ hb]

end

/-- A stream of ones is no symbol, and too long to be a pad. -/
theorem grDecodeCore_ones (maxLen b : Nat) {n : Nat} (hn : 1 ≤ n) :
    grDecodeCore maxLen b (List.replicate n 0xFF) = .error .malformedStream := by
  have hones : ∀ t < 8 * n, streamBit (List.replicate n 0xFF) t = true := by
    intro t ht
    have hbit : ∀ j < 8, (0xFF : Byte).getLsbD (7 - j) = true := by decide
    rw [streamBit, List.getD_eq_getElem?_getD, List.getElem?_replicate, if_pos (by omega)]
    exact hbit _ (Nat.mod_lt _ (by decide))
  have hpad : restIsPad (List.replicate n 0xFF) (8 * n) Cursor.start = false := by
    rw [restIsPad, decide_eq_false (by simp only [Cursor.pos, Cursor.start]; omega), Bool.false_and]
  rw [grDecodeCore, List.length_replicate, decodeSymbols, hpad, if_neg (by simp),
    decodeSymbol_ones hones b (by decide)]

/-! ### A decoder's error in the words of the claims (R171, R203) -/

theorem raise_eq_afterError (s : State) (i : Instr) (e : ErrorCode) : s.raise i e = afterError s i e.code := by
  cases i <;> rfl

/-- A decoder that passes R171's checks ends with the error that its core meets. -/
theorem exec_decoder_of_coreError {s : State} {i : Instr} {ps : List Byte} {e : ErrorCode}
    (hi : i = .grDec ∨ i = .golombDec) (hps : HoldsPacked s ps) (hcap : ps.length ≤ s.cfg.packCap) (hne : ps ≠ [])
    (hb : s.bParam ≠ 0) (he : grDecodeCore s.cfg.maxLen s.b ps = .error e) :
    exec i s = .next (afterError s i e.code) := by
  obtain ⟨hsrc, hwritten⟩ := Laws.srcPacked_of_holds hps
  have hlen : s.packLen.toNat = ps.length := hps.1
  have hfits : s.packLenTooLarge = false := decide_eq_false (by omega)
  have hb0 : s.b ≠ 0 := mt (b_eq_zero_iff s).1 hb
  have hlen0 : s.packLen ≠ 0 := fun h => hne (List.length_eq_zero_iff.1 (by rw [← hlen, h]; rfl))
  rcases hi with rfl | rfl
  · simp only [exec, execGrDec, hfits, hb0, hlen0, hsrc, hwritten, he, Bool.false_eq_true, if_false,
      raise_eq_afterError]
    rfl
  · simp only [exec, execGolombDec, hfits, hb0, hlen0, hsrc, hwritten, he, Bool.false_eq_true, if_false,
      raise_eq_afterError]
    rfl

/-- Settles O50: the decoders' common core finds no symbol in the ones. -/
theorem unaryRunToTheLimitIsMalformed : Obligations.UnaryRunToTheLimitIsMalformed := by
  intro s n hn hcap hps hb
  have hcap' : (List.replicate n (0xFF : Byte)).length ≤ s.cfg.packCap := by rwa [List.length_replicate]
  have hne : List.replicate n (0xFF : Byte) ≠ [] := List.ne_nil_of_length_pos (by rwa [List.length_replicate])
  have hexec := fun i hi => exec_decoder_of_coreError (i := i) hi hps hcap' hne hb (grDecodeCore_ones _ _ hn)
  exact ⟨hexec _ (.inl rfl), hexec _ (.inr rfl)⟩

end Sys2Proof.Proofs
end

section
/-! PROOFS. RLE_ENC and its gap sequence (R130 to R135): the gaps inside the buffer, the one that runs into the sentinel
byte, and the sentinel's seven entries 1; and the check of `BYTE_LEN` that comes first (R131, R151). -/

namespace Sys2Proof.Proofs

open Sys2Proof.Machine Sys2Proof.Claims

/-! ### The gap sequence (R134) -/

/-- The first bit of the sentinel closes the run that the buffer leaves open, and each other bit of it is a gap 1. -/
theorem gapsOf_eq_append_sentinel (src : List Byte) :
    gapsOf src = Laws.gapScan 0 (bitsOf src) ++ (Laws.trailRun 0 (bitsOf src) + 1) :: List.replicate 7 1 := by
  have hbits : bitsOf [0xFF] = List.replicate 8 true := by decide
  rw [Laws.gapsOf_eq_gapScan, Laws.bitsOf_append, Laws.gapScan_append, hbits]
  rfl

/-- No gap is longer than the buffer's bits and the sentinel's first one. -/
theorem le_of_mem_gapsOf {src : List Byte} {v : Nat} (hv : v ∈ gapsOf src) : v ≤ 8 * src.length + 1 := by
  have hsum := Laws.sum_gapScan 0 (bitsOf src)
  rw [Laws.length_bitsOf] at hsum
  rw [gapsOf_eq_append_sentinel, List.mem_append, List.mem_cons] at hv
  rcases hv with hv | rfl | hv
  · have := Laws.le_sum_of_mem hv
    omega
  · omega
  · rw [List.eq_of_mem_replicate hv]
    omega

theorem drop_gapsOf (src : List Byte) : (gapsOf src).drop ((gapsOf src).length - 7) = List.replicate 7 1 := by
  rw [gapsOf_eq_append_sentinel, List.append_cons]
  exact List.drop_left' (by simp)

theorem onesFrom_append (p : Nat) (bs cs : List Bool) :
    Laws.onesFrom p (bs ++ cs) = Laws.onesFrom p bs ++ Laws.onesFrom (p + bs.length) cs := by
  induction bs generalizing p with
  | nil => rfl
  | cons b bs ih =>
    have hlen : p + (b :: bs).length = p + 1 + bs.length := by rw [List.length_cons]; omega
    rw [hlen]
    cases b <;> simp [Laws.onesFrom, ih]

/-- A bit list that ends in a 1 bit has its last 1 bit at its end. -/
theorem getLast?_onePositions_append_true (bs : List Bool) :
    (onePositions (bs ++ [true])).getLast? = some (bs.length + 1) := by
  rw [Laws.onePositions_eq, onesFrom_append, Nat.zero_add]
  exact List.getLast?_concat

theorem getLast?_onePositions_sentinel (src : List Byte) :
    (onePositions (bitsOf (src ++ [0xFF]))).getLast? = some (8 * (src.length + 1)) := by
  have hbits : bitsOf [0xFF] = List.replicate 7 true ++ [true] := by decide
  rw [Laws.bitsOf_append, hbits, ← List.append_assoc, getLast?_onePositions_append_true, List.length_append,
    Laws.length_bitsOf, List.length_replicate]
  rfl

/-- Settles O31: the encoder's output is `gapsOf`, whose parts the lemmas above measure. -/
theorem gapSequenceClosedForm : Obligations.GapSequenceClosedForm := by
  intro src cfg hc hl out
  obtain ⟨⟨-, hmax⟩, -⟩ := hc
  have hout : out = gapsOf src := Laws.rleEncode_eq_gapsOf src
  rw [hout]
  refine ⟨rfl, ?_, Laws.length_gapsOf_le src, ?_, fun v hv => ⟨Laws.gapsOf_pos src v hv, le_of_mem_gapsOf hv⟩, by omega,
    Laws.sum_gapsOf src, getLast?_onePositions_sentinel src, drop_gapsOf src⟩
  · rw [Laws.length_gapsOf, Laws.count_true_bitsOf]
  · rw [Config.gapCap]
    omega

/-! ### The command (R130 to R133) -/

theorem exec_rleEnc {s : State} {src : List Byte} (h : HoldsBytes s src) (hl : src.length ≤ s.cfg.maxLen) :
    exec .rleEnc s = .next
      { s with gaps := Mem.writeList s.gaps 0 (words (gapsOf src)),
               gapCount := BitVec.ofNat 32 (gapsOf src).length, status := succeeded, latch := none } := by
  obtain ⟨hsrc, hwritten⟩ := Laws.srcBytes_of_holds h
  obtain ⟨hlen, -⟩ := h
  have hfits : s.byteLenTooLarge = false := decide_eq_false (by omega)
  simp only [exec, execRleEnc, hfits, hsrc, hwritten, Laws.rleEncode_eq_gapsOf, Bool.false_eq_true, if_false]
  rfl

/-- Settles O30: the command reads `src` and stores its gap sequence from cell 0 on. -/
theorem rleEncWritesTheGapsOfTheOnes : Obligations.RleEncWritesTheGapsOfTheOnes :=
  fun _ _ h hl => ⟨_, exec_rleEnc h hl, Laws.wrote_writeList _ _⟩

/-! ### A buffer of zeros (R135) -/

/-- No gap ends in zero bytes, so all their bits run into the sentinel. -/
theorem gapsOf_zeros (n : Nat) : gapsOf (List.replicate n 0x00) = (8 * n + 1) :: List.replicate 7 1 := by
  have hpop : popcount 0x00 = 0 := by decide
  have hscan : Laws.gapScan 0 (bitsOf (List.replicate n 0x00)) = [] := by
    rw [← List.length_eq_zero_iff, Laws.length_gapScan, Laws.count_true_bitsOf, List.map_replicate, hpop]
    simp
  have hsum := Laws.sum_gapScan 0 (bitsOf (List.replicate n 0x00))
  rw [hscan, Laws.length_bitsOf, List.length_replicate, List.sum_nil, Nat.zero_add, Nat.zero_add] at hsum
  rw [gapsOf_eq_append_sentinel, hscan, hsum, List.nil_append]

/-- Settles O32: the command's stores, with the gap sequence of zero bytes. -/
theorem zeroBufferIsOneLongGap : Obligations.ZeroBufferIsOneLongGap := by
  intro s n h hn
  have hexec := exec_rleEnc h (by rwa [List.length_replicate])
  rw [gapsOf_zeros] at hexec
  exact ⟨_, hexec, Laws.wrote_writeList _ _⟩

/-! ### The check of `BYTE_LEN` (R131, R151) -/

/-- Settles O33: the check stands before the reads and raises the error from the state as it is. -/
theorem byteLengthOverTheBoundIsRejected : Obligations.ByteLengthOverTheBoundIsRejected := by
  intro s h
  have hlarge : s.byteLenTooLarge = true := decide_eq_true h
  refine ⟨?_, ?_, ?_⟩
  · simp only [exec, execRleEnc, hlarge, if_true, raise_eq_afterError]
    rfl
  · simp only [exec, execDensity, hlarge, if_true, raise_eq_afterError]
    rfl
  · simp only [exec, execGolombEnc, hlarge, if_true, raise_eq_afterError]
    rfl

end Sys2Proof.Proofs
end

section
/-! PROOFS. RLE_DEC (R140 to R145) and its round trip with RLE_ENC (R146): the count checks before the reads, the
command's outcome on a written gap sequence, and the encoder's gap sequence as one that decodes to its buffer. -/

namespace Sys2Proof.Proofs

open Sys2Proof.Machine Sys2Proof.Claims

/-! ### The checks of `GAP_COUNT` (R141) -/

theorem exec_rleDec_of_countTooLarge {s : State} (h : s.cfg.gapCap < s.gapCount.toNat) :
    exec .rleDec s = .next (afterError s .rleDec 2) := by
  have hlarge : s.gapCountTooLarge = true := decide_eq_true h
  simp only [exec, execRleDec, hlarge, if_true, raise_eq_afterError]
  rfl

theorem exec_rleDec_of_countZero {s : State} (hfits : ¬ s.cfg.gapCap < s.gapCount.toNat) (h : s.gapCount = 0) :
    exec .rleDec s = .next (afterError s .rleDec 4) := by
  have hsmall : s.gapCountTooLarge = false := decide_eq_false hfits
  simp only [exec, execRleDec, hsmall, h, Bool.false_eq_true, if_false, if_true, raise_eq_afterError]
  rfl

/-- Settles O34: each check raises its error from the state as it is. -/
theorem rleDecChecksTheCountFirst : Obligations.RleDecChecksTheCountFirst :=
  fun _ => ⟨exec_rleDec_of_countTooLarge, exec_rleDec_of_countZero⟩

/-! ### The command on a written gap sequence (R140, R142 to R145) -/

/-- `RleDecodeCore`'s outcome on the sequence read. The empty sequence, which R141 rejects before the core runs, is not
decodable either. -/
theorem exec_rleDec {s : State} {g : List Nat} (h : HoldsGaps s g) (hcap : g.length ≤ s.cfg.gapCap) :
    exec .rleDec s = .next (if Decodable s.cfg.maxLen g then
      { s with bytes := Mem.writeList s.bytes 0 (bytesOf g), byteLen := BitVec.ofNat 32 (bytesOf g).length,
               status := succeeded, latch := none } else afterError s .rleDec 4) := by
  obtain ⟨hsrc, hwritten⟩ := Laws.srcGaps_of_holds h
  obtain ⟨hcount, -⟩ := h
  have hfits : ¬ s.cfg.gapCap < s.gapCount.toNat := by omega
  by_cases hne : g = []
  · have hcount0 : s.gapCount.toNat = 0 := by rw [hcount, hne, List.length_nil]
    rw [if_neg fun hd => hd.1 hne]
    exact exec_rleDec_of_countZero hfits (BitVec.eq_of_toNat_eq hcount0)
  · have hsmall : s.gapCountTooLarge = false := decide_eq_false hfits
    have hcount0 : s.gapCount ≠ 0 := fun h0 => hne (List.length_eq_zero_iff.1 (by rw [← hcount, h0]; rfl))
    simp only [exec, execRleDec, hsmall, hcount0, hsrc, hwritten, Laws.rleDecodeCore_eq, Bool.false_eq_true, if_false,
      raise_eq_afterError]
    by_cases hd : Decodable s.cfg.maxLen g
    · rw [if_pos hd, if_pos hd]
      rfl
    · rw [if_neg hd, if_neg hd]
      rfl

/-- Settles O35: the two branches of the command's outcome. -/
theorem rleDecRebuildsOrRejects : Obligations.RleDecRebuildsOrRejects := by
  intro s g h hcap
  rw [exec_rleDec h hcap]
  refine ⟨fun hd => ?_, fun hd => by rw [if_neg hd]; rfl⟩
  rw [if_pos hd]
  exact ⟨_, rfl, Laws.wrote_writeList _ _⟩

/-! ### The encoder's gap sequence decodes to its buffer (R146) -/

theorem positionsOf_gapsOf (src : List Byte) :
    positionsOf (gapsOf src) = onePositions (bitsOf src ++ bitsOf [0xFF]) := by
  rw [positionsOf, Laws.gapsOf_eq_gapScan, Laws.positionsFrom_gapScan, Laws.onePositions_eq, Laws.bitsOf_append]

theorem mem_onePositions (t : Nat) (bs : List Bool) : t + 1 ∈ onePositions bs ↔ bs.getD t false = true := by
  rw [Laws.onePositions_eq, ← Laws.mem_onesFrom 0 t bs, Nat.zero_add]

/-- The last eight positions are those of the sentinel byte's bits. -/
theorem decodable_gapsOf {maxLen : Nat} {src : List Byte} (hl : src.length ≤ maxLen) :
    Decodable maxLen (gapsOf src) := by
  have hsum := Laws.sum_gapsOf src
  have hne : gapsOf src ≠ [] := fun h => by rw [h, List.sum_nil] at hsum; omega
  have hsentinel : ∀ k < 8, (bitsOf [0xFF]).getD k false = true := by decide
  refine ⟨hne, Laws.gapsOf_pos src, by omega, by omega, fun j hj => ?_⟩
  have hpos : (gapsOf src).sum - j = (bitsOf src).length + (7 - j) + 1 := by
    rw [hsum, Laws.length_bitsOf]
    omega
  rw [positionsOf_gapsOf, hpos, mem_onePositions, List.getD_append_right _ _ _ _ (Nat.le_add_right _ _),
    Nat.add_sub_cancel_left]
  exact hsentinel _ (by omega)

/-- Below the sentinel byte, the positions of the sequence are those of the buffer's 1 bits. -/
theorem bytesOf_gapsOf (src : List Byte) : bytesOf (gapsOf src) = src := by
  have hlen : (gapsOf src).sum - 8 = (bitsOf src).length := by
    rw [Laws.sum_gapsOf, Laws.length_bitsOf]
    omega
  have hbits : ((List.range (bitsOf src).length).map fun t => decide (t + 1 ∈ positionsOf (gapsOf src)))
      = bitsOf src := by
    refine List.ext_getElem (by simp) fun t ht ht' => ?_
    simp [positionsOf_gapsOf, mem_onePositions, List.getElem?_append_left ht', List.getElem?_eq_getElem ht']
  rw [bytesOf, hlen, hbits, Laws.packBits_bitsOf]

/-! ### The round trip (R146) -/

/-- A block write from cell 0 on is held below its end (R33, R34). -/
theorem read_of_wrote {n : Nat} {m m0 : Mem n} {vs : List (BitVec n)} (h : Wrote m m0 vs) :
    ∀ i < vs.length, Mem.read m i = vs[i]? := by
  intro i hi
  rw [h i, List.getElem?_eq_getElem hi, Option.some_or]

theorem holdsBytes_of_wrote {s : State} {src : List Byte} {m0 : Mem 8} (hlen : s.byteLen = BitVec.ofNat 32 src.length)
    (hlt : src.length < 2 ^ 32) (h : Wrote s.bytes m0 src) : HoldsBytes s src :=
  ⟨by rw [hlen, BitVec.toNat_ofNat, Nat.mod_eq_of_lt hlt], read_of_wrote h⟩

theorem holdsGaps_of_wrote {s : State} {g : List Nat} {m0 : Mem 32} (hcount : s.gapCount = BitVec.ofNat 32 g.length)
    (hlt : g.length < 2 ^ 32) (hg : ∀ v ∈ g, v < 2 ^ 32) (h : Wrote s.gaps m0 (words g)) : HoldsGaps s g := by
  refine ⟨by rw [hcount, BitVec.toNat_ofNat, Nat.mod_eq_of_lt hlt], hg, ?_⟩
  have hread := read_of_wrote h
  rwa [words, List.length_map] at hread

/-- Settles O36: RLE_ENC leaves `GAPS` holding the gap sequence of `src`, which RLE_DEC decodes to `src`. -/
theorem runLengthRoundTrip : Obligations.RunLengthRoundTrip := by
  intro s src m0 x hc h hl
  obtain ⟨hmax, hgap, -⟩ := capacities_lt hc
  have hcap : (gapsOf src).length ≤ s.cfg.gapCap := Laws.rleEncode_eq_gapsOf src ▸ length_rleEncode_le hl
  have hentry : ∀ v ∈ gapsOf src, v < 2 ^ 32 := fun v hv => by
    have := le_of_mem_gapsOf hv
    rw [Config.gapCap] at hgap
    omega
  refine ⟨_, _, exec_rleEnc h hl, exec_rleDec (g := gapsOf src) ?_ hcap, ?_⟩
  · exact holdsGaps_of_wrote rfl (by omega) hentry (Laws.wrote_writeList _ _)
  · rw [if_pos (decodable_gapsOf hl), bytesOf_gapsOf]
    exact ⟨rfl, holdsBytes_of_wrote rfl (by omega) (Laws.wrote_writeList _ _)⟩

end Sys2Proof.Proofs
end

section
/-! PROOFS. DENSITY and its estimate (R150 to R154): `EstimateB` as R152's least `b`, that `b` as the source's logarithm
formula over the reals and its range, and the outcomes of the commands that estimate. -/

namespace Sys2Proof.Proofs

open Sys2Proof.Machine Sys2Proof.Claims

/-! ### The least `b` (R152) -/

theorem isLeastB_le {n z b c : Nat} (h : IsLeastB n z b) (hc : 1 ≤ c) (hpow : 2 * z ^ c ≤ n ^ c) : b ≤ c := by
  obtain ⟨-, -, hleast⟩ := h
  by_contra hbc
  have := hleast c hc (by omega)
  omega

/-- Below the least `b` the inequality fails, at 0 as well. -/
theorem pow_lt_of_isLeastB {n z b c : Nat} (h : IsLeastB n z b) (hc : c < b) : n ^ c < 2 * z ^ c := by
  obtain ⟨-, -, hleast⟩ := h
  rcases Nat.eq_zero_or_pos c with rfl | hpos
  · rw [pow_zero, pow_zero]
    decide
  · exact hleast c hpos hc

theorem isLeastB_eq_one_iff {n z b : Nat} (h : IsLeastB n z b) : b = 1 ↔ 2 * z ≤ n := by
  have hone : 2 * z ^ 1 ≤ n ^ 1 ↔ 2 * z ≤ n := by rw [pow_one, pow_one]
  have ⟨hpos, hpow, _⟩ := h
  rw [← hone]
  exact ⟨fun hb => hb ▸ hpow, fun hhalf => Nat.le_antisymm (isLeastB_le h (Nat.le_refl 1) hhalf) hpos⟩

/-- `EstimateB` succeeds with R152's least `b` and `Z`, exactly outside R153's cases. -/
theorem estimateB_eq_ok_iff {src : List Byte} {b z : Nat} : estimateB src = .ok (b, z) ↔
    z = zeroBits src ∧ 0 < z ∧ z < 8 * src.length ∧ IsLeastB (8 * src.length) z b := by
  have hle := Laws.zeroBits_add_ones src
  rw [Laws.estimateB_eq]
  constructor
  · intro h
    split_ifs at h with hdeg
    cases h
    have hpos : 0 < zeroBits src := by omega
    have hlt : zeroBits src < 8 * src.length := by omega
    exact ⟨rfl, hpos, hlt, (Laws.leastB_spec hlt hpos).1⟩
  · rintro ⟨rfl, hpos, hlt, hleast⟩
    rw [if_neg (by omega), Laws.isLeastB_unique (Laws.leastB_spec hlt hpos).1 hleast]

/-! ### The logarithm formula (R152, R154) -/

section
variable {n z : Nat} (hz : 0 < z) (hlt : z < n)
include hz hlt

theorem log_ratio_neg : Real.log ((z : ℝ) / n) < 0 := by
  have hz' : (0 : ℝ) < z := by exact_mod_cast hz
  have hlt' : (z : ℝ) < n := by exact_mod_cast hlt
  exact Real.log_neg (div_pos hz' (hz'.trans hlt')) ((div_lt_one (hz'.trans hlt')).2 hlt')

/-- R152's inequality for the exponent `c`, as a bound on `-ln 2 / ln p`. -/
theorem two_mul_pow_le_iff_logRatio_le (c : Nat) :
    2 * z ^ c ≤ n ^ c ↔ -Real.log 2 / Real.log ((z : ℝ) / n) ≤ c := by
  have hz' : (0 : ℝ) < z := by exact_mod_cast hz
  have hn' : (0 : ℝ) < n := by exact_mod_cast hz.trans hlt
  calc 2 * z ^ c ≤ n ^ c
      ↔ (2 * (z : ℝ) ^ c) ≤ (n : ℝ) ^ c := by exact_mod_cast Iff.rfl
    _ ↔ ((z : ℝ) / n) ^ c ≤ 2⁻¹ := by
      rw [div_pow, div_le_iff₀ (pow_pos hn' c), le_inv_mul_iff₀ two_pos]
    _ ↔ c * Real.log ((z : ℝ) / n) ≤ -Real.log 2 := by
      rw [← Real.log_inv, ← Real.log_pow,
        Real.log_le_log_iff (pow_pos (div_pos hz' hn') c) (inv_pos.2 two_pos)]
    _ ↔ -Real.log 2 / Real.log ((z : ℝ) / n) ≤ c := (div_le_iff_of_neg (log_ratio_neg hz hlt)).symm

theorem isLeastB_eq_ceil {b : Nat} (h : IsLeastB n z b) :
    (b : ℤ) = ⌈-Real.log 2 / Real.log ((z : ℝ) / n)⌉ := by
  have hpred : ¬ 2 * z ^ (b - 1) ≤ n ^ (b - 1) :=
    Nat.not_le.2 (pow_lt_of_isLeastB h (Nat.sub_lt h.1 Nat.one_pos))
  obtain ⟨hpos, hpow, -⟩ := h
  rw [two_mul_pow_le_iff_logRatio_le hz hlt, not_le, Nat.cast_pred hpos] at hpred
  rw [two_mul_pow_le_iff_logRatio_le hz hlt] at hpow
  exact (Int.ceil_eq_iff.2 ⟨hpred, hpow⟩).symm

/-- From `ln p <= p - 1 <= -1/N`. -/
theorem logRatio_le : -Real.log 2 / Real.log ((z : ℝ) / n) ≤ n * Real.log 2 := by
  have hz' : (0 : ℝ) < z := by exact_mod_cast hz
  have hn' : (0 : ℝ) < n := by exact_mod_cast hz.trans hlt
  have hsucc : (z : ℝ) + 1 ≤ n := by exact_mod_cast hlt
  have hlog : n * Real.log ((z : ℝ) / n) ≤ -1 := by
    calc n * Real.log ((z : ℝ) / n)
        ≤ n * ((z : ℝ) / n - 1) :=
          mul_le_mul_of_nonneg_left (Real.log_le_sub_one_of_pos (div_pos hz' hn')) hn'.le
      _ = z - n := by rw [mul_sub, mul_div_cancel₀ _ hn'.ne', mul_one]
      _ ≤ -1 := by linarith
  rw [div_le_iff_of_neg (log_ratio_neg hz hlt)]
  calc n * Real.log 2 * Real.log ((z : ℝ) / n)
      = Real.log 2 * (n * Real.log ((z : ℝ) / n)) := by ring
    _ ≤ Real.log 2 * -1 := mul_le_mul_of_nonneg_left hlog (Real.log_pos one_lt_two).le
    _ = -Real.log 2 := mul_neg_one _

end

/-- Settles O39: the least `b` is the ceiling of the bound that R152's inequality puts on the exponent. -/
theorem estimateIsTheCeilingOfTheLogRatio : Obligations.EstimateIsTheCeilingOfTheLogRatio := by
  intro src b z h
  obtain ⟨hz, hpos, hlt, hleast⟩ := estimateB_eq_ok_iff.1 h
  exact ⟨hz, isLeastB_eq_ceil hpos hlt hleast⟩

/-! ### The range of `b` (R154) -/

theorem isLeastB_le_bits {n z b : Nat} (hz : 0 < z) (hlt : z < n) (h : IsLeastB n z b) : b ≤ n :=
  isLeastB_le h (Nat.one_le_of_lt hlt) (Laws.two_mul_pow_le hlt hz)

theorem eight_mul_maxLen_lt {c : Config} (h : c.Wf) : 8 * c.maxLen < 2 ^ 28 := by
  obtain ⟨⟨-, hmax⟩, -⟩ := h
  omega

/-- Settles O40: the bounds of the least `b`, with those of R6. -/
theorem estimateIsInRange : Obligations.EstimateIsInRange := by
  intro src cfg b z hc hl h
  obtain ⟨-, hpos, hlt, hleast⟩ := estimateB_eq_ok_iff.1 h
  have hbits := isLeastB_le_bits hpos hlt hleast
  have hmax := eight_mul_maxLen_lt hc
  refine ⟨hleast.1, ?_, by omega, hmax, ?_, isLeastB_eq_one_iff hleast⟩
  · rw [isLeastB_eq_ceil hpos hlt hleast]
    exact Int.ceil_mono (logRatio_le hpos hlt)
  · rw [BitVec.toNat_ofNat]
    exact Nat.mod_eq_of_lt (by omega)

/-! ### The commands (R150, R153) -/

theorem exec_density {s : State} {src : List Byte} {b z : Nat} (h : HoldsBytes s src)
    (hl : src.length ≤ s.cfg.maxLen) (he : estimateB src = .ok (b, z)) :
    exec .density s = .next { s with bParam := BitVec.ofNat 32 b, zeroCount := BitVec.ofNat 32 z,
                                     status := succeeded, latch := none } := by
  obtain ⟨hsrc, hwritten⟩ := Laws.srcBytes_of_holds h
  obtain ⟨hlen, -⟩ := h
  have hfits : s.byteLenTooLarge = false := decide_eq_false (by omega)
  simp only [exec, execDensity, hfits, hsrc, hwritten, he, Bool.false_eq_true, if_false]
  rfl

/-- The commands that estimate end with the error that the estimate meets. -/
theorem exec_of_estimateError {s : State} {i : Instr} {src : List Byte} {e : ErrorCode}
    (hi : i = .density ∨ i = .golombEnc) (h : HoldsBytes s src) (hl : src.length ≤ s.cfg.maxLen)
    (he : estimateB src = .error e) : exec i s = .next (afterError s i e.code) := by
  obtain ⟨hsrc, hwritten⟩ := Laws.srcBytes_of_holds h
  obtain ⟨hlen, -⟩ := h
  have hfits : s.byteLenTooLarge = false := decide_eq_false (by omega)
  rcases hi with rfl | rfl
  · simp only [exec, execDensity, hfits, hsrc, hwritten, he, Bool.false_eq_true, if_false, raise_eq_afterError]
    rfl
  · simp only [exec, execGolombEnc, hfits, hsrc, hwritten, he, Bool.false_eq_true, if_false, raise_eq_afterError]
    rfl

/-- Settles O37: the command stores what the estimate finds, which is at most the number of bits. -/
theorem densityWritesTheLeastB : Obligations.DensityWritesTheLeastB := by
  intro s src hc h hl hpos hlt
  obtain ⟨hleast, -⟩ := Laws.leastB_spec hlt hpos
  have hbits := isLeastB_le_bits hpos hlt hleast
  have hmax := eight_mul_maxLen_lt hc
  exact ⟨_, hleast, by omega, exec_density h hl (estimateB_eq_ok_iff.2 ⟨rfl, hpos, hlt, hleast⟩)⟩

/-- Settles O38: the estimate reports each of R153's cases, and both commands end with its error. -/
theorem degenerateBuffersAreReported : Obligations.DegenerateBuffersAreReported := by
  intro s src h hl hdeg
  have hdeg' : 8 * src.length = 0 ∨ zeroBits src = 0 ∨ zeroBits src = 8 * src.length :=
    hdeg.imp_left fun hnil => by rw [hnil, List.length_nil]
  have he : estimateB src = .error .degenerateDensity := by rw [Laws.estimateB_eq, if_pos hdeg']
  exact ⟨exec_of_estimateError (.inl rfl) h hl he, exec_of_estimateError (.inr rfl) h hl he⟩

end Sys2Proof.Proofs
end

section
/-! PROOFS. GR_ENC (R160 to R165): the checks before the reads, the command on a written gap sequence by the outcome of
its packing, and the remainders for a `b` that is a power of two. -/

namespace Sys2Proof.Proofs

open Sys2Proof.Machine Sys2Proof.Claims

/-! ### The checks before the reads (R161) -/

theorem exec_grEnc_of_countTooLarge {s : State} (h : s.cfg.gapCap < s.gapCount.toNat) :
    exec .grEnc s = .next (afterError s .grEnc 2) := by
  have hlarge : s.gapCountTooLarge = true := decide_eq_true h
  simp only [exec, execGrEnc, hlarge, if_true, raise_eq_afterError]
  rfl

theorem exec_grEnc_of_bZero {s : State} (hfits : ¬ s.cfg.gapCap < s.gapCount.toNat) (h : s.bParam = 0) :
    exec .grEnc s = .next (afterError s .grEnc 5) := by
  have hsmall : s.gapCountTooLarge = false := decide_eq_false hfits
  have hb : s.b = 0 := (b_eq_zero_iff s).2 h
  simp only [exec, execGrEnc, hsmall, hb, Bool.false_eq_true, if_false, if_true, raise_eq_afterError]
  rfl

theorem exec_grEnc_of_countZero {s : State} (hb : s.bParam ≠ 0) (h : s.gapCount = 0) :
    exec .grEnc s = .next (afterError s .grEnc 4) := by
  have hsmall : s.gapCountTooLarge = false := decide_eq_false (by rw [h]; exact Nat.not_lt_zero _)
  have hb0 : s.b ≠ 0 := mt (b_eq_zero_iff s).1 hb
  simp only [exec, execGrEnc, hsmall, hb0, h, Bool.false_eq_true, if_false, if_true, raise_eq_afterError]
  rfl

/-! ### The command on a written gap sequence (R160, R163) -/

/-- Bits put into `PACKED` from the cursor `(0, 0)` on are written as bytes, the last one padded (R114). -/
theorem wrote_of_holds {w : Writer} {m0 : Mem 8} {bits : List Bool} (h : Laws.Holds w m0 bits) :
    Wrote w.mem m0 (packBits bits) := by
  obtain ⟨-, -, hread⟩ := h
  intro i
  rw [hread, Laws.getElem?_packBits]
  split <;> rfl

/-- The state in which GR_ENC ends from `s`, by the outcome of its packing (R160, R203). -/
def packingEnd (s : State) : Except ErrorCode Writer → State
  | .error e => afterError s .grEnc e.code
  | .ok w => (s.putPacked w.mem w.cur.finish.1 w.cur.finish.2).complete

/-- Past the checks, the command packs the sequence that `GAPS` holds. -/
theorem exec_grEnc {s : State} {g : List Nat} (h : HoldsGaps s g) (hcap : g.length ≤ s.cfg.gapCap) (hne : g ≠ [])
    (hb : s.bParam ≠ 0) :
    exec .grEnc s = .next (packingEnd s (grEncode s.cfg.packCap s.bParam.toNat g s.packed)) := by
  obtain ⟨hsrc, hwritten⟩ := Laws.srcGaps_of_holds h
  obtain ⟨hcount, -⟩ := h
  have hsmall : s.gapCountTooLarge = false := decide_eq_false (by omega)
  have hcount0 : s.gapCount ≠ 0 := fun h0 => hne (List.length_eq_zero_iff.1 (by rw [← hcount, h0]; rfl))
  have hb0 : s.b ≠ 0 := mt (b_eq_zero_iff s).1 hb
  simp only [exec, execGrEnc, hsmall, hb0, hcount0, hsrc, hwritten, Bool.false_eq_true, if_false]
  rw [State.b]
  cases grEncode s.cfg.packCap s.bParam.toNat g s.packed with
  | error e => exact congrArg Host.Outcome.next (raise_eq_afterError s .grEnc e)
  | ok w => rfl

/-- `PACK_BITS` and `PACK_LEN` count the bits that the packing has put (R114). -/
theorem packingEnd_of_holds {s : State} {w : Writer} {bits : List Bool} (h : Laws.Holds w s.packed bits) :
    packingEnd s (.ok w) =
      { s with packed := w.mem, packBits := BitVec.ofNat 32 bits.length,
               packLen := BitVec.ofNat 32 ((bits.length + 7) / 8), status := succeeded, latch := none } := by
  obtain ⟨hpos, hoff, -⟩ := h
  rw [packingEnd, Laws.finish_eq hoff, hpos]
  rfl

/-- Settles O41: the packing fits, and its writer holds the stream. -/
theorem grEncPacksTheSymbols : Obligations.GrEncPacksTheSymbols := by
  intro s g h hcap hne hpos hb bits hfits
  obtain ⟨w, hw, hholds⟩ := (Laws.grEncode_spec s.cfg.packCap s.bParam.toNat hpos s.packed).1 hfits
  exact ⟨w.mem, by rw [exec_grEnc h hcap hne hb, hw, packingEnd_of_holds hholds], wrote_of_holds hholds⟩

/-- Settles O42: each check before the reads raises its error, and the packing meets the first entry that is 0 or does
not fit. -/
theorem grEncChecksInOrder : Obligations.GrEncChecksInOrder := by
  intro s
  refine ⟨exec_grEnc_of_countTooLarge, exec_grEnc_of_bZero, exec_grEnc_of_countZero, ?_, ?_⟩
  · intro g g' hb hpos hcap h hfits
    rw [exec_grEnc h hcap (by simp) hb, Laws.grEncode_zero _ _ hpos _ hfits]
    rfl
  · intro g g' hb hpos hcap h hfull
    have hne : g ≠ [] := fun hnil => Nat.not_lt_zero _ (by rwa [hnil] at hfull)
    rw [exec_grEnc h hcap (List.append_ne_nil_of_left_ne_nil hne g') hb, Laws.grEncode_full _ _ hpos _ hfull]
    rfl

/-! ### Powers of two (R165) -/

/-- For `b = 2^k` R162's `d` is 0, so every remainder takes the long form, of `k` bits. -/
theorem remainderCode_two_pow (k : Nat) {r : Nat} (hr : 1 ≤ r) : remainderCode (2 ^ k) r = fieldBits k (r - 1) := by
  have hd : 2 ^ k - 2 ^ k < r := by omega
  rw [remainderCode, Nat.clog_pow 2 k (by omega), if_pos hd, Nat.sub_self, Nat.add_zero]

theorem symbolCode_two_pow (k : Nat) {v : Nat} (hv : 1 ≤ v) : symbolCode (2 ^ k) v =
    List.replicate ((v - 1) / 2 ^ k) true ++ [false] ++ fieldBits k ((v - 1) % 2 ^ k) := by
  obtain ⟨hr, -, hsum⟩ := Laws.quotient_remainder hv (Nat.two_pow_pos k)
  have hdiv := Nat.div_add_mod' (v - 1) (2 ^ k)
  have hmod : v - (v - 1) / 2 ^ k * 2 ^ k - 1 = (v - 1) % 2 ^ k := by omega
  rw [symbolCode, remainderCode_two_pow k hr, hmod]

theorem streamOf_two_pow (k : Nat) {g : List Nat} (hg : ∀ v ∈ g, 1 ≤ v) : streamOf (2 ^ k) g =
    g.flatMap fun v => List.replicate ((v - 1) / 2 ^ k) true ++ [false] ++ fieldBits k ((v - 1) % 2 ^ k) :=
  List.flatMap_congr fun v hv => symbolCode_two_pow k (hg v hv)

/-- Settles O43: the stream that GR_ENC packs is that of the `k`-bit remainders. -/
theorem powerOfTwoRemaindersAreFixedWidth : Obligations.PowerOfTwoRemaindersAreFixedWidth := by
  intro s g k h hcap hne hpos hk
  have hb : s.bParam ≠ 0 := fun h0 => (Nat.two_pow_pos k).ne (by rw [← hk, h0]; rfl)
  have hpacks := grEncPacksTheSymbols s g h hcap hne hpos hb
  rwa [hk, streamOf_two_pow k hpos] at hpacks

end Sys2Proof.Proofs
end

section
/-! PROOFS. What the Golomb-Rice decoder has read when it succeeds (R115 to R119, R172 to R175): each primitive has
passed the bits of what it returns, so the core has passed the stream of its output and stands at a pad; and every error
of the core is MalformedStream. -/

namespace Sys2Proof.Proofs

open Sys2Proof.Machine Sys2Proof.Claims

/-! ### Codes (R113, R162) -/

/-- The most significant bit of a field comes first. -/
theorem fieldBits_msb (n : Nat) (c : Bool) {x : Nat} (hx : x < 2 ^ n) :
    fieldBits (n + 1) (2 ^ n * c.toNat + x) = c :: fieldBits n x := by
  have hmsb : (2 ^ n * c.toNat + x).testBit n = c := by
    rw [Nat.testBit_two_pow_mul_add _ hx, if_neg (lt_irrefl n), Nat.sub_self]
    cases c <;> rfl
  rw [Laws.fieldBits_succ, hmsb, ← Laws.fieldBits_mod n (_ + x), Nat.mul_add_mod, Nat.mod_eq_of_lt hx]

/-- The least significant bit of a field comes last. -/
theorem fieldBits_lsb (n x : Nat) (c : Bool) : fieldBits (n + 1) (2 * x + c.toNat) = fieldBits n x ++ [c] := by
  induction n with
  | zero => cases c <;> simp [fieldBits]
  | succ n ih =>
    have hmsb : (2 * x + c.toNat).testBit (n + 1) = x.testBit n := by
      rw [Nat.testBit_succ]
      congr 1
      cases c <;> simp only [Bool.toNat_true, Bool.toNat_false] <;> omega
    rw [Laws.fieldBits_succ, ih, hmsb, Laws.fieldBits_succ n x, List.cons_append]

/-- The symbol of a value, by the quotient and remainder that the decoder reads. -/
theorem symbolCode_add {b q r : Nat} (hr : 1 ≤ r) (hrb : r ≤ b) :
    symbolCode b (r + q * b) = List.replicate q true ++ [false] ++ remainderCode b r := by
  have hq : (r + q * b - 1) / b = q := Nat.div_eq_of_lt_le (by omega) (by rw [Nat.add_one_mul]; omega)
  rw [symbolCode, hq, Nat.add_sub_cancel]

/-! ### The bits a read has passed -/

section
variable {src : List Byte} {lim : Nat} {c c' c₁ : Cursor}

/-- The bits `bits` stand ahead of the cursor `c`, and `c'` is a cursor after the last of them. -/
structure Passed (src : List Byte) (lim : Nat) (c : Cursor) (bits : List Bool) (c' : Cursor) : Prop where
  ahead : Laws.Ahead src lim c bits
  off : c'.bitOff < 8
  pos : c'.pos = c.pos + bits.length

/-- After the bits, the cursor is again one below or at the limit. -/
theorem Passed.next {bits : List Bool} (h : Passed src lim c bits c') : Laws.Ahead src lim c' [] := by
  obtain ⟨⟨-, hlim, -⟩, hoff, hpos⟩ := h
  exact ⟨hoff, by rw [List.length_nil]; omega, fun t ht => absurd ht (Nat.not_lt_zero t)⟩

theorem passed_nil (hc : Laws.Ahead src lim c []) : Passed src lim c [] c := ⟨hc, hc.1, rfl⟩

theorem Passed.append {as bs : List Bool} (ha : Passed src lim c as c₁) (hb : Passed src lim c₁ bs c') :
    Passed src lim c (as ++ bs) c' := by
  obtain ⟨⟨hoff, -, has⟩, -, hpos₁⟩ := ha
  obtain ⟨⟨-, hlim, hbs⟩, hoff', hpos⟩ := hb
  refine ⟨⟨hoff, by rw [List.length_append]; omega, fun t ht => ?_⟩, hoff', by rw [List.length_append]; omega⟩
  rw [List.length_append] at ht
  rcases Nat.lt_or_ge t as.length with hlt | hge
  · rw [List.getElem?_append_left hlt, has t hlt]
  · rw [List.getElem?_append_right hge, hbs _ (by omega), hpos₁]
    congr 2
    omega

variable (hc : Laws.Ahead src lim c [])
include hc

theorem getBit_passed {x : Bool} (h : getBit src lim c = .ok (x, c')) : Passed src lim c [x] c' := by
  obtain ⟨hoff, -⟩ := hc
  obtain ⟨hpos, hoff'⟩ := Laws.advance_pos hoff
  rw [Laws.getBit_eq src lim hoff] at h
  split_ifs at h with hl
  cases h
  refine ⟨⟨hoff, by rw [List.length_singleton]; omega, fun t ht => ?_⟩, hoff', hpos⟩
  obtain rfl : t = 0 := by rw [List.length_singleton] at ht; omega
  rfl

/-- `GetBits` continued from `y` has passed the field of what it appends to `y` (R116). -/
theorem getBitsFrom_passed {y n x : Nat} (h : getBitsFrom src lim y n c = .ok (x, c')) :
    ∃ z < 2 ^ n, x = y * 2 ^ n + z ∧ Passed src lim c (fieldBits n z) c' := by
  induction n generalizing y c with
  | zero =>
    cases h
    exact ⟨0, Nat.one_pos, by simp, passed_nil hc⟩
  | succ n ih =>
    rw [getBitsFrom] at h
    split at h
    · cases h
    next t c₁ ht =>
      have hbit := getBit_passed hc ht
      obtain ⟨z, hz, rfl, hpass⟩ := ih hbit.next h
      refine ⟨2 ^ n * t.toNat + z, ?_, by ring, ?_⟩
      · have := Nat.mul_le_mul_left (2 ^ n) (Bool.toNat_le t)
        rw [pow_succ]
        omega
      · rw [fieldBits_msb n t hz]
        exact hbit.append hpass

theorem getBits_passed {n x : Nat} (h : getBits src lim n c = .ok (x, c')) :
    x < 2 ^ n ∧ Passed src lim c (fieldBits n x) c' := by
  obtain ⟨z, hz, rfl, hpass⟩ := getBitsFrom_passed hc h
  rw [Nat.zero_mul, Nat.zero_add]
  exact ⟨hz, hpass⟩

/-- `GetUnary` continued from `p` has passed a 1 for each count beyond `p`, and a 0 (R117). -/
theorem getUnaryFrom_passed {fuel p q : Nat} (h : getUnaryFrom src lim fuel p c = .ok (q, c')) :
    ∃ n, q = p + n ∧ Passed src lim c (List.replicate n true ++ [false]) c' := by
  induction fuel generalizing p c with
  | zero => cases h
  | succ fuel ih =>
    rw [getUnaryFrom] at h
    split at h
    · cases h
    next c₁ ht =>
      have hbit := getBit_passed hc ht
      obtain ⟨n, rfl, hpass⟩ := ih hbit.next h
      exact ⟨n + 1, by omega, hbit.append hpass⟩
    next c₁ ht =>
      cases h
      exact ⟨0, rfl, getBit_passed hc ht⟩

theorem getUnary_passed {q : Nat} (h : getUnary src lim c = .ok (q, c')) :
    Passed src lim c (List.replicate q true ++ [false]) c' := by
  obtain ⟨n, rfl, hpass⟩ := getUnaryFrom_passed hc h
  rwa [Nat.zero_add]

/-- `DecodeSymbol` has passed the symbol of its value (R173). By the form of the remainder it has read: none for
`b = 1`, else the long or the short one of R162. -/
theorem decodeSymbol_passed {b v : Nat} (hb : 1 ≤ b) (h : decodeSymbol src lim b c = .ok (v, c')) :
    Passed src lim c (symbolCode b v) c' := by
  obtain ⟨hle, hlong, hone⟩ := Laws.clog_bounds hb
  simp only [decodeSymbol, Laws.ceilLog2_eq_clog] at h
  split at h
  · cases h
  next q c₁ hq =>
    have hunary := getUnary_passed hc hq
    split_ifs at h with hk
    · cases h
      obtain rfl := hone hk
      rw [symbolCode_add le_rfl le_rfl]
      exact hunary.append (passed_nil hunary.next)
    obtain ⟨hpow, hlow⟩ := hlong hk
    split at h
    · cases h
    next x c₂ hx =>
      obtain ⟨hx, hfield⟩ := getBits_passed hunary.next hx
      split_ifs at h with hd
      · split at h
        · cases h
        next t c₃ ht =>
          cases h
          have ht1 := Bool.toNat_le t
          have hcode : remainderCode b (2 * x + t.toNat - (2 ^ Nat.clog 2 b - b) + 1) =
              fieldBits (Nat.clog 2 b - 1) x ++ [t] := by
            rw [← fieldBits_lsb, Nat.sub_add_cancel (Nat.pos_of_ne_zero hk), remainderCode, if_pos (by omega)]
            congr 1
            omega
          rw [symbolCode_add (by omega) (by omega), hcode]
          exact hunary.append (hfield.append (getBit_passed hfield.next ht))
      · cases h
        have hcode : remainderCode b (x + 1) = fieldBits (Nat.clog 2 b - 1) x := by
          rw [remainderCode, if_neg hd, Nat.add_sub_cancel]
        rw [symbolCode_add (by omega) (by omega), hcode]
        exact hunary.append hfield

/-- The loop of R173 has passed the symbols of its output, and ends at a pad (R172). -/
theorem decodeSymbols_passed {b smax fuel sum : Nat} {out : List Nat} (hb : 1 ≤ b)
    (h : decodeSymbols src lim b smax fuel sum c = .ok out) :
    ∃ c', Passed src lim c (streamOf b out) c' ∧ restIsPad src lim c' = true := by
  induction fuel generalizing sum c out with
  | zero => cases h
  | succ fuel ih =>
    simp only [decodeSymbols] at h
    split_ifs at h with hstop
    · cases h
      exact ⟨c, passed_nil hc, hstop.1⟩
    split at h
    · cases h
    next v c₁ hv =>
      split_ifs at h
      split at h
      · cases h
      next out hout =>
        cases h
        have hsymbol := decodeSymbol_passed hc hb hv
        obtain ⟨c', hpass, hpad⟩ := ih hsymbol.next hout
        exact ⟨c', hsymbol.append hpass, hpad⟩

end

/-! ### The streams that the core accepts (R172, R175) -/

/-- Bytes with the bits of a list, and zeros after them in the last byte, are its packing (R114). -/
theorem eq_packBits {src : List Byte} {bits : List Bool} (hlen : src.length = (bits.length + 7) / 8)
    (hbits : ∀ t < 8 * src.length, streamBit src t = bits.getD t false) : src = packBits bits := by
  refine List.ext_getElem (by rw [hlen, Laws.length_packBits]) fun i hi hi' => Laws.byte_ext fun j hj => ?_
  have hstream := hbits (8 * i + j) (by omega)
  have hbyte : (8 * i + j) / 8 = i := by omega
  have hoff : (8 * i + j) % 8 = j := by omega
  rw [← Laws.streamBit_packBits] at hstream
  simpa only [streamBit, hbyte, hoff, List.getD_eq_getElem _ _ hi, List.getD_eq_getElem _ _ hi'] using hstream

/-- Bytes whose bits have been passed up to a pad are the packing of those bits (R119). -/
theorem eq_packBits_of_passed {src : List Byte} {bits : List Bool} {c' : Cursor}
    (h : Passed src (8 * src.length) Cursor.start bits c') (hpad : restIsPad src (8 * src.length) c' = true) :
    src = packBits bits := by
  obtain ⟨⟨-, hlim, hbits⟩, -, hpos⟩ := h
  simp only [restIsPad, Bool.and_eq_true, decide_eq_true_eq, List.all_eq_true, List.mem_range,
    Bool.not_eq_true'] at hpad
  obtain ⟨hshort, hzero⟩ := hpad
  simp only [show Cursor.start.pos = 0 from rfl, Nat.zero_add] at hlim hbits hpos
  refine eq_packBits (by omega) fun t ht => ?_
  rw [List.getD_eq_getElem?_getD]
  rcases Nat.lt_or_ge t bits.length with hlt | hge
  · rw [hbits t hlt, Option.getD_some]
  · have hrest := hzero (t - c'.pos) (by omega)
    rw [Nat.add_sub_cancel' (by omega)] at hrest
    rw [hrest, List.getElem?_eq_none hge, Option.getD_none]

/-- `GrDecodeCore` accepts exactly the padded symbols of the sequences that R172 and R175 allow. -/
theorem grDecodeCore_eq_ok_iff {maxLen b : Nat} {src : List Byte} {g : List Nat} (hb : 1 ≤ b) :
    grDecodeCore maxLen b src = .ok g ↔
      src = packBits (streamOf b g) ∧ (∀ v ∈ g, 1 ≤ v) ∧ g.sum % 8 = 0 ∧ g.sum ≤ 8 * (maxLen + 1) := by
  constructor
  · intro h
    have hstart : Laws.Ahead src (8 * src.length) Cursor.start [] :=
      ⟨Nat.zero_lt_succ 7, Nat.zero_le _, fun t ht => absurd ht (Nat.not_lt_zero t)⟩
    obtain ⟨c', hpass, hpad⟩ := decodeSymbols_passed hstart hb h
    obtain ⟨hpos, hsum, hmod⟩ := Laws.grDecodeCore_bounds h
    exact ⟨eq_packBits_of_passed hpass hpad, hpos, hmod, hsum⟩
  · rintro ⟨rfl, hpos, hmod, hsum⟩
    exact Laws.grDecodeCore_stream maxLen hb hpos hmod hsum

/-! ### The error of the core (R115, R173, R175) -/

section
variable {src : List Byte} {lim : Nat} {c : Cursor} {e : ErrorCode}

theorem getBit_error (h : getBit src lim c = .error e) : e = .malformedStream := by
  rw [getBit] at h
  split_ifs at h
  cases h
  rfl

theorem getBitsFrom_error {y n : Nat} (h : getBitsFrom src lim y n c = .error e) : e = .malformedStream := by
  induction n generalizing y c with
  | zero => cases h
  | succ n ih =>
    rw [getBitsFrom] at h
    split at h
    next ht => cases h; exact getBit_error ht
    next => exact ih h

theorem getUnaryFrom_error {fuel p : Nat} (h : getUnaryFrom src lim fuel p c = .error e) : e = .malformedStream := by
  induction fuel generalizing p c with
  | zero => cases h; rfl
  | succ fuel ih =>
    rw [getUnaryFrom] at h
    split at h
    next ht => cases h; exact getBit_error ht
    next => exact ih h
    next => cases h

theorem decodeSymbol_error {b : Nat} (h : decodeSymbol src lim b c = .error e) : e = .malformedStream := by
  simp only [decodeSymbol] at h
  split at h
  next hq => cases h; exact getUnaryFrom_error hq
  next =>
    split_ifs at h
    split at h
    next hx => cases h; exact getBitsFrom_error hx
    next =>
      split_ifs at h
      split at h
      next ht => cases h; exact getBit_error ht
      next => cases h

theorem decodeSymbols_error {b smax fuel sum : Nat} (h : decodeSymbols src lim b smax fuel sum c = .error e) :
    e = .malformedStream := by
  induction fuel generalizing sum c with
  | zero => cases h; rfl
  | succ fuel ih =>
    simp only [decodeSymbols] at h
    split_ifs at h
    split at h
    next hv => cases h; exact decodeSymbol_error hv
    next =>
      split_ifs at h
      · cases h; rfl
      split at h
      next hout => cases h; exact ih hout
      next => cases h

/-- `GrDecodeCore` accepts a stream or ends with MalformedStream. -/
theorem grDecodeCore_ok_or_malformed (maxLen b : Nat) (src : List Byte) :
    (∃ g, grDecodeCore maxLen b src = .ok g) ∨ grDecodeCore maxLen b src = .error .malformedStream := by
  cases h : grDecodeCore maxLen b src with
  | error e => exact .inr (by rw [decodeSymbols_error h])
  | ok g => exact .inl ⟨g, rfl⟩

end

end Sys2Proof.Proofs
end

section
/-! PROOFS. GR_DEC (R170 to R177): the checks that both decoders make before they read, the command on a packed stream
by the outcome of its core, the bounds on what a success writes, and the round trip with GR_ENC. -/

namespace Sys2Proof.Proofs

open Sys2Proof.Machine Sys2Proof.Claims

/-! ### The checks before the reads (R171) -/

section
variable {s : State} {i : Instr} (hi : i = .grDec ∨ i = .golombDec)
include hi

theorem exec_decoder_of_lenTooLarge (h : s.cfg.packCap < s.packLen.toNat) :
    exec i s = .next (afterError s i 2) := by
  have hlarge : s.packLenTooLarge = true := decide_eq_true h
  rcases hi with rfl | rfl <;> simp only [exec, execGrDec, execGolombDec, hlarge, if_true, raise_eq_afterError] <;> rfl

theorem exec_decoder_of_bZero (hfits : ¬ s.cfg.packCap < s.packLen.toNat) (h : s.bParam = 0) :
    exec i s = .next (afterError s i 5) := by
  have hsmall : s.packLenTooLarge = false := decide_eq_false hfits
  have hb : s.b = 0 := (b_eq_zero_iff s).2 h
  rcases hi with rfl | rfl <;>
    simp only [exec, execGrDec, execGolombDec, hsmall, hb, Bool.false_eq_true, if_false, if_true,
      raise_eq_afterError] <;> rfl

theorem exec_decoder_of_lenZero (hb : s.bParam ≠ 0) (h : s.packLen = 0) :
    exec i s = .next (afterError s i 4) := by
  have hsmall : s.packLenTooLarge = false := decide_eq_false (by rw [h]; exact Nat.not_lt_zero _)
  have hb0 : s.b ≠ 0 := mt (b_eq_zero_iff s).1 hb
  rcases hi with rfl | rfl <;>
    simp only [exec, execGrDec, execGolombDec, hsmall, hb0, h, Bool.false_eq_true, if_false, if_true,
      raise_eq_afterError] <;> rfl

end

/-- Settles O45: each check raises its error from the state as it is. -/
theorem decodersCheckInOrder : Obligations.DecodersCheckInOrder :=
  fun _ _ hi => ⟨exec_decoder_of_lenTooLarge hi, exec_decoder_of_bZero hi, exec_decoder_of_lenZero hi⟩

/-! ### The command on a packed stream (R170, R172 to R175) -/

theorem packBits_stream_ne_nil (b : Nat) {g : List Nat} (hne : g ≠ []) : packBits (streamOf b g) ≠ [] := by
  obtain ⟨v, g, rfl⟩ := List.exists_cons_of_ne_nil hne
  have hsymbol := Laws.length_symbolCode_pos b v
  refine List.ne_nil_of_length_pos ?_
  rw [Laws.length_packBits, Laws.streamOf_cons, List.length_append]
  omega

/-- GR_DEC stores the sequence whose padded symbols `PACKED` holds: past the checks, the core accepts them. -/
theorem exec_grDec_stream {s : State} {g : List Nat} (hne : g ≠ []) (hpos : ∀ v ∈ g, 1 ≤ v) (hmod : g.sum % 8 = 0)
    (hsum : g.sum ≤ 8 * (s.cfg.maxLen + 1)) (hb : s.bParam ≠ 0)
    (hps : HoldsPacked s (packBits (streamOf s.bParam.toNat g)))
    (hcap : (packBits (streamOf s.bParam.toNat g)).length ≤ s.cfg.packCap) :
    exec .grDec s = .next { s with gaps := Mem.writeList s.gaps 0 (words g), gapCount := BitVec.ofNat 32 g.length,
                                   status := succeeded, latch := none } := by
  have hb0 : s.b ≠ 0 := mt (b_eq_zero_iff s).1 hb
  have hcore := (grDecodeCore_eq_ok_iff (Nat.pos_of_ne_zero hb0)).2 ⟨rfl, hpos, hmod, hsum⟩
  obtain ⟨hsrc, hwritten⟩ := Laws.srcPacked_of_holds hps
  obtain ⟨hlen, -⟩ := hps
  have hsmall : s.packLenTooLarge = false := decide_eq_false (by omega)
  have hlen0 : s.packLen ≠ 0 := fun h0 =>
    packBits_stream_ne_nil _ hne (List.length_eq_zero_iff.1 (by rw [← hlen, h0]; rfl))
  simp only [exec, execGrDec, hsmall, hb0, hlen0, hsrc, hwritten, Bool.false_eq_true, if_false]
  rw [← State.b, hcore]
  rfl

/-- Settles O46: the core accepts the stream, and its output is stored. -/
theorem grDecReadsTheSymbolsBack : Obligations.GrDecReadsTheSymbolsBack := by
  intro s g hne hpos hmod hsum hb ps hps hcap
  exact ⟨_, exec_grDec_stream hne hpos hmod hsum hb hps hcap, Laws.wrote_writeList _ _⟩

/-- Settles O47: a stream that the core accepts is one that the statement rules out, and its one error is
MalformedStream. The empty stream is rejected by R171. -/
theorem grDecRejectsEveryOtherStream : Obligations.GrDecRejectsEveryOtherStream := by
  intro s ps hps hcap hb hother
  by_cases hne : ps = []
  · subst hne
    exact exec_decoder_of_lenZero (.inl rfl) hb (BitVec.eq_of_toNat_eq hps.1)
  have hb1 : 1 ≤ s.b := Nat.pos_of_ne_zero (mt (b_eq_zero_iff s).1 hb)
  obtain ⟨g, hg⟩ | herr := grDecodeCore_ok_or_malformed s.cfg.maxLen s.b ps
  · obtain ⟨hstream, hpos, hmod, hsum⟩ := (grDecodeCore_eq_ok_iff hb1).1 hg
    have hgne : g ≠ [] := fun h0 => hne (by simp [hstream, h0, streamOf, packBits])
    exact (hother ⟨g, hgne, hpos, hmod, hsum, hstream⟩).elim
  · exact exec_decoder_of_coreError (.inl rfl) hps hcap hne hb herr

/-! ### The bounds on the output (R172, R175, R176) -/

/-- A GR_DEC that succeeds has stored what its core has decoded from the bytes read, written or not. -/
theorem exec_grDec_succeeded {s t : State} (h : exec .grDec s = .next t) (he : t.status.err = false) :
    ∃ ok g, grDecodeCore s.cfg.maxLen s.b s.srcPacked = .ok g ∧
      t = ((s.noteReads ok).putGaps (Mem.writeList (s.noteReads ok).gaps 0 (words g)) g.length).complete := by
  simp only [exec, execGrDec] at h
  split_ifs at h
  any_goals exact (raise_not_succeeded h he).elim
  split at h
  · exact (raise_not_succeeded h he).elim
  next g hg =>
    cases h
    exact ⟨_, g, hg, rfl⟩

/-- R176: a sequence within R175's bound fits `GAP_COUNT` and its entries fit 32 bits. -/
theorem holdsGaps_of_bounded {s : State} {cfg : Config} {g : List Nat} {m0 : Mem 32} (hc : cfg.Wf)
    (hpos : ∀ v ∈ g, 1 ≤ v) (hsum : g.sum ≤ 8 * (cfg.maxLen + 1)) (hcount : s.gapCount = BitVec.ofNat 32 g.length)
    (h : Wrote s.gaps m0 (words g)) : HoldsGaps s g := by
  have hlen := Laws.length_le_sum hpos
  obtain ⟨⟨-, hmax⟩, -⟩ := hc
  refine holdsGaps_of_wrote hcount (by omega) (fun v hv => ?_) h
  have := Laws.le_sum_of_mem hv
  omega

/-- Settles O48: the bounds of the core's output, which is what a success stores. -/
theorem grDecOutputIsBounded : Obligations.GrDecOutputIsBounded := by
  intro s t hc h he
  obtain ⟨ok, g, hg, rfl⟩ := exec_grDec_succeeded h he
  obtain ⟨hpos, hsum, hmod⟩ := Laws.grDecodeCore_bounds hg
  have hmax : s.cfg.maxLen ≤ 2 ^ 25 - 1 := hc.1.2
  exact ⟨g, holdsGaps_of_bounded hc hpos hsum rfl (Laws.wrote_writeList _ _),
    fun v hv => ⟨hpos v hv, Laws.le_sum_of_mem hv⟩, hsum, by omega, Laws.length_le_sum hpos, grDecodeCore_length_le hg,
    hmod⟩

/-! ### The round trip (R177) -/

theorem holdsPacked_of_wrote {s : State} {ps : List Byte} {m0 : Mem 8} (hlen : s.packLen = BitVec.ofNat 32 ps.length)
    (hlt : ps.length < 2 ^ 32) (h : Wrote s.packed m0 ps) : HoldsPacked s ps :=
  ⟨by rw [hlen, BitVec.toNat_ofNat, Nat.mod_eq_of_lt hlt], read_of_wrote h⟩

/-- A GR_ENC that succeeds on a sequence with no 0 has passed its checks, and its packing has written the stream. -/
theorem exec_grEnc_succeeded {s t : State} {g : List Nat} (h : HoldsGaps s g) (hcap : g.length ≤ s.cfg.gapCap)
    (hpos : ∀ v ∈ g, 1 ≤ v) (hexec : exec .grEnc s = .next t) (he : t.status.err = false) :
    g ≠ [] ∧ s.bParam ≠ 0 ∧ (streamOf s.bParam.toNat g).length ≤ 8 * s.cfg.packCap ∧
      ∃ m, t = { s with packed := m, packBits := BitVec.ofNat 32 (streamOf s.bParam.toNat g).length,
                        packLen := BitVec.ofNat 32 (((streamOf s.bParam.toNat g).length + 7) / 8),
                        status := succeeded, latch := none } ∧
        Wrote m s.packed (packBits (streamOf s.bParam.toNat g)) := by
  obtain ⟨-, hbZero, hcountZero, -, hfull⟩ := grEncChecksInOrder s
  have not_error {c : BitVec 4} (herr : exec .grEnc s = .next (afterError s .grEnc c)) : False := by
    cases hexec.symm.trans herr
    cases he
  have hfits : ¬ s.cfg.gapCap < s.gapCount.toNat := by rw [h.1]; omega
  have hb : s.bParam ≠ 0 := fun h0 => not_error (hbZero hfits h0)
  have hne : g ≠ [] := fun h0 => not_error (hcountZero hb (BitVec.eq_of_toNat_eq (by rw [h.1, h0]; rfl)))
  have hlen : (streamOf s.bParam.toNat g).length ≤ 8 * s.cfg.packCap := by
    by_contra hlt
    exact not_error (hfull g [] hb hpos (by rwa [List.append_nil]) (by rwa [List.append_nil]) (by omega))
  obtain ⟨m, hm, hwrote⟩ := grEncPacksTheSymbols s g h hcap hne hpos hb hlen
  cases hexec.symm.trans hm
  exact ⟨hne, hb, hlen, m, rfl, hwrote⟩

/-- Settles O49: GR_ENC leaves `PACKED` holding the stream of `g`, which GR_DEC reads back. -/
theorem golombRiceRoundTrip : Obligations.GolombRiceRoundTrip := by
  intro s t g m0 x hc h hpos hmod hsum hexec he
  have hcap : g.length ≤ s.cfg.gapCap := by
    have := Laws.length_le_sum hpos
    rw [Config.gapCap]
    omega
  obtain ⟨hne, hb, hfits, m, rfl, hwrote⟩ := exec_grEnc_succeeded h hcap hpos hexec he
  obtain ⟨-, -, hpackCap⟩ := capacities_lt hc
  have hbytes : (packBits (streamOf s.bParam.toNat g)).length ≤ s.cfg.packCap := by
    rw [Laws.length_packBits]
    omega
  refine ⟨_, exec_grDec_stream hne hpos hmod hsum hb ?_ hbytes, rfl, ?_⟩
  · exact holdsPacked_of_wrote (by rw [Laws.length_packBits]) (hbytes.trans_lt hpackCap) hwrote
  · exact holdsGaps_of_bounded hc hpos hsum rfl (Laws.wrote_writeList _ _)

end Sys2Proof.Proofs
end

section
/-! PROOFS. GOLOMB_ENC (R180, R183): the command on a written byte buffer by the outcome of its packing, and the three
commands that it runs in turn (R185). -/

namespace Sys2Proof.Proofs

open Sys2Proof.Machine Sys2Proof.Claims

/-! ### The command on a byte buffer with an estimate -/

/-- The state that DENSITY and RLE_ENC leave in turn, where the estimate is `(b, z)` and the gap sequence is `g`. -/
def beforePacking (s : State) (b z : Nat) (g : List Nat) : State :=
  { s with bParam := BitVec.ofNat 32 b, zeroCount := BitVec.ofNat 32 z, gaps := Mem.writeList s.gaps 0 (words g),
           gapCount := BitVec.ofNat 32 g.length, status := succeeded, latch := none }

/-- The state in which GOLOMB_ENC ends from `s`, by the outcome of its packing: an error clears the destinations of the
whole command (R203), a success leaves what GR_ENC leaves of its stage. -/
def compressionEnd (s : State) (b z : Nat) (g : List Nat) : Except ErrorCode Writer → State
  | .error e => afterError s .golombEnc e.code
  | .ok w => packingEnd (beforePacking s b z g) (.ok w)

section
variable {s : State} {src : List Byte} {b z : Nat} (h : HoldsBytes s src) (hl : src.length ≤ s.cfg.maxLen)
  (he : estimateB src = .ok (b, z))
include h hl he

theorem exec_golombEnc : exec .golombEnc s =
    .next (compressionEnd s b z (gapsOf src) (grEncode s.cfg.packCap b (gapsOf src) s.packed)) := by
  obtain ⟨hsrc, hwritten⟩ := Laws.srcBytes_of_holds h
  obtain ⟨hlen, -⟩ := h
  have hfits : s.byteLenTooLarge = false := decide_eq_false (by omega)
  simp only [exec, execGolombEnc, hfits, hsrc, hwritten, he, Laws.rleEncode_eq_gapsOf, Bool.false_eq_true, if_false]
  cases grEncode s.cfg.packCap b (gapsOf src) s.packed with
  | error e => exact congrArg Host.Outcome.next (raise_eq_afterError s .golombEnc e)
  | ok w => rfl

theorem exec_golombEnc_of_fits (hfits : (streamOf b (gapsOf src)).length ≤ 8 * s.cfg.packCap) :
    ∃ w, Laws.Holds w s.packed (streamOf b (gapsOf src)) ∧
      exec .golombEnc s = .next (packingEnd (beforePacking s b z (gapsOf src)) (.ok w)) := by
  obtain ⟨w, hw, hholds⟩ := (Laws.grEncode_spec _ b (Laws.gapsOf_pos src) s.packed).1 hfits
  exact ⟨w, hholds, by rw [exec_golombEnc h hl he, hw, compressionEnd]⟩

theorem exec_golombEnc_of_full (hfull : 8 * s.cfg.packCap < (streamOf b (gapsOf src)).length) :
    exec .golombEnc s = .next (afterError s .golombEnc 1) := by
  rw [exec_golombEnc h hl he, (Laws.grEncode_spec _ b (Laws.gapsOf_pos src) s.packed).2 hfull]
  rfl

end

/-- Settles O51: the estimate is R152's, and the packing of the gap sequence fits or does not. -/
theorem golombEncCompresses : Obligations.GolombEncCompresses := by
  intro s src hc h hl hpos hlt
  obtain ⟨hleast, -⟩ := Laws.leastB_spec hlt hpos
  have he := estimateB_eq_ok_iff.2 ⟨rfl, hpos, hlt, hleast⟩
  refine ⟨_, hleast, fun hfits => ?_, exec_golombEnc_of_full h hl he⟩
  obtain ⟨w, hholds, hexec⟩ := exec_golombEnc_of_fits h hl he hfits
  rw [packingEnd_of_holds (s := beforePacking s _ _ _) hholds] at hexec
  exact ⟨_, w.mem, hexec, Laws.wrote_writeList _ _, wrote_of_holds hholds⟩

/-! ### The three stages (R185) -/

/-- Where DENSITY fails, GOLOMB_ENC fails with the same code; elsewhere the buffer is within the bound and has an
estimate. -/
theorem densityFails_or_estimates {s : State} {src : List Byte} (h : HoldsBytes s src) :
    (∃ c, exec .density s = .next (afterError s .density c) ∧ exec .golombEnc s = .next (afterError s .golombEnc c)) ∨
      src.length ≤ s.cfg.maxLen ∧ ∃ b z, estimateB src = .ok (b, z) := by
  rcases Nat.lt_or_ge s.cfg.maxLen src.length with hlarge | hl
  · obtain ⟨-, hdensity, hgolomb⟩ := byteLengthOverTheBoundIsRejected s (by rwa [h.1])
    exact .inl ⟨2, hdensity, hgolomb⟩
  · cases he : estimateB src with
    | error e => exact .inl ⟨e.code, exec_of_estimateError (.inl rfl) h hl he, exec_of_estimateError (.inr rfl) h hl he⟩
    | ok bz => exact .inr ⟨hl, bz.1, bz.2, rfl⟩

/-- The run-length stage leaves its gap sequence in `GAPS`, ready for the packing (R176, R183). -/
theorem holdsGaps_beforePacking {s : State} {src : List Byte} (hc : s.cfg.Wf) (hl : src.length ≤ s.cfg.maxLen)
    (b z : Nat) : HoldsGaps (beforePacking s b z (gapsOf src)) (gapsOf src) :=
  holdsGaps_of_bounded hc (Laws.gapsOf_pos src) (by rw [Laws.sum_gapsOf]; omega) rfl (Laws.wrote_writeList _ _)

/-- A successful estimate is in `B_PARAM` as it is, and is no 0 (R154). -/
theorem toNat_estimate {cfg : Config} {src : List Byte} {b z : Nat} (hc : cfg.Wf) (hl : src.length ≤ cfg.maxLen)
    (he : estimateB src = .ok (b, z)) : (BitVec.ofNat 32 b).toNat = b ∧ BitVec.ofNat 32 b ≠ 0 := by
  obtain ⟨hpos, -, -, -, hreg, -⟩ := estimateIsInRange src cfg b z hc hl he
  exact ⟨hreg, fun h0 => Nat.ne_of_lt hpos (by rwa [h0] at hreg)⟩

/-- GR_ENC as GOLOMB_ENC's last stage packs with the estimate. -/
theorem exec_grEnc_beforePacking {s : State} {src : List Byte} {b z : Nat} (hc : s.cfg.Wf)
    (hl : src.length ≤ s.cfg.maxLen) (he : estimateB src = .ok (b, z)) :
    exec .grEnc (beforePacking s b z (gapsOf src)) = .next
      (packingEnd (beforePacking s b z (gapsOf src)) (grEncode s.cfg.packCap b (gapsOf src) s.packed)) := by
  obtain ⟨hreg, hb⟩ := toNat_estimate hc hl he
  have hcap : (gapsOf src).length ≤ s.cfg.gapCap := Laws.rleEncode_eq_gapsOf src ▸ length_rleEncode_le hl
  rw [exec_grEnc (holdsGaps_beforePacking hc hl b z) hcap (decodable_gapsOf hl).1 hb]
  simp only [beforePacking, hreg]

/-- Settles O54. Where DENSITY fails, so does GOLOMB_ENC; elsewhere DENSITY and RLE_ENC succeed, and the outcome of the
packing is that of both runs. -/
theorem golombEncIsItsThreeStages : Obligations.GolombEncIsItsThreeStages := by
  intro s src hc h
  obtain ⟨c, hdensity, hgolomb⟩ | ⟨hl, b, z, he⟩ := densityFails_or_estimates h
  · obtain ⟨s2, -, hrle, -⟩ := Laws.exec_ends .rleEnc (afterError s .density c)
    obtain ⟨s3, -, hgr, -⟩ := Laws.exec_ends .grEnc s2
    exact ⟨_, _, s2, s3, hgolomb, hdensity, hrle, hgr, nofun, fun _ => .inl ⟨rfl, rfl⟩⟩
  · refine ⟨_, _, beforePacking s b z (gapsOf src), _, exec_golombEnc h hl he, exec_density h hl he,
      exec_rleEnc h hl, exec_grEnc_beforePacking hc hl he, ?_⟩
    cases grEncode s.cfg.packCap b (gapsOf src) s.packed with
    | error e => exact ⟨nofun, fun _ => .inr ⟨rfl, rfl, rfl, rfl⟩⟩
    | ok w => exact ⟨fun _ => ⟨rfl, rfl, rfl⟩, nofun⟩

/-- A GOLOMB_ENC that succeeds has found an estimate, and its packing holds the stream of the gap sequence. -/
theorem exec_golombEnc_succeeded {s t : State} {src : List Byte} (h : HoldsBytes s src)
    (hexec : exec .golombEnc s = .next t) (hok : t.status.err = false) :
    src.length ≤ s.cfg.maxLen ∧ ∃ b z w, estimateB src = .ok (b, z) ∧
      (streamOf b (gapsOf src)).length ≤ 8 * s.cfg.packCap ∧ Laws.Holds w s.packed (streamOf b (gapsOf src)) ∧
      t = packingEnd (beforePacking s b z (gapsOf src)) (.ok w) := by
  have not_error {c : BitVec 4} (herr : exec .golombEnc s = .next (afterError s .golombEnc c)) : False := by
    cases hexec.symm.trans herr
    cases hok
  obtain ⟨c, -, hgolomb⟩ | ⟨hl, b, z, he⟩ := densityFails_or_estimates h
  · exact (not_error hgolomb).elim
  · have hfits : (streamOf b (gapsOf src)).length ≤ 8 * s.cfg.packCap :=
      Nat.le_of_not_lt fun hfull => not_error (exec_golombEnc_of_full h hl he hfull)
    obtain ⟨w, hholds, hw⟩ := exec_golombEnc_of_fits h hl he hfits
    cases hexec.symm.trans hw
    exact ⟨hl, b, z, w, he, hfits, hholds, rfl⟩

end Sys2Proof.Proofs
end

section
/-! PROOFS. GOLOMB_DEC (R181, R183): the command on a packed stream by the outcome of its run-length stage, the two
commands that it runs in turn (R185), and the round trip with GOLOMB_ENC (R184). -/

namespace Sys2Proof.Proofs

open Sys2Proof.Machine Sys2Proof.Claims

/-! ### The command on the stream of a gap sequence -/

/-- `PACKED` holds the padded symbols of `g`, for the `b` in `B_PARAM`, and `g` is a sequence that R172 and R175
allow. -/
structure HoldsStream (s : State) (g : List Nat) : Prop where
  ne : g ≠ []
  pos : ∀ v ∈ g, 1 ≤ v
  mod : g.sum % 8 = 0
  sum : g.sum ≤ 8 * (s.cfg.maxLen + 1)
  b : s.bParam ≠ 0
  holds : HoldsPacked s (packBits (streamOf s.bParam.toNat g))
  cap : (packBits (streamOf s.bParam.toNat g)).length ≤ s.cfg.packCap

/-- GR_DEC as GOLOMB_DEC's first stage. -/
theorem HoldsStream.exec_grDec {s : State} {g : List Nat} (h : HoldsStream s g) :
    exec .grDec s = .next { s with gaps := Mem.writeList s.gaps 0 (words g), gapCount := BitVec.ofNat 32 g.length,
                                   status := succeeded, latch := none } :=
  exec_grDec_stream h.ne h.pos h.mod h.sum h.b h.holds h.cap

/-- R171's checks pass. -/
theorem HoldsStream.checks {s : State} {g : List Nat} (h : HoldsStream s g) :
    s.packLenTooLarge = false ∧ s.b ≠ 0 ∧ s.packLen ≠ 0 := by
  have hlen : s.packLen.toNat = (packBits (streamOf s.bParam.toNat g)).length := h.holds.1
  have hcap := h.cap
  refine ⟨decide_eq_false (by omega), mt (b_eq_zero_iff s).1 h.b, fun h0 => ?_⟩
  exact packBits_stream_ne_nil _ h.ne (List.length_eq_zero_iff.1 (by rw [← hlen, h0]; rfl))

/-- The engine reads written cells, and its Golomb-Rice stage decodes them to `g`. -/
theorem HoldsStream.decoded {s : State} {g : List Nat} (h : HoldsStream s g) :
    s.srcPackedWritten = true ∧ grDecodeCore s.cfg.maxLen s.b s.srcPacked = .ok g := by
  obtain ⟨hsrc, hwritten⟩ := Laws.srcPacked_of_holds h.holds
  obtain ⟨-, hb, -⟩ := h.checks
  exact ⟨hwritten, (grDecodeCore_eq_ok_iff (Nat.pos_of_ne_zero hb)).2 ⟨hsrc, h.pos, h.mod, h.sum⟩⟩

/-- The outcome is that of the run-length stage on `g`. -/
theorem HoldsStream.exec_golombDec {s : State} {g : List Nat} (h : HoldsStream s g) :
    exec .golombDec s = .next (if Decodable s.cfg.maxLen g then
      { s with gaps := Mem.writeList s.gaps 0 (words g), gapCount := BitVec.ofNat 32 g.length,
               bytes := Mem.writeList s.bytes 0 (bytesOf g), byteLen := BitVec.ofNat 32 (bytesOf g).length,
               status := succeeded, latch := none } else afterError s .golombDec 4) := by
  obtain ⟨hsmall, hb, hlen⟩ := h.checks
  obtain ⟨hwritten, hcore⟩ := h.decoded
  simp only [exec, execGolombDec, hsmall, hb, hlen, hwritten, hcore, Laws.rleDecodeCore_eq, raise_eq_afterError,
    Bool.false_eq_true, if_false]
  by_cases hd : Decodable s.cfg.maxLen g
  · rw [if_pos hd, if_pos hd]
    rfl
  · rw [if_neg hd, if_neg hd]
    rfl

/-- Settles O52: the two branches of the command's outcome. -/
theorem golombDecDecompressesOrRejects : Obligations.GolombDecDecompressesOrRejects := by
  intro s g hne hpos hmod hsum hb ps hps hcap
  rw [HoldsStream.exec_golombDec ⟨hne, hpos, hmod, hsum, hb, hps, hcap⟩]
  refine ⟨fun hd => ?_, fun hd => by rw [if_neg hd]⟩
  rw [if_pos hd]
  exact ⟨_, _, rfl, Laws.wrote_writeList _ _, Laws.wrote_writeList _ _⟩

/-! ### The two stages (R185) -/

/-- On a written packed stream both decoders fail with one code, in R171's checks or in their common core, or the stream
is that of a gap sequence. -/
theorem decodersFail_or_holdsStream {s : State} {ps : List Byte} (hps : HoldsPacked s ps) :
    (∃ c, ∀ i, i = .grDec ∨ i = .golombDec → exec i s = .next (afterError s i c)) ∨ ∃ g, HoldsStream s g := by
  by_cases hlarge : s.cfg.packCap < s.packLen.toNat
  · exact .inl ⟨2, fun i hi => exec_decoder_of_lenTooLarge hi hlarge⟩
  by_cases hb : s.bParam = 0
  · exact .inl ⟨5, fun i hi => exec_decoder_of_bZero hi hlarge hb⟩
  by_cases hne : ps = []
  · exact .inl ⟨4, fun i hi => exec_decoder_of_lenZero hi hb (BitVec.eq_of_toNat_eq (by rw [hps.1, hne]; rfl))⟩
  have hcap : ps.length ≤ s.cfg.packCap := by
    rw [← hps.1]
    exact Nat.le_of_not_lt hlarge
  have hb1 : 1 ≤ s.b := Nat.pos_of_ne_zero (mt (b_eq_zero_iff s).1 hb)
  cases hcore : grDecodeCore s.cfg.maxLen s.b ps with
  | error e => exact .inl ⟨e.code, fun i hi => exec_decoder_of_coreError hi hps hcap hne hb hcore⟩
  | ok g =>
    obtain ⟨rfl, hpos, hmod, hsum⟩ := (grDecodeCore_eq_ok_iff hb1).1 hcore
    have hgne : g ≠ [] := fun h0 => hne (by simp [h0, streamOf, packBits])
    exact .inr ⟨g, hgne, hpos, hmod, hsum, hb, hps, hcap⟩

/-- Settles O55. Where GR_DEC fails, so does GOLOMB_DEC; elsewhere GR_DEC leaves the sequence in `GAPS`, and RLE_DEC
decodes or rejects it as the second stage does. -/
theorem golombDecIsItsTwoStages : Obligations.GolombDecIsItsTwoStages := by
  intro s ps hc hps
  obtain ⟨c, hfail⟩ | ⟨g, hg⟩ := decodersFail_or_holdsStream hps
  · obtain ⟨s2, -, hrle, -⟩ := Laws.exec_ends .rleDec (afterError s .grDec c)
    exact ⟨_, _, s2, hfail _ (.inr rfl), hfail _ (.inl rfl), hrle, nofun, fun _ => .inl ⟨rfl, rfl⟩⟩
  · have hcap : g.length ≤ s.cfg.gapCap := by
      have := Laws.length_le_sum hg.pos
      have := hg.sum
      rw [Config.gapCap]
      omega
    refine ⟨_, _, _, hg.exec_golombDec, hg.exec_grDec,
      exec_rleDec (g := g) (holdsGaps_of_bounded hc hg.pos hg.sum rfl (Laws.wrote_writeList _ _)) hcap, ?_⟩
    by_cases hd : Decodable s.cfg.maxLen g
    · rw [if_pos hd, if_pos hd]
      exact ⟨fun _ => ⟨rfl, rfl⟩, nofun⟩
    · rw [if_neg hd, if_neg hd]
      exact ⟨nofun, fun _ => .inr ⟨rfl, rfl, rfl⟩⟩

/-! ### The round trip (R184) -/

/-- What a successful GOLOMB_ENC leaves is a stream for GOLOMB_DEC, whatever the decoder's destinations hold. -/
theorem holdsStream_after_golombEnc {s : State} {src : List Byte} {b z : Nat} {w : Writer} (m0 : Mem 8) (x : Word)
    (m1 : Mem 32) (y : Word) (hc : s.cfg.Wf) (hl : src.length ≤ s.cfg.maxLen) (he : estimateB src = .ok (b, z))
    (hfits : (streamOf b (gapsOf src)).length ≤ 8 * s.cfg.packCap)
    (hw : Laws.Holds w s.packed (streamOf b (gapsOf src))) :
    HoldsStream { packingEnd (beforePacking s b z (gapsOf src)) (.ok w) with
      bytes := m0, byteLen := x, gaps := m1, gapCount := y } (gapsOf src) := by
  obtain ⟨hreg, hb⟩ := toNat_estimate hc hl he
  obtain ⟨hne, hpos, hsum, hmod, -⟩ := decodable_gapsOf hl
  obtain ⟨-, -, hpackCap⟩ := capacities_lt hc
  have hcap : (packBits (streamOf b (gapsOf src))).length ≤ s.cfg.packCap := by
    rw [Laws.length_packBits]
    omega
  rw [packingEnd_of_holds (s := beforePacking s b z (gapsOf src)) hw]
  rw [← hreg] at hcap hw
  refine ⟨hne, hpos, hmod, hsum, hb, ?_, hcap⟩
  exact holdsPacked_of_wrote (by rw [Laws.length_packBits]; simp only [beforePacking, hreg])
    (hcap.trans_lt hpackCap) (wrote_of_holds hw)

/-- GOLOMB_DEC decodes the stream of a buffer's gap sequence to the buffer. -/
theorem HoldsStream.exec_golombDec_gapsOf {s : State} {src : List Byte} (h : HoldsStream s (gapsOf src))
    (hl : src.length ≤ s.cfg.maxLen) (hlt : src.length < 2 ^ 32) :
    ∃ t, exec .golombDec s = .next t ∧ t.status = succeeded ∧ HoldsBytes t src := by
  have hexec := h.exec_golombDec
  rw [if_pos (decodable_gapsOf hl), bytesOf_gapsOf] at hexec
  exact ⟨_, hexec, rfl, holdsBytes_of_wrote rfl hlt (Laws.wrote_writeList _ _)⟩

/-- Settles O53: GOLOMB_ENC leaves the stream of the gap sequence of `src`, which decodes to `src`. -/
theorem golombRoundTrip : Obligations.GolombRoundTrip := by
  intro s t src m0 x m1 y hc h hexec hok
  obtain ⟨hl, b, z, w, he, hfits, hw, rfl⟩ := exec_golombEnc_succeeded h hexec hok
  obtain ⟨hmax, -, -⟩ := capacities_lt hc
  exact (holdsStream_after_golombEnc m0 x m1 y hc hl he hfits hw).exec_golombDec_gapsOf hl (hl.trans_lt hmax)

end Sys2Proof.Proofs
end

section
/-! PROOFS. The start of a command and its completion, with its error codes and its error cleanup (R200 to R205, R220),
the busy window (R240) and the reset input (R230). -/

namespace Sys2Proof.Proofs

open Sys2Proof.Machine Sys2Proof.Claims

/-! ### The start, the busy window and the reset (R65, R200, R230, R240) -/

/-- Every command is completed by its step: it ends with none pending (R202). -/
theorem exec_completes (i : Instr) (s : State) : ∃ t, exec i s = .next t ∧ t.status.busy = false ∧ t.latch = none := by
  obtain ⟨t, -, hx, -⟩ := Laws.exec_ends i s
  exact ⟨t, hx, exec_not_busy hx, (exec_frame hx).latch⟩

/-- Settles O8: the `CMD` write latches the word, and the engine's turn runs its command. -/
theorem commandWriteStartsCommand : Obligations.CommandWriteStartsCommand := by
  intro s w ms hb hm s1
  refine ⟨step_write_reg (r := .cmd) hb hm rfl, by decide, ?_⟩
  rintro ms' rfl
  have hturn : step s1 = exec (decode w) { s1 with moves := ms' } :=
    (step_of_engine rfl).trans (Laws.engineStep_pending (Laws.pending_of_busy rfl rfl))
  rw [hturn]
  exact ⟨rfl, exec_completes _ _⟩

/-- While `BUSY = 1` an access is judged by whether it is the `STATUS` read alone. -/
theorem step_of_busy_access {s : State} {op : HostOp} {ms : List Move} (hb : s.status.busy = true)
    (h : s.moves = .access op :: ms) :
    step s = .next (if op = .read32 0x00000004 then (s.withMoves ms).replied (some (.word s.status.toWord))
      else (s.withMoves ms).faultAccess .hostAccessWhileBusy) := by
  rw [step_of_access h, State.hostAccess, State.withMoves_status, if_pos hb]
  rfl

/-- Settles O21: the window is open from the `CMD` write to the command's completion. -/
theorem busyWindowAllowsOnlyStatusReads : Obligations.BusyWindowAllowsOnlyStatusReads := by
  refine ⟨fun s op ms hb hm => ⟨fun hop => ?_, fun hop => ?_⟩, fun s w ms hb hm => ?_, fun i s => ?_⟩
  · rw [step_of_busy_access hb hm, if_pos hop]
    rfl
  · rw [step_of_busy_access hb hm, if_neg hop]
    rfl
  · exact ⟨_, step_write_reg (r := .cmd) hb hm rfl, rfl⟩
  · obtain ⟨t, hx, hidle, -⟩ := exec_completes i s
    exact ⟨t, hx, hidle⟩

/-- Settles O27: the reset input is the next move, and leaves R40's state. -/
theorem resetInputClearsTheCore : Obligations.ResetInputClearsTheCore :=
  fun _ _ hm => step_of_reset hm

/-! ### The errors of the stages (R201) -/

theorem estimateB_error {src : List Byte} {e : ErrorCode} (h : estimateB src = .error e) : e = .degenerateDensity := by
  rw [Laws.estimateB_eq] at h
  split_ifs at h
  cases h
  rfl

theorem rleDecodeCore_error {maxLen : Nat} {g : List Nat} {e : ErrorCode} (h : rleDecodeCore maxLen g = .error e) :
    e = .malformedStream := by
  rw [Laws.rleDecodeCore_eq] at h
  split_ifs at h
  cases h
  rfl

/-- With no entry 0 the one error of the packing is a symbol that does not fit (R163). -/
theorem grEncode_error_of_pos {cap b : Nat} {g : List Nat} {m : Mem 8} {e : ErrorCode} (hpos : ∀ v ∈ g, 1 ≤ v)
    (h : grEncode cap b g m = .error e) : e = .allocationFailure := by
  obtain ⟨hfits, hfull⟩ := Laws.grEncode_spec cap b hpos m
  rcases Nat.lt_or_ge (8 * cap) (streamOf b g).length with hlt | hle
  · cases h.symm.trans (hfull hlt)
    rfl
  · obtain ⟨w, hw, -⟩ := hfits hle
    cases h.symm.trans hw

/-- By the first entry 0: the symbols before it fit or not (R161). -/
theorem grEncode_error {cap b : Nat} {g : List Nat} {m : Mem 8} {e : ErrorCode} (h : grEncode cap b g m = .error e) :
    e = .allocationFailure ∨ e = .malformedStream := by
  by_cases hz : 0 ∈ g
  · obtain ⟨g1, g2, rfl, hg1⟩ := List.eq_append_cons_of_mem hz
    have hpos : ∀ v ∈ g1, 1 ≤ v := fun v hv => Nat.pos_of_ne_zero fun h0 => hg1 (h0 ▸ hv)
    rcases Nat.lt_or_ge (8 * cap) (streamOf b g1).length with hlt | hle
    · cases h.symm.trans (Laws.grEncode_full cap b hpos m hlt)
      exact .inl rfl
    · cases h.symm.trans (Laws.grEncode_zero cap b hpos m hle)
      exact .inr rfl
  · exact .inl (grEncode_error_of_pos (fun v hv => Nat.pos_of_ne_zero fun h0 => hz (h0 ▸ hv)) h)

/-! ### The error codes of a command (R201) -/

/-- `STATUS` reports success or an error code that R201 gives to the command. -/
def EndsWithin (i : Instr) (t : State) : Prop :=
  t.status = succeeded ∨ ∃ c ∈ codesOf i, t.status = failedWith c

theorem endsWithin_raise {s t : State} {i : Instr} {e : ErrorCode}
    (h : (.next (s.raise i e) : Host.Outcome State Fault Refusal) = .next t) (he : e.code ∈ codesOf i) :
    EndsWithin i t := by
  cases h
  exact .inr ⟨e.code, he, State.raise_status s i e⟩

theorem endsWithin_complete {s t : State} {i : Instr}
    (h : (.next s.complete : Host.Outcome State Fault Refusal) = .next t) : EndsWithin i t := by
  cases h
  exact .inl rfl

/-- By command and branch of its meaning: a check that fails raises its code, and so does the stage that fails. -/
theorem exec_endsWithin {i : Instr} {s t : State} (h : exec i s = .next t) : EndsWithin i t := by
  cases i with
  | rltLookup v => exact endsWithin_complete h
  | rleEnc =>
    simp only [exec, execRleEnc] at h
    split_ifs at h
    · exact endsWithin_raise h (by decide)
    · exact endsWithin_complete h
  | rleDec =>
    simp only [exec, execRleDec] at h
    split_ifs at h
    any_goals exact endsWithin_raise h (by decide)
    split at h
    next hd =>
      obtain rfl := rleDecodeCore_error hd
      exact endsWithin_raise h (by decide)
    next => exact endsWithin_complete h
  | density =>
    simp only [exec, execDensity] at h
    split_ifs at h
    · exact endsWithin_raise h (by decide)
    · split at h
      next he =>
        obtain rfl := estimateB_error he
        exact endsWithin_raise h (by decide)
      next => exact endsWithin_complete h
  | grEnc =>
    simp only [exec, execGrEnc] at h
    split_ifs at h
    any_goals exact endsWithin_raise h (by decide)
    split at h
    next hw =>
      obtain rfl | rfl := grEncode_error hw
      · exact endsWithin_raise h (by decide)
      · exact endsWithin_raise h (by decide)
    next => exact endsWithin_complete h
  | grDec =>
    simp only [exec, execGrDec] at h
    split_ifs at h
    any_goals exact endsWithin_raise h (by decide)
    split at h
    next hg =>
      obtain rfl := decodeSymbols_error hg
      exact endsWithin_raise h (by decide)
    next => exact endsWithin_complete h
  | golombEnc =>
    simp only [exec, execGolombEnc] at h
    split_ifs at h
    · exact endsWithin_raise h (by decide)
    · split at h
      next he =>
        obtain rfl := estimateB_error he
        exact endsWithin_raise h (by decide)
      next =>
        split at h
        next hw =>
          rw [Laws.rleEncode_eq_gapsOf] at hw
          obtain rfl := grEncode_error_of_pos (Laws.gapsOf_pos _) hw
          exact endsWithin_raise h (by decide)
        next => exact endsWithin_complete h
  | golombDec =>
    simp only [exec, execGolombDec] at h
    split_ifs at h
    any_goals exact endsWithin_raise h (by decide)
    split at h
    next hg =>
      obtain rfl := decodeSymbols_error hg
      exact endsWithin_raise h (by decide)
    next =>
      split at h
      next hd =>
        obtain rfl := rleDecodeCore_error hd
        exact endsWithin_raise h (by decide)
      next => exact endsWithin_complete h
  | illegal w => exact endsWithin_raise h (List.mem_singleton.2 rfl)

/-- Settles O11: a command's end is within its row of R201. -/
theorem errorCodesStayWithTheirCommands : Obligations.ErrorCodesStayWithTheirCommands :=
  fun _ _ _ => exec_endsWithin

/-! ### The completion (R200, R202, R220) -/

/-- R201 gives the commands the codes 1 to 6. -/
theorem codesOf_bounds {i : Instr} {c : BitVec 4} (h : c ∈ codesOf i) : 1 ≤ c.toNat ∧ c.toNat ≤ 6 := by
  have hcodes : ∀ c ∈ ([1, 2, 3, 4, 5, 6] : List (BitVec 4)), 1 ≤ c.toNat ∧ c.toNat ≤ 6 := by decide
  refine hcodes c ?_
  cases i <;> simp only [codesOf, List.mem_cons, List.not_mem_nil, or_false] at h ⊢ <;> tauto

/-- `STATUS` after an error, as R202 writes it. -/
theorem toWord_failedWith (c : BitVec 4) : (failedWith c).toWord = 0x00000006 ||| (c.setWidth 32 <<< 4) := by
  revert c
  decide

/-- Settles O9: a command's step completes it, keeps its frame and reports one of its codes. -/
theorem everyCommandCompletesInOneStep : Obligations.EveryCommandCompletesInOneStep := by
  intro i s
  obtain ⟨t, -, hx, -⟩ := Laws.exec_ends i s
  have hframe := exec_frame hx
  refine ⟨t, hx, hframe.latch, hframe.cmd, exec_cfg hx, hframe.moves, hframe.reply, ?_⟩
  obtain hst | ⟨c, hc, hst⟩ := exec_endsWithin hx
  · rw [hst]
    exact .inl ⟨rfl, by decide⟩
  · obtain ⟨hpos, hle⟩ := codesOf_bounds hc
    rw [hst]
    exact .inr ⟨c, hpos, hle, rfl, toWord_failedWith c⟩

/-! ### The error cleanup (R203 to R205) -/

/-- What the reads note is not undone by an error (R205). -/
theorem afterError_noteReads (s : State) (ok : Bool) (i : Instr) (c : BitVec 4) :
    afterError (s.noteReads ok) i c =
      { afterError s i c with faults := (s.noteReads ok).faults, freeSeed := (s.noteReads ok).freeSeed } := by
  cases ok <;> cases i <;> rfl

/-- Settles O10: the command has raised its error, from the state with its reads noted. -/
theorem errorsClearTheDestinationsOnly : Obligations.ErrorsClearTheDestinationsOnly := by
  intro i s t h he
  obtain ⟨ok, e, rfl⟩ := exec_failed h he
  refine ⟨?_, ?_⟩
  · rw [State.raise_faults, State.raise_freeSeed, State.raise_status, raise_eq_afterError, afterError_noteReads]
    rfl
  · rw [State.raise_faults]
    cases ok with
    | true => exact .inl rfl
    | false => exact .inr rfl

end Sys2Proof.Proofs
end
